-- ==== Sys2Proof/Word.lean ====
section
/-! DEFINITION. The word types of FBSEQ: a byte, a 16-bit operand field of a request, a 7-bit bus address. -/

namespace Sys2Proof

/-- A byte: "A byte is 8 bits" (00_scope.md R10). -/
abbrev Byte := BitVec 8

/-- A 16-bit operand field of a request; COORD_W = 16 (00_scope.md R9, 30_encoding.md R70). -/
abbrev Half := BitVec 16

/-- A bus address: "BUSADDR is a 7-bit value" (00_scope.md R8). -/
abbrev BusAddr := BitVec 7

end Sys2Proof
end

