-- ==== Sys2Proof/Config.lean ====
section
/-! DEFINITION. The implementation parameters of FBSEQ (00_scope.md section 4) and the values the spec leaves open:
the OPEN parameter P_MEMORY_MODE_ARG, and the registers a failed CONSTRUCT leaves unspecified. Each open value is a
constant with no body, so that no proof can lean on a value of it. -/

namespace Sys2Proof

/-- The three display models (00_scope.md R5). Code 3 is no model, so the MODEL register cannot hold it (R24). -/
inductive DisplayModel where
  | m128x64
  | m128x32
  | m96x16
deriving DecidableEq, Repr

/-- The two power-source modes (00_scope.md R7): External = 0, Switching = 1. -/
inductive PowerMode where
  | external
  | switching
deriving DecidableEq, Repr

/-- P_CMD_FRAMING (00_scope.md R9, 30_encoding.md R64): how a command and its arguments are split into transactions. -/
inductive Framing where
  | perByte
  | perCommand
deriving DecidableEq, Repr

namespace Config

/-- P_MEMORY_MODE_ARG, the argument of SetMemoryMode in the initialization sequence. OPEN: the source "gives no byte"
(00_scope.md R9, 92_eei_decisions.md D8). Log entry 1. -/
opaque memoryModeArg : Byte

/-- MODEL after a failed CONSTRUCT: "unspecified" (41_sequencer.md R101, 93_implementation_defined.md U2). Log entry 2. -/
opaque unspecifiedModel : Nat → Option DisplayModel

/-- POWER after a failed CONSTRUCT: "unspecified" (R101, U2). Log entry 2. -/
opaque unspecifiedPower : Nat → Option PowerMode

/-- BUSADDR after a failed CONSTRUCT: "unspecified" (R101, U2). Log entry 2. -/
opaque unspecifiedBusAddr : Nat → Option BusAddr

/-- `contrast` after a failed CONSTRUCT: "unspecified" (R101, U2). Log entry 2. -/
opaque unspecifiedContrast : Nat → Option Byte

/-- Whether FB holds a value after a failed CONSTRUCT: "unspecified" (R101, U2). Log entry 2. -/
opaque unspecifiedAllocated : Nat → Bool

/-- The bits of FB after a failed CONSTRUCT, by draw and by linear index: "unspecified" (R101, U2). Log entry 2. -/
opaque unspecifiedBit : Nat → Nat → Bool

end Config

end Sys2Proof
end

