-- ==== Sys2Proof/Syntax.lean ====
section
/-! DEFINITION. The syntax: one constructor for every mnemonic of spec/opcode_table.json, that is the 24 SSD1306 wire
commands (`cmd…`), the 13 host requests (`req…`), the illegal request code, and the display-data transaction. -/

namespace Sys2Proof

/-- An instruction of FBSEQ: a wire command the sequencer emits, a request the host presents, or the data transaction. -/
inductive Instr where
  /-- SetContrast, 0x81, format C1 (42_wire_commands.md R130). -/
  | cmdSetContrast (a1 : Byte)
  /-- Resume, 0xA4, format C0 (42_wire_commands.md R131). -/
  | cmdResume
  /-- EntireDisplayOn, 0xA5, format C0 (42_wire_commands.md R132). -/
  | cmdEntireDisplayOn
  /-- DisplayModeNormal, 0xA6, format C0 (42_wire_commands.md R133). -/
  | cmdDisplayModeNormal
  /-- DisplayModeInvert, 0xA7, format C0 (42_wire_commands.md R134). -/
  | cmdDisplayModeInvert
  /-- TurnOff, 0xAE, format C0 (42_wire_commands.md R135). -/
  | cmdTurnOff
  /-- TurnOn, 0xAF, format C0 (42_wire_commands.md R136). -/
  | cmdTurnOn
  /-- SetDisplayOffset, 0xD3, format C1 (42_wire_commands.md R137). -/
  | cmdSetDisplayOffset (a1 : Byte)
  /-- SetComPins, 0xDA, format C1 (42_wire_commands.md R138). -/
  | cmdSetComPins (a1 : Byte)
  /-- SetVoltageOutput, 0xDB, format C1 (42_wire_commands.md R139). -/
  | cmdSetVoltageOutput (a1 : Byte)
  /-- SetClockDivider, 0xD5, format C1 (42_wire_commands.md R140). -/
  | cmdSetClockDivider (a1 : Byte)
  /-- SetPrechargeMode, 0xD9, format C1 (42_wire_commands.md R141). -/
  | cmdSetPrechargeMode (a1 : Byte)
  /-- SetMultiplexer, 0xA8, format C1 (42_wire_commands.md R142). -/
  | cmdSetMultiplexer (a1 : Byte)
  /-- SetLowColumn, 0x00, format C0 (42_wire_commands.md R143). -/
  | cmdSetLowColumn
  /-- SetHighColumn, 0x10, format C0 (42_wire_commands.md R144). -/
  | cmdSetHighColumn
  /-- SetStartLine, 0x40, format C0 (42_wire_commands.md R145). -/
  | cmdSetStartLine
  /-- SetMemoryMode, 0x20, format C1 (42_wire_commands.md R146). -/
  | cmdSetMemoryMode (a1 : Byte)
  /-- SetColumnAddressRange, 0x21, format C2 (42_wire_commands.md R147). -/
  | cmdSetColumnAddressRange (a1 a2 : Byte)
  /-- SetPageAddressRange, 0x22, format C2 (42_wire_commands.md R148). -/
  | cmdSetPageAddressRange (a1 a2 : Byte)
  /-- ScanDirectionModeIncrement, 0xC0, format C0 (42_wire_commands.md R149). -/
  | cmdScanDirectionModeIncrement
  /-- ScanDirectionModeDecrement, 0xC8, format C0 (42_wire_commands.md R150). -/
  | cmdScanDirectionModeDecrement
  /-- SegmentRemapModeOff, 0xA0, format C0 (42_wire_commands.md R151). -/
  | cmdSegmentRemapModeOff
  /-- SegmentRemapModeOn, 0xA1, format C0 (42_wire_commands.md R152). -/
  | cmdSegmentRemapModeOn
  /-- SetChargePumpMode, 0x8D, format C1 (42_wire_commands.md R153). -/
  | cmdSetChargePumpMode (a1 : Byte)
  /-- CONSTRUCT model, power, tp, addr (41_sequencer.md R101). `model` is the 2-bit code; code 3 is unrecognized. -/
  | reqConstruct (model : BitVec 2) (power : PowerMode) (tp : Bool) (addr : BusAddr)
  /-- GETPX x, y (40_framebuffer.md R81). -/
  | reqGetpx (x y : Half)
  /-- SETPX x, y, v (40_framebuffer.md R82). -/
  | reqSetpx (x y : Half) (v : Bool)
  /-- CLEAR (40_framebuffer.md R83). -/
  | reqClear
  /-- PACK (40_framebuffer.md R84). -/
  | reqPack
  /-- LOAD ox, oy, num/den (40_framebuffer.md R85). -/
  | reqLoad (ox oy num den : Half)
  /-- SETACTIVE b (41_sequencer.md R104). -/
  | reqSetactive (b : Bool)
  /-- SETCONTRAST c (41_sequencer.md R105). -/
  | reqSetcontrast (c : Byte)
  /-- RENDER (41_sequencer.md R106). -/
  | reqRender
  /-- DISPOSE (41_sequencer.md R107). -/
  | reqDispose
  /-- GETCONTRAST (41_sequencer.md R108). -/
  | reqGetcontrast
  /-- GETACTIVE (41_sequencer.md R109). -/
  | reqGetactive
  /-- GETGEOM (41_sequencer.md R110). -/
  | reqGetgeom
  /-- A request code outside 0x01 to 0x0D (30_encoding.md R71, 60_exceptions.md R167). -/
  | illegal (code : Byte)
  /-- The display-data transaction: control byte 0x40, payload DATA[0..N-1] (41_sequencer.md R106, 30_encoding.md R64). -/
  | displayData (data : List Byte)
deriving DecidableEq, Repr

/-- The three encoding streams an instruction can stand in (30_encoding.md R60): the SSD1306 command stream, the display-data
stream, and the host request port. -/
inductive Stream where
  | command
  | data
  | host
deriving DecidableEq, Repr

/-- The stream an instruction belongs to (the "level" column of spec/opcode_table.json). -/
def Instr.stream : Instr → Stream
  | .reqConstruct .. | .reqGetpx .. | .reqSetpx .. | .reqClear | .reqPack | .reqLoad .. | .reqSetactive _
  | .reqSetcontrast _ | .reqRender | .reqDispose | .reqGetcontrast | .reqGetactive | .reqGetgeom | .illegal _ => .host
  | .displayData _ => .data
  | .cmdSetContrast _ | .cmdResume | .cmdEntireDisplayOn | .cmdDisplayModeNormal | .cmdDisplayModeInvert
  | .cmdTurnOff | .cmdTurnOn | .cmdSetDisplayOffset _ | .cmdSetComPins _ | .cmdSetVoltageOutput _
  | .cmdSetClockDivider _ | .cmdSetPrechargeMode _ | .cmdSetMultiplexer _ | .cmdSetLowColumn
  | .cmdSetHighColumn | .cmdSetStartLine | .cmdSetMemoryMode _ | .cmdSetColumnAddressRange _ _
  | .cmdSetPageAddressRange _ _ | .cmdScanDirectionModeIncrement | .cmdScanDirectionModeDecrement
  | .cmdSegmentRemapModeOff | .cmdSegmentRemapModeOn | .cmdSetChargePumpMode _ => .command

end Sys2Proof
end

