-- ==== Sys2Proof/WellFormed.lean ====
section
/-! DEFINITION. Which instructions are well formed. Every operand field is typed at its width, so only two instructions can
be ill formed: an `illegal` whose code is a legal request code, and a data transaction of a length no model has. -/

namespace Sys2Proof

/-- A request code outside the map: "A request code outside 0x01 to 0x0D is illegal" (30_encoding.md R71). -/
def isIllegalCode (code : Byte) : Bool :=
  code == 0x00 || decide (0x0E ≤ code.toNat)

/-- The lengths N of a display-data payload: 1024, 512 or 192 (00_scope.md R6). -/
def isDataLength (n : Nat) : Bool :=
  n == 1024 || n == 512 || n == 192

/-- Well-formedness: the operands are ones the encoding admits. -/
def Instr.wellFormed : Instr → Bool
  | .illegal code => isIllegalCode code
  | .displayData data => isDataLength data.length
  | .cmdSetContrast _ | .cmdResume | .cmdEntireDisplayOn | .cmdDisplayModeNormal | .cmdDisplayModeInvert
  | .cmdTurnOff | .cmdTurnOn | .cmdSetDisplayOffset _ | .cmdSetComPins _ | .cmdSetVoltageOutput _
  | .cmdSetClockDivider _ | .cmdSetPrechargeMode _ | .cmdSetMultiplexer _ | .cmdSetLowColumn
  | .cmdSetHighColumn | .cmdSetStartLine | .cmdSetMemoryMode _ | .cmdSetColumnAddressRange _ _
  | .cmdSetPageAddressRange _ _ | .cmdScanDirectionModeIncrement | .cmdScanDirectionModeDecrement
  | .cmdSegmentRemapModeOff | .cmdSegmentRemapModeOn | .cmdSetChargePumpMode _
  | .reqConstruct _ _ _ _ | .reqGetpx _ _ | .reqSetpx _ _ _ | .reqClear | .reqPack | .reqLoad _ _ _ _
  | .reqSetactive _ | .reqSetcontrast _ | .reqRender | .reqDispose | .reqGetcontrast | .reqGetactive
  | .reqGetgeom => true

end Sys2Proof
end

