-- ==== Sys2Proof/Decode.lean ====
section
/-! DEFINITION. Decoding and encoding: the SSD1306 command stream (30_encoding.md R61 to R67), the data transaction (R64),
the host requests (R68 to R71), and the reader of a command stream (R65). The decoder is total on any bytes and refuses by
name; the encoder is written from the same tables. -/

namespace Sys2Proof

/-- Why bytes are no instruction of their stream. -/
inductive Reject where
  /-- No bytes at all. -/
  | empty
  /-- A byte in opcode position outside the closed set (30_encoding.md R66). -/
  | notACommand (b : Byte)
  /-- A command whose argument bytes are missing (R65). -/
  | truncatedCommand (op : Byte)
  /-- More bytes than the command has (R61). -/
  | extraBytes (op : Byte)
  /-- A request with a missing or extra byte (R68). -/
  | wrongLength (code : Byte)
  /-- A data transaction whose control byte is not 0x40 or whose length no model has (R64). -/
  | notADataTransaction
  /-- A control byte the block never emits (R48). -/
  | badControlByte (ctrl : Byte)
deriving DecidableEq, Repr

/-- What decoding answers. -/
inductive Decoded where
  | instr (i : Instr)
  | reject (r : Reject)
deriving DecidableEq, Repr

/-- The instruction read, if one was. -/
def Decoded.toOption : Decoded → Option Instr
  | .instr i => some i
  | .reject _ => none

/-! ### The command stream -/

/-- A command's format C0, C1 or C2 (30_encoding.md R61), with the instruction its argument bytes make. -/
inductive CommandFormat where
  | c0 (i : Instr)
  | c1 (make : Byte → Instr)
  | c2 (make : Byte → Byte → Instr)

/-- The command opcode map, the complete closed set of 24 opcodes, each matched exactly (30_encoding.md R62, R63). -/
def commandFormat (op : Byte) : Option CommandFormat :=
  if op = 0x81 then some (.c1 .cmdSetContrast)
  else if op = 0xA4 then some (.c0 .cmdResume)
  else if op = 0xA5 then some (.c0 .cmdEntireDisplayOn)
  else if op = 0xA6 then some (.c0 .cmdDisplayModeNormal)
  else if op = 0xA7 then some (.c0 .cmdDisplayModeInvert)
  else if op = 0xAE then some (.c0 .cmdTurnOff)
  else if op = 0xAF then some (.c0 .cmdTurnOn)
  else if op = 0xD3 then some (.c1 .cmdSetDisplayOffset)
  else if op = 0xDA then some (.c1 .cmdSetComPins)
  else if op = 0xDB then some (.c1 .cmdSetVoltageOutput)
  else if op = 0xD5 then some (.c1 .cmdSetClockDivider)
  else if op = 0xD9 then some (.c1 .cmdSetPrechargeMode)
  else if op = 0xA8 then some (.c1 .cmdSetMultiplexer)
  else if op = 0x00 then some (.c0 .cmdSetLowColumn)
  else if op = 0x10 then some (.c0 .cmdSetHighColumn)
  else if op = 0x40 then some (.c0 .cmdSetStartLine)
  else if op = 0x20 then some (.c1 .cmdSetMemoryMode)
  else if op = 0x21 then some (.c2 .cmdSetColumnAddressRange)
  else if op = 0x22 then some (.c2 .cmdSetPageAddressRange)
  else if op = 0xC0 then some (.c0 .cmdScanDirectionModeIncrement)
  else if op = 0xC8 then some (.c0 .cmdScanDirectionModeDecrement)
  else if op = 0xA0 then some (.c0 .cmdSegmentRemapModeOff)
  else if op = 0xA1 then some (.c0 .cmdSegmentRemapModeOn)
  else if op = 0x8D then some (.c1 .cmdSetChargePumpMode)
  else none

/-- The number of argument bytes of an opcode (the "argc" column of R62); none outside the set. -/
def commandArgc (op : Byte) : Option Nat :=
  match commandFormat op with
  | some (.c0 _) => some 0
  | some (.c1 _) => some 1
  | some (.c2 _) => some 2
  | none => none

/-- The bytes of exactly one command (30_encoding.md R61). -/
def decodeCommand : List Byte → Decoded
  | [] => .reject .empty
  | op :: args =>
    match commandFormat op with
    | none => .reject (.notACommand op)
    | some (.c0 i) =>
      match args with
      | [] => .instr i
      | _ => .reject (.extraBytes op)
    | some (.c1 make) =>
      match args with
      | [] => .reject (.truncatedCommand op)
      | [a1] => .instr (make a1)
      | _ => .reject (.extraBytes op)
    | some (.c2 make) =>
      match args with
      | [] | [_] => .reject (.truncatedCommand op)
      | [a1, a2] => .instr (make a1 a2)
      | _ => .reject (.extraBytes op)

/-! ### The data transaction -/

/-- The bus bytes of the display-data transaction: 0x40, then N data bytes (30_encoding.md R64). -/
def decodeData : List Byte → Decoded
  | [] => .reject .empty
  | ctrl :: data =>
    if ctrl = 0x40 ∧ isDataLength data.length = true then .instr (.displayData data)
    else .reject .notADataTransaction

/-! ### Host requests -/

/-- A 16-bit operand, low byte first (30_encoding.md R68: "16-bit operands are little-endian: low byte first"). -/
def halfOfBytes (lo hi : Byte) : Half := hi ++ lo

/-- The low byte of a 16-bit operand. -/
def loByte (h : Half) : Byte := h.extractLsb' 0 8

/-- The high byte of a 16-bit operand. -/
def hiByte (h : Half) : Byte := h.extractLsb' 8 8

/-- The power bit: External = 0, Switching = 1 (00_scope.md R7). -/
def powerOfBit (b : Bool) : PowerMode := if b then .switching else .external

/-- The bit of a power mode. -/
def powerBit : PowerMode → Bool
  | .external => false
  | .switching => true

/-- The bytes of one request, code first (30_encoding.md R69, R70). Reserved bits are ignored and a code outside 0x01 to
0x0D is a one-byte illegal request (R71). A request with a missing or extra byte is no request (R68). -/
def decodeRequest : List Byte → Decoded
  | [] => .reject .empty
  | code :: ops =>
    if code = 0x01 then
      match ops with
      | [q1, q2] => .instr (.reqConstruct (q1.extractLsb' 0 2) (powerOfBit (q1.getLsbD 2)) (q1.getLsbD 3) (q2.extractLsb' 0 7))
      | _ => .reject (.wrongLength code)
    else if code = 0x02 then
      match ops with
      | [q1, q2, q3, q4] => .instr (.reqGetpx (halfOfBytes q1 q2) (halfOfBytes q3 q4))
      | _ => .reject (.wrongLength code)
    else if code = 0x03 then
      match ops with
      | [q1, q2, q3, q4, q5] => .instr (.reqSetpx (halfOfBytes q1 q2) (halfOfBytes q3 q4) (q5.getLsbD 0))
      | _ => .reject (.wrongLength code)
    else if code = 0x06 then
      match ops with
      | [q1, q2, q3, q4, q5, q6, q7, q8] =>
        .instr (.reqLoad (halfOfBytes q1 q2) (halfOfBytes q3 q4) (halfOfBytes q5 q6) (halfOfBytes q7 q8))
      | _ => .reject (.wrongLength code)
    else if code = 0x07 then
      match ops with
      | [q1] => .instr (.reqSetactive (q1.getLsbD 0))
      | _ => .reject (.wrongLength code)
    else if code = 0x08 then
      match ops with
      | [q1] => .instr (.reqSetcontrast q1)
      | _ => .reject (.wrongLength code)
    else
      match ops with
      | [] =>
        if code = 0x04 then .instr .reqClear
        else if code = 0x05 then .instr .reqPack
        else if code = 0x09 then .instr .reqRender
        else if code = 0x0A then .instr .reqDispose
        else if code = 0x0B then .instr .reqGetcontrast
        else if code = 0x0C then .instr .reqGetactive
        else if code = 0x0D then .instr .reqGetgeom
        else .instr (.illegal code)
      | _ => .reject (.wrongLength code)

/-- The decoder: the bytes of one instruction of a stream, as that stream carries them. -/
def decode : Stream → List Byte → Decoded
  | .command => decodeCommand
  | .data => decodeData
  | .host => decodeRequest

/-! ### The encoder -/

/-- The bytes of an instruction in its stream, from the tables of R62, R64 and R69; reserved bits are written 0. -/
def encode : Instr → List Byte
  | .cmdSetContrast a1 => [0x81, a1]
  | .cmdResume => [0xA4]
  | .cmdEntireDisplayOn => [0xA5]
  | .cmdDisplayModeNormal => [0xA6]
  | .cmdDisplayModeInvert => [0xA7]
  | .cmdTurnOff => [0xAE]
  | .cmdTurnOn => [0xAF]
  | .cmdSetDisplayOffset a1 => [0xD3, a1]
  | .cmdSetComPins a1 => [0xDA, a1]
  | .cmdSetVoltageOutput a1 => [0xDB, a1]
  | .cmdSetClockDivider a1 => [0xD5, a1]
  | .cmdSetPrechargeMode a1 => [0xD9, a1]
  | .cmdSetMultiplexer a1 => [0xA8, a1]
  | .cmdSetLowColumn => [0x00]
  | .cmdSetHighColumn => [0x10]
  | .cmdSetStartLine => [0x40]
  | .cmdSetMemoryMode a1 => [0x20, a1]
  | .cmdSetColumnAddressRange a1 a2 => [0x21, a1, a2]
  | .cmdSetPageAddressRange a1 a2 => [0x22, a1, a2]
  | .cmdScanDirectionModeIncrement => [0xC0]
  | .cmdScanDirectionModeDecrement => [0xC8]
  | .cmdSegmentRemapModeOff => [0xA0]
  | .cmdSegmentRemapModeOn => [0xA1]
  | .cmdSetChargePumpMode a1 => [0x8D, a1]
  | .reqConstruct model power tp addr =>
    [0x01, 0#4 ++ (BitVec.ofBool tp ++ (BitVec.ofBool (powerBit power) ++ model)), 0#1 ++ addr]
  | .reqGetpx x y => [0x02, loByte x, hiByte x, loByte y, hiByte y]
  | .reqSetpx x y v => [0x03, loByte x, hiByte x, loByte y, hiByte y, 0#7 ++ BitVec.ofBool v]
  | .reqClear => [0x04]
  | .reqPack => [0x05]
  | .reqLoad ox oy num den =>
    [0x06, loByte ox, hiByte ox, loByte oy, hiByte oy, loByte num, hiByte num, loByte den, hiByte den]
  | .reqSetactive b => [0x07, 0#7 ++ BitVec.ofBool b]
  | .reqSetcontrast c => [0x08, c]
  | .reqRender => [0x09]
  | .reqDispose => [0x0A]
  | .reqGetcontrast => [0x0B]
  | .reqGetactive => [0x0C]
  | .reqGetgeom => [0x0D]
  | .illegal code => [code]
  | .displayData data => 0x40 :: data

/-! ### The reader of a command stream -/

/-- A reader of the command stream "must parse the command-stream bytes in order with a counter" (30_encoding.md R65). -/
inductive Reader where
  /-- At an opcode position, the commands read so far oldest first. -/
  | atOpcode (done : List Instr)
  /-- Inside a command: its opcode, the argument bytes read, and how many are to come, less one. -/
  | inCommand (done : List Instr) (op : Byte) (args : List Byte) (left : Nat)
  /-- A byte in opcode position outside the closed set: refused, no meaning guessed (R66). -/
  | refused (done : List Instr) (b : Byte)
deriving DecidableEq, Repr

/-- The command whose bytes are all read, added to those before it. -/
def Reader.finish (done : List Instr) (bytes : List Byte) : Reader :=
  match decodeCommand bytes with
  | .instr i => .atOpcode (done ++ [i])
  | .reject _ => .refused done (bytes.headD 0)

/-- One byte of the command stream: an opcode is looked up in R62; "The next argc command-stream bytes are that command's
arguments, whatever their values" (R65). -/
def Reader.next : Reader → Byte → Reader
  | .atOpcode done, b =>
    match commandArgc b with
    | none => .refused done b
    | some 0 => Reader.finish done [b]
    | some (n + 1) => .inCommand done b [] n
  | .inCommand done op args 0, b => Reader.finish done (op :: (args ++ [b]))
  | .inCommand done op args (n + 1), b => .inCommand done op (args ++ [b]) n
  | .refused done x, _ => .refused done x

/-- Read a whole command stream from an opcode position. -/
def readCommands (bytes : List Byte) : Reader :=
  bytes.foldl Reader.next (.atOpcode [])

/-! ### The table's numbering -/

/-- The n bytes of a number whose bit 0 is the least significant bit of the first byte. -/
def bytesOfNat (n w : Nat) : List Byte :=
  (List.range n).map fun k => BitVec.ofNat 8 (w / 2 ^ (8 * k))

/-- How many bytes a request has, by its code (30_encoding.md R69). -/
def requestLength (code : Byte) : Nat :=
  if code = 0x01 then 3
  else if code = 0x02 then 5
  else if code = 0x03 then 6
  else if code = 0x06 then 9
  else if code = 0x07 then 2
  else if code = 0x08 then 2
  else 1

/-- The stream and the bytes of the instruction that a table word stands for. The table's rows of different streams share
one numbering, so a word must be given a stream: a word as long as a data transaction is one; else a first byte of the
closed command set is a command; else it is a host request (DESIGN CHOICE, log entry 7). -/
def tableBytes (nbits w : Nat) : Stream × List Byte :=
  let word := w % 2 ^ nbits
  if isDataLength (nbits / 8 - 1) = true ∧ nbits % 8 = 0 then (.data, bytesOfNat (nbits / 8) word)
  else
    let first := BitVec.ofNat 8 word
    match commandArgc first with
    | some n => (.command, bytesOfNat (n + 1) word)
    | none => (.host, bytesOfNat (requestLength first) word)

/-- The instruction the decoder reads from a word of the opcode table. -/
def decodeTableWord (nbits w : Nat) : Option Instr :=
  (decode (tableBytes nbits w).1 (tableBytes nbits w).2).toOption

end Sys2Proof
end

