-- ==== Sys2Proof/Machine/State.lean ====
section
/-! DEFINITION. The state of FBSEQ as plain data: every element of 10_state.md R20, the request in progress, and the ports;
the reasons a step can stop; and the state after reset (R33, R180). -/

namespace Sys2Proof.Machine

/-- The lifecycle state `life` (10_state.md R22): Uninitialized = 0, Active = 1, Inactive = 2, Disposed = 3. -/
inductive Life where
  | uninitialized
  | active
  | inactive
  | disposed
deriving DecidableEq, Repr

/-- Bytes by address, addresses strictly rising, no byte 0x00 listed: an unlisted address reads 0x00. The framebuffer is
held so: address k holds the linear bits 8k to 8k+7 (20_memory.md R43). -/
abbrev Memory := List Host.Cell

/-- The error statuses of a response (60_exceptions.md R160), 0x01 to 0x06. -/
inductive Error where
  | configError
  | invalidArgument
  | outOfRange
  | ioError
  | usageError
  | illegalRequest
deriving DecidableEq, Repr

/-- A response (30_encoding.md R72): OK with the request's data, or "the status byte alone". -/
inductive Response where
  | ok (data : List Byte)
  | error (e : Error)
deriving DecidableEq, Repr

/-- A surface pixel, three 8-bit values (20_memory.md R47). -/
structure Rgb where
  r : Byte
  g : Byte
  b : Byte
deriving DecidableEq, Repr

/-- An attached surface (20_memory.md R47): SW, SH, and its pixels by index sy * SW + sx; an unlisted pixel is black, and of two
pixels with one index the first counts. -/
structure Surface where
  sw : Nat
  sh : Nat
  pixels : List (Nat × Rgb)
deriving DecidableEq, Repr

/-- What happens at the host port and the surface port, in order. -/
inductive HostEvent where
  /-- The host presents a whole request (30_encoding.md R68). -/
  | request (bytes : List Byte)
  /-- The reset input is asserted (70_reset_and_hazards.md R180), whatever the block is doing. -/
  | reset
  /-- The reset input is asserted after the last transaction of the request in progress is answered and before its response
  (R180, "any request in progress"; R28, `busy` is 1 until the response is given). With no request in progress it is a reset. -/
  | resetAtResponse
  /-- The surface port changes, between two LOADs (20_memory.md R47): a surface, or none (`present` = 0). -/
  | surface (f : Option Surface)
deriving DecidableEq, Repr

/-- The transport's answer to one transaction: "exactly one of `ack` or `fail`" (20_memory.md R48), or it "never answers"
(R50). -/
inductive Answer where
  | ack
  | fail
  | never
deriving DecidableEq, Repr

/-- A transaction (20_memory.md R48): "Txn = (addr : 7 bits, ctrl : 8 bits, payload : list of bytes)". -/
structure Txn where
  addr : BusAddr
  ctrl : Byte
  payload : List Byte
deriving DecidableEq, Repr

/-- An entry of the bus log (20_memory.md R49): a presented transaction that has been answered, and how. -/
structure BusEvent where
  txn : Txn
  acked : Bool
deriving DecidableEq, Repr

/-- One step of a sequence before framing: the bytes of a command (control byte 0x00), or the data bytes of the data
transaction (control byte 0x40) (30_encoding.md R64). -/
structure SeqStep where
  ctrl : Byte
  bytes : List Byte
deriving DecidableEq, Repr

/-- The request in progress, for the requests that emit transactions (20_memory.md R53). -/
inductive Job where
  | construct
  | setActive (b : Bool)
  | setContrast (c : Byte)
  | render
  | dispose
deriving DecidableEq, Repr

/-- The registers that can hold no value (10_state.md R33). -/
inductive Reg where
  | model
  | power
  | busAddr
  | contrast
  | fb
deriving DecidableEq, Repr

/-- Why the machine stops with a fault. -/
inductive Fault where
  /-- A read of a register that holds no value: "A model must treat a read of them as a fault" (10_state.md R24), "a model must
  fault on a read" (R33), "fault on read" (93_implementation_defined.md U3). Raised by the requests and emissions that read `r`;
  no state that meets R32 reaches it. Safe. -/
  | noValue (r : Reg)
deriving DecidableEq, Repr

/-- Why a step has no meaning. -/
inductive Refusal where
  /-- An instruction that has no meaning yet. Raised by no arm of this model. Safe. -/
  | notModelled (mnemonic : String)
  /-- A request presented while `busy` = 1: "a host that presents a request while `busy` = 1 has no move"
  (70_reset_and_hazards.md R183). Raised by every request's meaning; `step` never does it. Safe. -/
  | hostPortBusy
  /-- Bytes at the host port that are no request: it "cannot be presented" (30_encoding.md R68). Raised by `step`. Safe. -/
  | notARequest (r : Reject)
  /-- Bytes in the sequencer that are no command of the closed set and no data transaction (30_encoding.md R66). Raised by
  `step`. Safe. -/
  | notACommand (r : Reject)
deriving DecidableEq, Repr

/-- The state. The first ten fields are 10_state.md R20, where `none` is the "no value" of R33. -/
structure State where
  /-- `life` (R22). -/
  life : Life
  /-- `initFailed` (R23). -/
  initFailed : Bool
  /-- `MODEL` (R24). -/
  model : Option DisplayModel
  /-- `POWER` (R24). -/
  power : Option PowerMode
  /-- `BUSADDR` (R24). -/
  busAddr : Option BusAddr
  /-- `contrast` (R25). -/
  contrast : Option Byte
  /-- `FB` (R29); `none` is "not allocated". -/
  fb : Option Memory
  /-- `seqPC` (R27). -/
  seqPC : BitVec 5
  /-- `busy` (R28). -/
  busy : Bool
  /-- `txOpen` (R30). -/
  txOpen : Bool
  /-- The request in progress. -/
  job : Option Job
  /-- Its sequence steps not yet begun. -/
  script : List SeqStep
  /-- The unanswered transactions of its present step; the first is on the transport port. -/
  inFlight : List Txn
  /-- What happens next at the host port and the surface port. -/
  hostIn : List HostEvent
  /-- The responses given, oldest first. -/
  responses : List Response
  /-- The transport's answers to come; after the last it answers nothing. -/
  transportIn : List Answer
  /-- The bus log, oldest first. -/
  busLog : List BusEvent
  /-- The surface port; `none` is `present` = 0. -/
  surface : Option Surface
  /-- P_CMD_FRAMING; nothing writes it. -/
  framing : Framing
  /-- The model's own counter of free draws. -/
  draws : Nat
deriving DecidableEq, Repr

/-- After block reset (10_state.md R33, 70_reset_and_hazards.md R180), with nothing at the ports. -/
def State.reset : State where
  life := .uninitialized
  initFailed := false
  model := none
  power := none
  busAddr := none
  contrast := none
  fb := none
  seqPC := 0
  busy := false
  txOpen := false
  job := none
  script := []
  inFlight := []
  hostIn := []
  responses := []
  transportIn := []
  busLog := []
  surface := none
  framing := .perByte
  draws := 0

end Sys2Proof.Machine
end

