-- ==== Sys2Proof/Machine/Operands.lean ====
section
/-! DEFINITION. Operand forms: the constants and geometry of a model (00_scope.md R5, R6), the default contrast
(10_state.md R26), coordinates and the translator (20_memory.md R41, R42), LOAD's window, threshold and surface reads
(20_memory.md R47, 40_framebuffer.md R85, R86), and the bytes of commands, data and responses. -/

namespace Sys2Proof.Machine

/-! ### Model constants and geometry -/

/-- The 2-bit model code (00_scope.md R5); code 3 is not a recognized model. -/
def modelOfCode (code : BitVec 2) : Option DisplayModel :=
  if code = 0 then some .m128x64
  else if code = 1 then some .m128x32
  else if code = 2 then some .m96x16
  else none

/-- W, the pixel width (R5). -/
def width : DisplayModel → Nat
  | .m128x64 => 128
  | .m128x32 => 128
  | .m96x16 => 96

/-- H, the pixel height (R5). -/
def height : DisplayModel → Nat
  | .m128x64 => 64
  | .m128x32 => 32
  | .m96x16 => 16

/-- CLK, the clock-divider byte (R5). -/
def clockByte : DisplayModel → Byte
  | .m128x64 => 0x80
  | .m128x32 => 0x80
  | .m96x16 => 0x60

/-- MUX, the multiplexer-ratio byte (R5). -/
def muxByte : DisplayModel → Byte
  | .m128x64 => 0x3F
  | .m128x32 => 0x1F
  | .m96x16 => 0x0F

/-- COM, the COM-pin-configuration byte (R5). -/
def comByte : DisplayModel → Byte
  | .m128x64 => 0x12
  | .m128x32 => 0x02
  | .m96x16 => 0x02

/-- P (pageCount) = H / 8 (00_scope.md R6). -/
def pageCount (m : DisplayModel) : Nat := height m / 8

/-- NBITS = W × H (R6). -/
def nbits (m : DisplayModel) : Nat := width m * height m

/-- N, the data bytes = W × H / 8 (R6). -/
def dataLength (m : DisplayModel) : Nat := width m * height m / 8

/-- BITS_PER_PAGE = 8 × W (R6). -/
def bitsPerPage (m : DisplayModel) : Nat := 8 * width m

/-- DEFCON(MODEL, POWER), the default contrast (10_state.md R26). -/
def defaultContrast : DisplayModel → PowerMode → Byte
  | .m128x64, .external => 0x9F
  | .m128x64, .switching => 0xCF
  | .m128x32, _ => 0x8F
  | .m96x16, _ => 0x8F

/-- The charge-pump argument: 0x10 if External, 0x14 if Switching (41_sequencer.md R102 step 5). -/
def chargePumpByte : PowerMode → Byte
  | .external => 0x10
  | .switching => 0x14

/-- The precharge argument: 0x22 if External, 0xF1 if Switching (R102 step 11). -/
def prechargeByte : PowerMode → Byte
  | .external => 0x22
  | .switching => 0xF1

/-! ### Pixel coordinates and the translator -/

/-- "0 <= x < W and 0 <= y < H" (40_framebuffer.md R81), x and y read as signed numbers (30_encoding.md R70). -/
def inBounds (m : DisplayModel) (x y : Half) : Bool :=
  decide (0 ≤ x.toInt) && decide (x.toInt < width m) && decide (0 ≤ y.toInt) && decide (y.toInt < height m)

/-- `xlate(x, y) = page(y) * BITS_PER_PAGE + x * 8 + (y mod 8)` (20_memory.md R41), for valid coordinates. -/
def xlate (m : DisplayModel) (x y : Nat) : Nat :=
  y / 8 * bitsPerPage m + x * 8 + y % 8

/-- The x of linear index i, the inverse of `xlate` (20_memory.md R42). -/
def pixelX (m : DisplayModel) (i : Nat) : Nat := i % bitsPerPage m / 8

/-- The y of linear index i (R42). -/
def pixelY (m : DisplayModel) (i : Nat) : Nat := 8 * (i / bitsPerPage m) + i % 8

/-- The framebuffer index of a request's coordinates, once they are in bounds. -/
def pixelIndex (m : DisplayModel) (x y : Half) : Nat := xlate m x.toInt.toNat y.toInt.toNat

/-! ### LOAD -/

/-- Pure black, (0, 0, 0) (40_framebuffer.md R86). -/
def black : Rgb := ⟨0, 0, 0⟩

/-- `SurfRead(sx, sy)` (20_memory.md R47). -/
def surfRead (f : Surface) (sx sy : Nat) : Rgb :=
  ((f.pixels.find? fun p => p.1 == sy * f.sw + sx).map (·.2)).getD black

/-- The window of LOAD does not lie inside the surface (40_framebuffer.md R85):
"ox < 0 or oy < 0 or ox + W > SW or oy + H > SH". -/
def windowOutside (m : DisplayModel) (f : Surface) (ox oy : Half) : Bool :=
  decide (ox.toInt < 0) || decide (oy.toInt < 0) || decide (ox.toInt + width m > f.sw) || decide (oy.toInt + height m > f.sh)

/-- max(R, G, B) (R86). -/
def brightest (p : Rgb) : Nat := max p.r.toNat (max p.g.toNat p.b.toNat)

/-- The lighting function `Lit` (40_framebuffer.md R86): black never lights; else `m * den >= 255 * num`, exact. -/
def lit (p : Rgb) (num den : Half) : Bool :=
  if p = black then false else decide ((brightest p : Int) * den.toNat ≥ 255 * num.toInt)

/-- The bit LOAD gives linear index i: the window pixel that `xlate` maps there, lit or not (R85). -/
def loadBit (m : DisplayModel) (f : Surface) (ox oy num den : Half) (i : Nat) : Bool :=
  lit (surfRead f (ox.toInt.toNat + pixelX m i) (oy.toInt.toNat + pixelY m i)) num den

/-! ### Sequence steps -/

/-- A command step: its bytes go out with control byte 0x00 (30_encoding.md R64). -/
def commandStep (bytes : List Byte) : SeqStep := ⟨0x00, bytes⟩

/-- The data step: "exactly (BUSADDR, 0x40, [PB[1], ..., PB[N]])" (30_encoding.md R64). -/
def dataStep (data : List Byte) : SeqStep := ⟨0x40, data⟩

/-- The transactions of a step (30_encoding.md R64): a command gives one per byte under PerByte and one in all under
PerCommand; the data transaction is always one. -/
def transactions (f : Framing) (addr : BusAddr) (st : SeqStep) : List Txn :=
  if st.ctrl = 0x00 ∧ f = .perByte then st.bytes.map fun b => ⟨addr, 0x00, [b]⟩
  else [⟨addr, st.ctrl, st.bytes⟩]

/-- The initialization sequence InitSeq, steps 0 to 14, and the TurnOn of step 15 (41_sequencer.md R102). -/
def initSequence (m : DisplayModel) (p : PowerMode) : List SeqStep :=
  [ commandStep [0xAE], commandStep [0xD5, clockByte m], commandStep [0xA8, muxByte m], commandStep [0xD3, 0x00],
    commandStep [0x40], commandStep [0x8D, chargePumpByte p], commandStep [0x20, Config.memoryModeArg],
    commandStep [0xA1], commandStep [0xC8], commandStep [0xDA, comByte m] ] ++
  [ commandStep [0x81, defaultContrast m p], commandStep [0xD9, prechargeByte p], commandStep [0xDB, 0x40],
    commandStep [0xA4], commandStep [0xA6], commandStep [0xAF] ]

/-- RENDER's three steps (41_sequencer.md R106): columns 0 to W-1, pages 0 to P-1, then the data. -/
def renderSequence (m : DisplayModel) (data : List Byte) : List SeqStep :=
  [ commandStep [0x21, 0x00, BitVec.ofNat 8 (width m - 1)], commandStep [0x22, 0x00, BitVec.ofNat 8 (pageCount m - 1)],
    dataStep data ]

/-! ### Response data -/

/-- A bit as a response byte, 0x00 or 0x01 (30_encoding.md R72). -/
def bitByte (b : Bool) : Byte := if b then 0x01 else 0x00

/-- W, H, P as response bytes (41_sequencer.md R110). -/
def geometryBytes (m : DisplayModel) : List Byte :=
  [BitVec.ofNat 8 (width m), BitVec.ofNat 8 (height m), BitVec.ofNat 8 (pageCount m)]

end Sys2Proof.Machine
end

