-- ==== Sys2Proof/Machine/Flags.lean ====
section
/-! DEFINITION. FBSEQ "has no condition codes and no status flags" (10_state.md R31): no request computes a flag. A request
reports its outcome as a status code, and the lifecycle state decides which requests are admitted. Here are the status
codes (60_exceptions.md R160), the response bytes (30_encoding.md R72) and the admission conditions (60_exceptions.md R165). -/

namespace Sys2Proof.Machine

/-- The status code of an error (60_exceptions.md R160). -/
def errorCode : Error → Byte
  | .configError => 0x01
  | .invalidArgument => 0x02
  | .outOfRange => 0x03
  | .ioError => 0x04
  | .usageError => 0x05
  | .illegalRequest => 0x06

/-- The bytes of a response: the status byte, "followed, only when s = OK (0x00), by the request's data" (30_encoding.md R72). -/
def responseBytes : Response → List Byte
  | .ok data => 0x00 :: data
  | .error e => [errorCode e]

/-- The gate of every request but CONSTRUCT, DISPOSE and an illegal code: `life` ∈ {Active, Inactive} (40_framebuffer.md R80,
60_exceptions.md R165). -/
def constructed (s : State) : Bool := s.life == .active || s.life == .inactive

/-- CONSTRUCT's gate: a fresh instance (41_sequencer.md R101). -/
def fresh (s : State) : Bool := s.life == .uninitialized && !s.initFailed

end Sys2Proof.Machine
end

