-- ==== Sys2Proof/Machine/Ops.lean ====
section
/-! DEFINITION. The shared operations: the framebuffer's memory, its packing, the response that ends a request (an error is
a response: 60_exceptions.md R169), the transport port, the sequencer's step, the ends of a sequence,
block reset, and the reading of the bus log. -/

namespace Sys2Proof.Machine

/-! ### Memory -/

/-- The canonical form: addresses strictly rising, no byte 0x00 listed. -/
def memoryWfFrom : Nat → Memory → Bool
  | _, [] => true
  | low, (a, b) :: rest => decide (low ≤ a) && b != 0 && memoryWfFrom (a + 1) rest

/-- The canonical form of a memory. -/
def Memory.wf (m : Memory) : Bool := memoryWfFrom 0 m

/-- The byte at an address; an unlisted address reads 0x00. -/
def readByte : Memory → Nat → Byte
  | [], _ => 0
  | (b, v) :: rest, a => if a = b then v else readByte rest a

/-- A listed byte put in front, unless it is the byte an unlisted address reads as. -/
def consByte (a : Nat) (v : Byte) (m : Memory) : Memory := if v = 0 then m else (a, v) :: m

/-- Write a byte, keeping the canonical form. -/
def writeByte : Memory → Nat → Byte → Memory
  | [], a, v => consByte a v []
  | (b, w) :: rest, a, v =>
    if a < b then consByte a v ((b, w) :: rest)
    else if a = b then consByte a v rest
    else (b, w) :: writeByte rest a v

/-- A byte from its bits: the sum over j in 0..7 of bit j << j (20_memory.md R43). -/
def byteOfBits (f : Nat → Bool) : Byte :=
  BitVec.ofNat 8 ((f 0).toNat + (f 1).toNat * 2 + (f 2).toNat * 4 + (f 3).toNat * 8 + (f 4).toNat * 16 +
    (f 5).toNat * 32 + (f 6).toNat * 64 + (f 7).toNat * 128)

/-- `FB[i]` (00_scope.md R11): bit i mod 8 of the byte i div 8. -/
def readBit (m : Memory) (i : Nat) : Bool := (readByte m (i / 8)).getLsbD (i % 8)

/-- `FB[i] <- v` (00_scope.md R11). -/
def writeBit (m : Memory) (i : Nat) (v : Bool) : Memory :=
  writeByte m (i / 8) (byteOfBits fun j => if j = i % 8 then v else (readByte m (i / 8)).getLsbD j)

/-- The memory of the bytes n - k to n - 1 whose linear bits are given. -/
def bitsFrom (f : Nat → Bool) (n : Nat) : Nat → Memory
  | 0 => []
  | k + 1 => consByte (n - (k + 1)) (byteOfBits fun j => f (8 * (n - (k + 1)) + j)) (bitsFrom f n k)

/-- The memory of n bytes whose linear bit i is f i: every bit written once, in any order (20_memory.md R59). -/
def memoryOfBits (n : Nat) (f : Nat → Bool) : Memory := bitsFrom f n n

/-- A framebuffer with every bit 0. -/
def clearMemory : Memory := []

/-- `DATA[k]`, the sum over j in 0..7 of FB[8k + j] << j (20_memory.md R43). -/
def dataByte (m : Memory) (k : Nat) : Byte := byteOfBits fun j => readBit m (8 * k + j)

/-- The packed image PB: PB[0] = 0x40, PB[1 + k] = DATA[k] (20_memory.md R44). -/
def packedImage (d : DisplayModel) (m : Memory) : List Byte := 0x40 :: (List.range (dataLength d)).map (dataByte m)

/-- `MemRead(k, n)`, the list PB[k], ..., PB[k+n-1] (00_scope.md R11). -/
def memRead (d : DisplayModel) (m : Memory) (k n : Nat) : List Byte := ((packedImage d m).drop k).take n

/-! ### Beginning and ending a request -/

/-- Continue after a next state. -/
def andThen (o : Host.Outcome State Fault Refusal) (f : State → Host.Outcome State Fault Refusal) :
    Host.Outcome State Fault Refusal :=
  match o with
  | .next s => f s
  | .fault r => .fault r
  | .refused r => .refused r

/-- The state in which a request has been accepted: `busy` is 1 "from the moment a request is accepted" and `seqPC <- 0` at its
start (10_state.md R27, R28). -/
def accepted (s : State) : State := { s with busy := true, seqPC := 0 }

/-- Accept a request; one presented while busy has no move (70_reset_and_hazards.md R183). -/
def accept (s : State) (body : State → Host.Outcome State Fault Refusal) : Host.Outcome State Fault Refusal :=
  if s.busy then .refused .hostPortBusy else body (accepted s)

/-- No request in progress: `busy` = 0 and `seqPC` = 0 (10_state.md R27, R28). -/
def toIdle (s : State) : State :=
  { s with busy := false, seqPC := 0, job := none, script := [], inFlight := [] }

/-- Give a response. It leaves the block ready for the next request (60_exceptions.md R170): no other return exists. -/
def giveResponse (r : Response) (s : State) : State :=
  toIdle { s with responses := s.responses ++ [r] }

/-- `respond(data)` (00_scope.md R13): end the request with status OK. -/
def respond (data : List Byte) (s : State) : Host.Outcome State Fault Refusal := .next (giveResponse (.ok data) s)

/-- `raise E` (00_scope.md R13, 60_exceptions.md R169): end the request at once with status E. No handler, vector or saved
state exists; the state writes made before stand. -/
def raise (e : Error) (s : State) : Host.Outcome State Fault Refusal := .next (giveResponse (.error e) s)

/-- `Gate()` (40_framebuffer.md R80): UsageError unless `life` ∈ {Active, Inactive}. -/
def gate (s : State) (body : State → Host.Outcome State Fault Refusal) : Host.Outcome State Fault Refusal :=
  if constructed s then body s else raise .usageError s

/-- Read a register that can hold no value: "A model must treat a read of them as a fault" (10_state.md R24); "No value" means
"that a model must fault on a read" (R33); "fault on read; no request reaches such a read" (93_implementation_defined.md U3). -/
def withValue {α : Type} (r : Reg) (value : Option α) (body : α → Host.Outcome State Fault Refusal) :
    Host.Outcome State Fault Refusal :=
  match value with
  | some v => body v
  | none => .fault (.noValue r)

/-- Read MODEL (10_state.md R24). -/
def withModel (s : State) (body : DisplayModel → Host.Outcome State Fault Refusal) : Host.Outcome State Fault Refusal :=
  withValue .model s.model body

/-- Read POWER (10_state.md R24). -/
def withPower (s : State) (body : PowerMode → Host.Outcome State Fault Refusal) : Host.Outcome State Fault Refusal :=
  withValue .power s.power body

/-- Read BUSADDR (10_state.md R24). -/
def withBusAddr (s : State) (body : BusAddr → Host.Outcome State Fault Refusal) : Host.Outcome State Fault Refusal :=
  withValue .busAddr s.busAddr body

/-- Read `contrast` (10_state.md R25, R33). -/
def withContrast (s : State) (body : Byte → Host.Outcome State Fault Refusal) : Host.Outcome State Fault Refusal :=
  withValue .contrast s.contrast body

/-- Use FB as it is; "FB has no value before allocation" (10_state.md R29). -/
def withFb (s : State) (body : Memory → Host.Outcome State Fault Refusal) : Host.Outcome State Fault Refusal :=
  withValue .fb s.fb body

/-! ### The transport port -/

/-- How presenting a list of transactions ended. -/
inductive Sent where
  | acked (s : State)
  | failed (s : State)
  | waiting (s : State)
deriving DecidableEq, Repr

/-- Present transactions in order, each after the one before is answered (20_memory.md R49). An answered one enters the bus
log; the first `fail` ends the list, "the remaining Tx calls ... are then not made" (00_scope.md R12). Without an answer the block
waits, busy, with that transaction on the port (20_memory.md R50). -/
def present : List Txn → State → Sent
  | [], s => .acked { s with inFlight := [] }
  | t :: ts, s =>
    match s.transportIn with
    | .ack :: rest => present ts { s with transportIn := rest, busLog := s.busLog ++ [⟨t, true⟩] }
    | .fail :: rest => .failed { s with transportIn := rest, busLog := s.busLog ++ [⟨t, false⟩] }
    | .never :: _ => .waiting { s with busy := true, inFlight := t :: ts }
    | [] => .waiting { s with busy := true, inFlight := t :: ts }

/-! ### The sequencer -/

/-- What a request in progress writes once the present step is acknowledged, before `seqPC` counts it: CONSTRUCT writes
`contrast` after step 10, Inactive after step 14 and Active after step 15 (41_sequencer.md R101); SETACTIVE writes `life`
(R104); SETCONTRAST writes `contrast` (R105); DISPOSE passes through Inactive (10_state.md R22). -/
def afterAck (s : State) : Host.Outcome State Fault Refusal :=
  match s.job with
  | some .construct =>
    if s.seqPC = 10 then withModel s fun d => withPower s fun p => .next { s with contrast := some (defaultContrast d p) }
    else if s.seqPC = 14 then .next { s with life := .inactive }
    else if s.seqPC = 15 then .next { s with life := .active }
    else .next s
  | some (.setActive b) => .next { s with life := if b then .active else .inactive }
  | some (.setContrast c) => .next { s with contrast := some c }
  | some .dispose => .next { s with life := .inactive }
  | some .render => .next s
  | none => .next s

/-- `seqPC <- seqPC + 1` "After each SendCmd or data Tx of the request completes" (10_state.md R27). -/
def countStep (s : State) : State := { s with seqPC := s.seqPC + 1 }

/-- The end of a sequence whose every transaction is acknowledged: `respond()`; DISPOSE first writes Disposed and releases the
transport handle (41_sequencer.md R107). With no request in progress no response is due. -/
def sequenceDone (s : State) : State :=
  match s.job with
  | some .dispose => giveResponse (.ok []) { s with life := .disposed, txOpen := false }
  | some .construct => giveResponse (.ok []) s
  | some (.setActive _) => giveResponse (.ok []) s
  | some (.setContrast _) => giveResponse (.ok []) s
  | some .render => giveResponse (.ok []) s
  | none => toIdle s

/-- FB with unspecified bits, or with no value (41_sequencer.md R101, log entry 2). -/
def unspecifiedFb (n : Nat) : Option Memory :=
  if Config.unspecifiedAllocated n then some (memoryOfBits 1024 (Config.unspecifiedBit n)) else none

/-- A failed CONSTRUCT: `initFailed <- 1`, `txOpen <- 0`, `life <- Uninitialized`; MODEL, POWER, BUSADDR, `contrast` and FB are
unspecified (41_sequencer.md R101, 60_exceptions.md R166). -/
def constructFailed (s : State) : State :=
  { s with
    life := .uninitialized
    initFailed := true
    txOpen := false
    model := Config.unspecifiedModel s.draws
    power := Config.unspecifiedPower s.draws
    busAddr := Config.unspecifiedBusAddr s.draws
    contrast := Config.unspecifiedContrast s.draws
    fb := unspecifiedFb s.draws
    draws := s.draws + 1 }

/-- The end of a sequence at its first failed transaction: IoError, with the block state of 60_exceptions.md R166. With no
request in progress no response is due. -/
def sequenceFailed (s : State) : State :=
  match s.job with
  | some .construct => giveResponse (.error .ioError) (constructFailed s)
  | some .dispose => giveResponse (.error .ioError) { s with life := .disposed, txOpen := false }
  | some (.setActive _) => giveResponse (.error .ioError) s
  | some (.setContrast _) => giveResponse (.error .ioError) s
  | some .render => giveResponse (.error .ioError) s
  | none => toIdle s

/-- After a step's acknowledgement: its register write, its count, and the end of the sequence if no step is left. -/
def stepAcked (s : State) : Host.Outcome State Fault Refusal :=
  andThen (afterAck s) fun t => .next (if t.script.isEmpty then sequenceDone (countStep t) else countStep t)

/-- Present the transactions of one step and act on how that ended. "While `txOpen` = 0 the block emits no transaction"
(10_state.md R30). -/
def transmit (txns : List Txn) (s : State) : Host.Outcome State Fault Refusal :=
  if s.txOpen then
    match present txns s with
    | .acked t => stepAcked t
    | .failed t => .next (sequenceFailed t)
    | .waiting t => .next t
  else .next s

/-- `SendCmd(op, args)`, or the data `Tx`, as the present step of the sequencer (00_scope.md R12, 41_sequencer.md R100): to
BUSADDR, under P_CMD_FRAMING. -/
def emit (st : SeqStep) (s : State) : Host.Outcome State Fault Refusal :=
  if s.txOpen then withBusAddr s fun a => transmit (transactions s.framing a st) s else .next s

/-- Emit steps in order while the request is in progress and no transaction waits (41_sequencer.md R100). -/
def runScript : List SeqStep → State → Host.Outcome State Fault Refusal
  | [], s => .next s
  | st :: rest, s =>
    andThen (emit st { s with script := rest }) fun t =>
      if t.busy && t.inFlight.isEmpty then runScript rest t else .next t

/-- Begin a request's sequence: its expansion (30_encoding.md R75), run as far as the transport answers. -/
def runJob (job : Job) (steps : List SeqStep) (s : State) : Host.Outcome State Fault Refusal :=
  runScript steps { s with job := some job, script := steps, inFlight := [] }

/-- A waiting request goes on with the transactions still unanswered. -/
def resume (s : State) : Host.Outcome State Fault Refusal := transmit s.inFlight s

/-! ### Block reset -/

/-- The transport's answers after a reset: a transaction that is never answered is abandoned with its request
(70_reset_and_hazards.md R180). -/
def abandonWaiting (s : State) : List Answer :=
  match s.inFlight, s.transportIn with
  | _ :: _, .never :: rest => rest
  | _, answers => answers

/-- Block reset (70_reset_and_hazards.md R180): the request in progress is abandoned without a response and every element takes
its value of 10_state.md R33. The bus log and the ports stay; nothing is emitted. -/
def blockReset (s : State) : State :=
  { s with
    life := .uninitialized
    initFailed := false
    model := none
    power := none
    busAddr := none
    contrast := none
    fb := none
    seqPC := 0
    busy := false
    txOpen := false
    job := none
    script := []
    inFlight := []
    transportIn := abandonWaiting s }

/-- A reset asserted before the response of a request in progress: the request's answered transactions stay in the bus log, its
response is not given, and every element takes its reset value (70_reset_and_hazards.md R180). `before` is the state in which the
step that would give the response began, `after` the one it would leave. -/
def withholdResponse (before after : State) : State := blockReset { after with responses := before.responses }

/-! ### Reading the bus log -/

/-- The command stream of a bus log (30_encoding.md R65): the payload bytes of the command transactions delivered, in order. "Data
transactions (control 0x40) do not take part", and a failed transaction is "not delivered" (20_memory.md R48). -/
def commandStream (log : List BusEvent) : List Byte :=
  (log.filter fun e => e.acked && e.txn.ctrl == 0x00).flatMap fun e => e.txn.payload

/-- What a reader of the bus log has read (30_encoding.md R65, 60_exceptions.md R166). DESIGN CHOICE (log entry 18): the reader
knows of no reset, so where a block reset (70_reset_and_hazards.md R180) cut a command under PerByte it stays inside that command
and takes the next command-stream bytes as its arguments; the spec does not say where the parse then stands. -/
def readBusLog (log : List BusEvent) : Reader := readCommands (commandStream log)

end Sys2Proof.Machine
end

