-- ==== Sys2Proof/Machine/Framebuffer.lean ====
section
/-! DEFINITION. The framebuffer requests GETPX, SETPX, CLEAR, PACK and LOAD (40_framebuffer.md R80 to R86). None of them
emits a transaction (20_memory.md R53). -/

namespace Sys2Proof.Machine

/-- GETPX (40_framebuffer.md R81). -/
def execGetpx (x y : Half) (s : State) : Host.Outcome State Fault Refusal :=
  accept s fun s => gate s fun s =>
    withModel s fun d =>
      if inBounds d x y then withFb s fun m => respond [bitByte (readBit m (pixelIndex d x y))] s
      else raise .outOfRange s

/-- SETPX (40_framebuffer.md R82). -/
def execSetpx (x y : Half) (v : Bool) (s : State) : Host.Outcome State Fault Refusal :=
  accept s fun s => gate s fun s =>
    withModel s fun d =>
      if inBounds d x y then withFb s fun m => respond [] { s with fb := some (writeBit m (pixelIndex d x y) v) }
      else raise .outOfRange s

/-- CLEAR (40_framebuffer.md R83): every one of the NBITS bits 0. It writes FB and reads no bit of it. -/
def execClear (s : State) : Host.Outcome State Fault Refusal :=
  accept s fun s => gate s fun s =>
    respond [] { s with fb := some clearMemory }

/-- PACK (40_framebuffer.md R84): `respond(MemRead(0, PACKLEN))`. -/
def execPack (s : State) : Host.Outcome State Fault Refusal :=
  accept s fun s => gate s fun s =>
    withModel s fun d => withFb s fun m => respond (memRead d m 0 (1 + dataLength d)) s

/-- LOAD (40_framebuffer.md R85): the surface is checked, then den, then the window; then every bit is written from its source
pixel, in one atomic step (20_memory.md R59). No bit of FB is read. -/
def execLoad (ox oy num den : Half) (s : State) : Host.Outcome State Fault Refusal :=
  accept s fun s => gate s fun s =>
    match s.surface with
    | none => raise .invalidArgument s
    | some f =>
      if den = 0 then raise .invalidArgument s
      else withModel s fun d =>
        if windowOutside d f ox oy then raise .outOfRange s
        else respond [] { s with fb := some (memoryOfBits (dataLength d) (loadBit d f ox oy num den)) }

end Sys2Proof.Machine
end

