-- ==== Sys2Proof/Machine/Lifecycle.lean ====
section
/-! DEFINITION. The lifecycle and sequencer requests CONSTRUCT, SETACTIVE, SETCONTRAST, RENDER and DISPOSE, the accessors
(41_sequencer.md R100 to R110), and the illegal request (60_exceptions.md R167). -/

namespace Sys2Proof.Machine

/-- CONSTRUCT (41_sequencer.md R101): UsageError, then ConfigError, then InvalidArgument; then the configuration is latched, the
transport handle taken, FB allocated with every bit 0, and the initialization sequence run. -/
def execConstruct (model : BitVec 2) (power : PowerMode) (tp : Bool) (addr : BusAddr) (s : State) :
    Host.Outcome State Fault Refusal :=
  accept s fun s =>
    if fresh s then
      match modelOfCode model with
      | none => raise .configError s
      | some d =>
        if tp then
          runJob .construct (initSequence d power)
            { s with model := some d, power := some power, busAddr := some addr, txOpen := true, fb := some clearMemory }
        else raise .invalidArgument s
    else raise .usageError s

/-- SETACTIVE (41_sequencer.md R104): TurnOn or TurnOff, then `life`. -/
def execSetactive (b : Bool) (s : State) : Host.Outcome State Fault Refusal :=
  accept s fun s => gate s fun s =>
    runJob (.setActive b) [commandStep [if b then 0xAF else 0xAE]] s

/-- SETCONTRAST (41_sequencer.md R105): SetContrast c, then `contrast`. -/
def execSetcontrast (c : Byte) (s : State) : Host.Outcome State Fault Refusal :=
  accept s fun s => gate s fun s =>
    runJob (.setContrast c) [commandStep [0x81, c]] s

/-- RENDER (41_sequencer.md R106): the column range, the page range, then MemRead(1, N) as one data transaction. -/
def execRender (s : State) : Host.Outcome State Fault Refusal :=
  accept s fun s => gate s fun s =>
    withModel s fun d => withFb s fun m =>
      runJob .render (renderSequence d (memRead d m 1 (dataLength d))) s

/-- DISPOSE (41_sequencer.md R107): idempotent once disposed, UsageError before construction, else TurnOff and the release. -/
def execDispose (s : State) : Host.Outcome State Fault Refusal :=
  accept s fun s =>
    match s.life with
    | .disposed => respond [] s
    | .uninitialized => raise .usageError s
    | .active => runJob .dispose [commandStep [0xAE]] s
    | .inactive => runJob .dispose [commandStep [0xAE]] s

/-- GETCONTRAST (41_sequencer.md R108). -/
def execGetcontrast (s : State) : Host.Outcome State Fault Refusal :=
  accept s fun s => gate s fun s => withContrast s fun c => respond [c] s

/-- GETACTIVE (41_sequencer.md R109): 0x01 if `life` = Active, else 0x00. -/
def execGetactive (s : State) : Host.Outcome State Fault Refusal :=
  accept s fun s => gate s fun s => respond [bitByte (s.life == .active)] s

/-- GETGEOM (41_sequencer.md R110): W, H, P. -/
def execGetgeom (s : State) : Host.Outcome State Fault Refusal :=
  accept s fun s => gate s fun s => withModel s fun d => respond (geometryBytes d) s

/-- A request code outside 0x01 to 0x0D (60_exceptions.md R167): IllegalRequest "in every lifecycle state", whatever the code. -/
def execIllegal (_code : Byte) (s : State) : Host.Outcome State Fault Refusal :=
  accept s fun s => raise .illegalRequest s

end Sys2Proof.Machine
end

