-- ==== Sys2Proof/Machine/Wire.lean ====
section
/-! DEFINITION. The SSD1306 wire commands (42_wire_commands.md R130 to R153) and the display-data transaction (R106). FBSEQ
"does not execute these commands: it emits them", and what the controller does with one is outside the spec (R4). So the
meaning of a command is its emission as the present step of the sequencer, `SendCmd(op, args)`: its transactions, the register
the request in progress writes on its acknowledgement, and IoError on a failed one. -/

namespace Sys2Proof.Machine

/-- SetContrast (42_wire_commands.md R130), the step of CONSTRUCT step 10 and SETCONTRAST. -/
def execSetContrast (a1 : Byte) (s : State) : Host.Outcome State Fault Refusal :=
  emit (commandStep [0x81, a1]) s

/-- Resume (42_wire_commands.md R131), the step of CONSTRUCT step 13. -/
def execResume (s : State) : Host.Outcome State Fault Refusal :=
  emit (commandStep [0xA4]) s

/-- EntireDisplayOn (42_wire_commands.md R132); no request's sequence holds it (30_encoding.md R67). -/
def execEntireDisplayOn (s : State) : Host.Outcome State Fault Refusal :=
  emit (commandStep [0xA5]) s

/-- DisplayModeNormal (42_wire_commands.md R133), the step of CONSTRUCT step 14. -/
def execDisplayModeNormal (s : State) : Host.Outcome State Fault Refusal :=
  emit (commandStep [0xA6]) s

/-- DisplayModeInvert (42_wire_commands.md R134); no request's sequence holds it (30_encoding.md R67). -/
def execDisplayModeInvert (s : State) : Host.Outcome State Fault Refusal :=
  emit (commandStep [0xA7]) s

/-- TurnOff (42_wire_commands.md R135), the step of CONSTRUCT step 0, SETACTIVE 0 and DISPOSE. -/
def execTurnOff (s : State) : Host.Outcome State Fault Refusal :=
  emit (commandStep [0xAE]) s

/-- TurnOn (42_wire_commands.md R136), the step of CONSTRUCT step 15 and SETACTIVE 1. -/
def execTurnOn (s : State) : Host.Outcome State Fault Refusal :=
  emit (commandStep [0xAF]) s

/-- SetDisplayOffset (42_wire_commands.md R137), the step of CONSTRUCT step 3. -/
def execSetDisplayOffset (a1 : Byte) (s : State) : Host.Outcome State Fault Refusal :=
  emit (commandStep [0xD3, a1]) s

/-- SetComPins (42_wire_commands.md R138), the step of CONSTRUCT step 9. -/
def execSetComPins (a1 : Byte) (s : State) : Host.Outcome State Fault Refusal :=
  emit (commandStep [0xDA, a1]) s

/-- SetVoltageOutput (42_wire_commands.md R139), the step of CONSTRUCT step 12. -/
def execSetVoltageOutput (a1 : Byte) (s : State) : Host.Outcome State Fault Refusal :=
  emit (commandStep [0xDB, a1]) s

/-- SetClockDivider (42_wire_commands.md R140), the step of CONSTRUCT step 1. -/
def execSetClockDivider (a1 : Byte) (s : State) : Host.Outcome State Fault Refusal :=
  emit (commandStep [0xD5, a1]) s

/-- SetPrechargeMode (42_wire_commands.md R141), the step of CONSTRUCT step 11. -/
def execSetPrechargeMode (a1 : Byte) (s : State) : Host.Outcome State Fault Refusal :=
  emit (commandStep [0xD9, a1]) s

/-- SetMultiplexer (42_wire_commands.md R142), the step of CONSTRUCT step 2. -/
def execSetMultiplexer (a1 : Byte) (s : State) : Host.Outcome State Fault Refusal :=
  emit (commandStep [0xA8, a1]) s

/-- SetLowColumn (42_wire_commands.md R143); no request's sequence holds it (30_encoding.md R67). -/
def execSetLowColumn (s : State) : Host.Outcome State Fault Refusal :=
  emit (commandStep [0x00]) s

/-- SetHighColumn (42_wire_commands.md R144); no request's sequence holds it (30_encoding.md R67). -/
def execSetHighColumn (s : State) : Host.Outcome State Fault Refusal :=
  emit (commandStep [0x10]) s

/-- SetStartLine (42_wire_commands.md R145), the step of CONSTRUCT step 4. -/
def execSetStartLine (s : State) : Host.Outcome State Fault Refusal :=
  emit (commandStep [0x40]) s

/-- SetMemoryMode (42_wire_commands.md R146), the step of CONSTRUCT step 6. -/
def execSetMemoryMode (a1 : Byte) (s : State) : Host.Outcome State Fault Refusal :=
  emit (commandStep [0x20, a1]) s

/-- SetColumnAddressRange (42_wire_commands.md R147), the step of RENDER step 0. -/
def execSetColumnAddressRange (a1 a2 : Byte) (s : State) : Host.Outcome State Fault Refusal :=
  emit (commandStep [0x21, a1, a2]) s

/-- SetPageAddressRange (42_wire_commands.md R148), the step of RENDER step 1. -/
def execSetPageAddressRange (a1 a2 : Byte) (s : State) : Host.Outcome State Fault Refusal :=
  emit (commandStep [0x22, a1, a2]) s

/-- ScanDirectionModeIncrement (42_wire_commands.md R149); no request's sequence holds it (30_encoding.md R67). -/
def execScanDirectionModeIncrement (s : State) : Host.Outcome State Fault Refusal :=
  emit (commandStep [0xC0]) s

/-- ScanDirectionModeDecrement (42_wire_commands.md R150), the step of CONSTRUCT step 8. -/
def execScanDirectionModeDecrement (s : State) : Host.Outcome State Fault Refusal :=
  emit (commandStep [0xC8]) s

/-- SegmentRemapModeOff (42_wire_commands.md R151); no request's sequence holds it (30_encoding.md R67). -/
def execSegmentRemapModeOff (s : State) : Host.Outcome State Fault Refusal :=
  emit (commandStep [0xA0]) s

/-- SegmentRemapModeOn (42_wire_commands.md R152), the step of CONSTRUCT step 7. -/
def execSegmentRemapModeOn (s : State) : Host.Outcome State Fault Refusal :=
  emit (commandStep [0xA1]) s

/-- SetChargePumpMode (42_wire_commands.md R153), the step of CONSTRUCT step 5. -/
def execSetChargePumpMode (a1 : Byte) (s : State) : Host.Outcome State Fault Refusal :=
  emit (commandStep [0x8D, a1]) s

/-- The display-data transaction (41_sequencer.md R106, 30_encoding.md R64), the step of RENDER step 2: one transaction with
control byte 0x40. -/
def execDisplayData (data : List Byte) (s : State) : Host.Outcome State Fault Refusal :=
  emit (dataStep data) s

end Sys2Proof.Machine
end

