-- ==== Sys2Proof/Machine/Dispatch.lean ====
section
/-! DEFINITION. The dispatch: one arm per instruction. -/

namespace Sys2Proof.Machine

def exec (i : Instr) (s : State) : Host.Outcome State Fault Refusal :=
  match i with
  | .cmdSetContrast a1 => Sys2Proof.Machine.execSetContrast a1 s
  | .cmdResume => Sys2Proof.Machine.execResume s
  | .cmdEntireDisplayOn => Sys2Proof.Machine.execEntireDisplayOn s
  | .cmdDisplayModeNormal => Sys2Proof.Machine.execDisplayModeNormal s
  | .cmdDisplayModeInvert => Sys2Proof.Machine.execDisplayModeInvert s
  | .cmdTurnOff => Sys2Proof.Machine.execTurnOff s
  | .cmdTurnOn => Sys2Proof.Machine.execTurnOn s
  | .cmdSetDisplayOffset a1 => Sys2Proof.Machine.execSetDisplayOffset a1 s
  | .cmdSetComPins a1 => Sys2Proof.Machine.execSetComPins a1 s
  | .cmdSetVoltageOutput a1 => Sys2Proof.Machine.execSetVoltageOutput a1 s
  | .cmdSetClockDivider a1 => Sys2Proof.Machine.execSetClockDivider a1 s
  | .cmdSetPrechargeMode a1 => Sys2Proof.Machine.execSetPrechargeMode a1 s
  | .cmdSetMultiplexer a1 => Sys2Proof.Machine.execSetMultiplexer a1 s
  | .cmdSetLowColumn => Sys2Proof.Machine.execSetLowColumn s
  | .cmdSetHighColumn => Sys2Proof.Machine.execSetHighColumn s
  | .cmdSetStartLine => Sys2Proof.Machine.execSetStartLine s
  | .cmdSetMemoryMode a1 => Sys2Proof.Machine.execSetMemoryMode a1 s
  | .cmdSetColumnAddressRange a1 a2 => Sys2Proof.Machine.execSetColumnAddressRange a1 a2 s
  | .cmdSetPageAddressRange a1 a2 => Sys2Proof.Machine.execSetPageAddressRange a1 a2 s
  | .cmdScanDirectionModeIncrement => Sys2Proof.Machine.execScanDirectionModeIncrement s
  | .cmdScanDirectionModeDecrement => Sys2Proof.Machine.execScanDirectionModeDecrement s
  | .cmdSegmentRemapModeOff => Sys2Proof.Machine.execSegmentRemapModeOff s
  | .cmdSegmentRemapModeOn => Sys2Proof.Machine.execSegmentRemapModeOn s
  | .cmdSetChargePumpMode a1 => Sys2Proof.Machine.execSetChargePumpMode a1 s
  | .reqConstruct model power tp addr => Sys2Proof.Machine.execConstruct model power tp addr s
  | .reqGetpx x y => Sys2Proof.Machine.execGetpx x y s
  | .reqSetpx x y v => Sys2Proof.Machine.execSetpx x y v s
  | .reqClear => Sys2Proof.Machine.execClear s
  | .reqPack => Sys2Proof.Machine.execPack s
  | .reqLoad ox oy num den => Sys2Proof.Machine.execLoad ox oy num den s
  | .reqSetactive b => Sys2Proof.Machine.execSetactive b s
  | .reqSetcontrast c => Sys2Proof.Machine.execSetcontrast c s
  | .reqRender => Sys2Proof.Machine.execRender s
  | .reqDispose => Sys2Proof.Machine.execDispose s
  | .reqGetcontrast => Sys2Proof.Machine.execGetcontrast s
  | .reqGetactive => Sys2Proof.Machine.execGetactive s
  | .reqGetgeom => Sys2Proof.Machine.execGetgeom s
  | .illegal code => Sys2Proof.Machine.execIllegal code s
  | .displayData data => Sys2Proof.Machine.execDisplayData data s

end Sys2Proof.Machine
end

