-- ==== Sys2Proof/Machine/Fetch.lean ====
section
/-! DEFINITION. What the machine does next, and where a word of the opcode table is put so that it is done next. -/

namespace Sys2Proof.Machine

/-- The bytes of a sequence step as its stream carries them, decoded: a command with control byte 0x00, the data transaction
with 0x40, and no other control byte (20_memory.md R48). -/
def decodeStep (st : SeqStep) : Decoded :=
  if st.ctrl = 0x00 then decode .command st.bytes
  else if st.ctrl = 0x40 then decode .data (0x40 :: st.bytes)
  else .reject (.badControlByte st.ctrl)

/-- The next sequence step of the request in progress, decoded and run; with none left, the request ends. -/
def stepSequencer (s : State) : Host.Outcome State Fault Refusal :=
  match s.script with
  | [] => .next (sequenceDone s)
  | st :: rest =>
    match decodeStep st with
    | .instr i => exec i { s with script := rest }
    | .reject r => .refused (.notACommand r)

/-- The next request at the host port, decoded and run; with none, the block waits. -/
def stepHost (s : State) : Host.Outcome State Fault Refusal :=
  match s.hostIn with
  | .request q :: rest =>
    match decode .host q with
    | .instr i => exec i { s with hostIn := rest }
    | .reject r => .refused (.notARequest r)
  | .reset :: _ => .next s
  | .resetAtResponse :: _ => .next s
  | .surface _ :: _ => .next s
  | [] => .next s

/-- A busy block goes on with its request: a waiting transaction first (without an answer nothing changes, the block has no
step: 60_exceptions.md R178), then the next sequence step. A block that is not busy takes the next request (10_state.md R28). -/
def stepBlock (s : State) : Host.Outcome State Fault Refusal :=
  if s.busy then
    match s.inFlight with
    | [] => stepSequencer s
    | _ :: _ => resume s
  else stepHost s

/-- The block's move ends before its response if a reset is asserted there (70_reset_and_hazards.md R180). -/
def serveResetAtResponse (before after : State) : State :=
  match after.hostIn with
  | .resetAtResponse :: rest => if after.busy then after else withholdResponse before { after with hostIn := rest }
  | .request _ :: _ => after
  | .reset :: _ => after
  | .surface _ :: _ => after
  | [] => after

/-- A reset (70_reset_and_hazards.md R180) or a change of the surface port (20_memory.md R47) is served at once, whatever the
block is doing; else the block makes its move. -/
def serveNext (s : State) : Host.Outcome State Fault Refusal :=
  match s.hostIn with
  | .reset :: rest => .next (blockReset { s with hostIn := rest })
  | .surface f :: rest => .next { s with surface := f, hostIn := rest }
  | .resetAtResponse :: _ => andThen (stepBlock s) fun t => .next (serveResetAtResponse s t)
  | .request _ :: _ => andThen (stepBlock s) fun t => .next (serveResetAtResponse s t)
  | [] => andThen (stepBlock s) fun t => .next (serveResetAtResponse s t)

/-- The events at the ports without those that come before the next request: they would be served before an instruction is
fetched, or withhold its response. -/
def withoutEvents : List HostEvent → List HostEvent
  | .reset :: rest => withoutEvents rest
  | .resetAtResponse :: rest => withoutEvents rest
  | .surface _ :: rest => withoutEvents rest
  | .request q :: rest => .request q :: rest
  | [] => []

/-- Put an instruction's bytes where the next step fetches it: a request at the host port of a block that is not busy, a
command or data transaction as the next sequence step of a busy block with no transaction waiting. -/
def placeInstruction (stream : Stream) (bytes : List Byte) (s : State) : State :=
  match stream with
  | .host => { s with busy := false, hostIn := .request bytes :: withoutEvents s.hostIn }
  | .command =>
    { s with busy := true, inFlight := [], script := commandStep bytes :: s.script, hostIn := withoutEvents s.hostIn }
  | .data =>
    { s with busy := true, inFlight := [], script := dataStep bytes.tail :: s.script, hostIn := withoutEvents s.hostIn }

end Sys2Proof.Machine
end

