-- ==== Sys2Proof/Machine/Step.lean ====
section
/-! DEFINITION. One step of the machine, and the state with a table word stored where the step fetches. -/

namespace Sys2Proof.Machine

/-- One step: a reset, or the busy block's next move, or the next request. -/
def step (s : State) : Host.Outcome State Fault Refusal := serveNext s

/-- The instruction of a table word, stored where `step` fetches its next instruction. -/
def State.withFetchWord (s : State) (nbits w : Nat) : State :=
  placeInstruction (tableBytes nbits w).1 (tableBytes nbits w).2 s

end Sys2Proof.Machine
end

