-- ==== Sys2Proof/Safety.lean ====
section
/-! DEFINITION. What a sound state of FBSEQ is: the invariants of 10_state.md R32, with what they leave unsaid about a request
that waits in the middle of its sequence; and the sets the whole-machine rules speak of. -/

namespace Sys2Proof.Machine

/-- Every listed byte of a framebuffer lies in its N data bytes (20_memory.md R40, R44). -/
def insideModel (d : DisplayModel) (m : Memory) : Prop := ∀ c ∈ m, c.1 < dataLength d

/-- MODEL, POWER and BUSADDR hold values and FB is allocated, in canonical form, at MODEL's geometry (10_state.md R29, R32). -/
def Configured (s : State) : Prop :=
  ∃ d p a m, s.model = some d ∧ s.power = some p ∧ s.busAddr = some a ∧ s.fb = some m ∧ m.wf = true ∧ insideModel d m

/-- The steps a request in progress emits, in order (41_sequencer.md R102, R104 to R107). -/
def jobSequence (s : State) : Job → List SeqStep
  | .construct =>
    match s.model, s.power with
    | some d, some p => initSequence d p
    | _, _ => []
  | .setActive b => [commandStep [if b then 0xAF else 0xAE]]
  | .setContrast c => [commandStep [0x81, c]]
  | .render =>
    match s.model, s.fb with
    | some d, some m => renderSequence d (memRead d m 1 (dataLength d))
    | _, _ => []
  | .dispose => [commandStep [0xAE]]

/-- What holds of the lifecycle while a request is in progress: a CONSTRUCT has written Inactive after step 14 and `contrast`
after step 10 (41_sequencer.md R101); every other request was admitted in Active or Inactive. -/
def JobState (s : State) : Job → Prop
  | .construct =>
    s.initFailed = false ∧ s.txOpen = true ∧ Configured s ∧
      (s.life = if s.seqPC.toNat < 15 then .uninitialized else .inactive) ∧ (10 < s.seqPC.toNat → s.contrast.isSome = true)
  | .setActive _ | .setContrast _ | .render | .dispose => constructed s = true

/-- Where a request in progress stands: `seqPC` steps are complete (10_state.md R27); the next one has not begun, or the unanswered
rest of its transactions is in flight. -/
def Position (s : State) (seq : List SeqStep) : Prop :=
  (s.inFlight = [] ∧ s.seqPC.toNat < seq.length ∧ s.script = seq.drop s.seqPC.toNat) ∨
  (s.inFlight ≠ [] ∧ s.script = seq.drop (s.seqPC.toNat + 1) ∧
    ∃ st a, seq[s.seqPC.toNat]? = some st ∧ s.busAddr = some a ∧ s.inFlight <:+ transactions s.framing a st)

/-- The invariant: the five clauses of 10_state.md R32, the canonical form of FB, and what holds while a request is in progress. -/
structure Inv (s : State) : Prop where
  /-- R32 (1). -/
  constructed_holds : constructed s = true →
    s.initFailed = false ∧ s.txOpen = true ∧ Configured s ∧ s.contrast.isSome = true
  /-- R32 (2). -/
  disposed_closed : s.life = .disposed → s.txOpen = false
  /-- R32 (3). -/
  failed_dead : s.initFailed = true → s.life = .uninitialized ∧ s.txOpen = false
  /-- R32 (4), between requests. -/
  fresh_closed : s.busy = false → s.life = .uninitialized → s.initFailed = false → s.txOpen = false
  /-- R32 (5), and no request in progress. -/
  idle : s.busy = false → s.seqPC = 0 ∧ s.job = none ∧ s.script = [] ∧ s.inFlight = []
  /-- A request in progress. -/
  working : s.busy = true → ∃ j, s.job = some j ∧ JobState s j ∧ Position s (jobSequence s j)
  /-- FB's canonical form. -/
  fb_wf : ∀ m, s.fb = some m → m.wf = true

/-- The six commands of the closed set that no request emits (30_encoding.md R67). -/
def neverEmitted : List Instr :=
  [.cmdEntireDisplayOn, .cmdDisplayModeInvert, .cmdSetLowColumn, .cmdSetHighColumn, .cmdScanDirectionModeIncrement,
    .cmdSegmentRemapModeOff]

/-- The requests that emit transactions (20_memory.md R53). -/
def EmitsTransactions (i : Instr) : Prop :=
  (∃ model power tp addr, i = .reqConstruct model power tp addr) ∨ (∃ b, i = .reqSetactive b) ∨
    (∃ c, i = .reqSetcontrast c) ∨ i = .reqRender ∨ i = .reqDispose

/-- Neither a reset nor a change of the surface port stands before the next request. -/
def Undisturbed (s : State) : Prop := s.hostIn = [] ∨ ∃ q rest, s.hostIn = .request q :: rest

/-- The step from s to t serves a reset (70_reset_and_hazards.md R180): one asserted before anything else, or one asserted
before the response of the request in progress or of the request that the step takes. -/
def ResetServed (s t : State) : Prop :=
  s.hostIn = .reset :: t.hostIn ∨ s.hostIn = .resetAtResponse :: t.hostIn ∨
    (s.busy = false ∧ ∃ q, s.hostIn = .request q :: .resetAtResponse :: t.hostIn)

end Sys2Proof.Machine
end

