-- ==== Sys2Proof/Certificates/Slice0/Obligations.lean ====
section
/-! DEFINITION. The statements for the provers. Each is a Prop about the model; none is proved here. -/

namespace Sys2Proof.Slice0

open Sys2Proof.Machine

/-- The state s with response r given and no request in progress; nothing else differs. -/
def answered (r : Response) (s : State) : State :=
  { s with responses := s.responses ++ [r], busy := false, seqPC := 0, job := none, script := [], inFlight := [] }

/-- n acknowledgements. -/
def acks (n : Nat) : List Answer := List.replicate n .ack

/-- No answer will come: none is left, or the next transaction is never answered. -/
def NoAnswer (answers : List Answer) : Prop := answers = [] ∨ ∃ rest, answers = .never :: rest

/-- The payloads of a list of commands, each the bytes [op, a1, ...]: one byte each under PerByte, one command each under
PerCommand (30_encoding.md R64). -/
def payloads : Framing → List (List Byte) → List (List Byte)
  | .perByte, commands => commands.flatten.map fun b => [b]
  | .perCommand, commands => commands

/-- Command transactions to address a: control byte 0x00. -/
def commandTxns (a : BusAddr) (bodies : List (List Byte)) : List Txn := bodies.map fun p => ⟨a, 0x00, p⟩

/-- Bus log entries of acknowledged transactions. -/
def allAcked (ts : List Txn) : List BusEvent := ts.map fun t => ⟨t, true⟩

/-- The rows of 41_sequencer.md R103, one command between two bars; MM is P_MEMORY_MODE_ARG. -/
def constructRow (mm : Byte) : DisplayModel → PowerMode → List (List Byte)
  | .m128x64, .external =>
    [[0xAE], [0xD5, 0x80], [0xA8, 0x3F], [0xD3, 0x00], [0x40], [0x8D, 0x10], [0x20, mm], [0xA1], [0xC8], [0xDA, 0x12],
      [0x81, 0x9F], [0xD9, 0x22], [0xDB, 0x40], [0xA4], [0xA6], [0xAF]]
  | .m128x64, .switching =>
    [[0xAE], [0xD5, 0x80], [0xA8, 0x3F], [0xD3, 0x00], [0x40], [0x8D, 0x14], [0x20, mm], [0xA1], [0xC8], [0xDA, 0x12],
      [0x81, 0xCF], [0xD9, 0xF1], [0xDB, 0x40], [0xA4], [0xA6], [0xAF]]
  | .m128x32, .external =>
    [[0xAE], [0xD5, 0x80], [0xA8, 0x1F], [0xD3, 0x00], [0x40], [0x8D, 0x10], [0x20, mm], [0xA1], [0xC8], [0xDA, 0x02],
      [0x81, 0x8F], [0xD9, 0x22], [0xDB, 0x40], [0xA4], [0xA6], [0xAF]]
  | .m128x32, .switching =>
    [[0xAE], [0xD5, 0x80], [0xA8, 0x1F], [0xD3, 0x00], [0x40], [0x8D, 0x14], [0x20, mm], [0xA1], [0xC8], [0xDA, 0x02],
      [0x81, 0x8F], [0xD9, 0xF1], [0xDB, 0x40], [0xA4], [0xA6], [0xAF]]
  | .m96x16, .external =>
    [[0xAE], [0xD5, 0x60], [0xA8, 0x0F], [0xD3, 0x00], [0x40], [0x8D, 0x10], [0x20, mm], [0xA1], [0xC8], [0xDA, 0x02],
      [0x81, 0x8F], [0xD9, 0x22], [0xDB, 0x40], [0xA4], [0xA6], [0xAF]]
  | .m96x16, .switching =>
    [[0xAE], [0xD5, 0x60], [0xA8, 0x0F], [0xD3, 0x00], [0x40], [0x8D, 0x14], [0x20, mm], [0xA1], [0xC8], [0xDA, 0x02],
      [0x81, 0x8F], [0xD9, 0xF1], [0xDB, 0x40], [0xA4], [0xA6], [0xAF]]

/-- The model codes of 00_scope.md R5. -/
def codeOf : DisplayModel → BitVec 2
  | .m128x64 => 0
  | .m128x32 => 1
  | .m96x16 => 2

/-- The default contrast of 10_state.md R26. -/
def defcon : DisplayModel → PowerMode → Byte
  | .m128x64, .external => 0x9F
  | .m128x64, .switching => 0xCF
  | .m128x32, .external => 0x8F
  | .m128x32, .switching => 0x8F
  | .m96x16, .external => 0x8F
  | .m96x16, .switching => 0x8F

/-- The eleven requests that are valid only when `life` ∈ {Active, Inactive} (60_exceptions.md R165, third row). -/
def Gated (i : Instr) : Prop :=
  (∃ x y, i = .reqGetpx x y) ∨ (∃ x y v, i = .reqSetpx x y v) ∨ i = .reqClear ∨ i = .reqPack ∨
    (∃ ox oy num den, i = .reqLoad ox oy num den) ∨ (∃ b, i = .reqSetactive b) ∨ (∃ c, i = .reqSetcontrast c) ∨
    i = .reqRender ∨ i = .reqGetcontrast ∨ i = .reqGetactive ∨ i = .reqGetgeom

/-- Active or Inactive. -/
def Usable (s : State) : Prop := s.life = .active ∨ s.life = .inactive

/-- The transactions of the requests but CONSTRUCT that emit any (41_sequencer.md R104 to R107), for geometry d and framebuffer
m. -/
def requestTxns (f : Framing) (a : BusAddr) (d : DisplayModel) (m : Memory) : Instr → List Txn
  | .reqSetactive b => commandTxns a (payloads f [[if b then 0xAF else 0xAE]])
  | .reqSetcontrast c => commandTxns a (payloads f [[0x81, c]])
  | .reqRender =>
    commandTxns a (payloads f
      [[0x21, 0x00, BitVec.ofNat 8 (width d - 1)], [0x22, 0x00, BitVec.ofNat 8 (height d / 8 - 1)]]) ++
      [⟨a, 0x40, (List.range (width d * height d / 8)).map (dataByte m)⟩]
  | .reqDispose => commandTxns a (payloads f [[0xAE]])
  | _ => []

/-- t differs from s only in what a sequence in progress writes: `life`, `contrast`, `txOpen`, the request in progress, the bus
log and the answers taken. -/
def OnlySequenceWrites (s t : State) : Prop :=
  t.initFailed = s.initFailed ∧ t.model = s.model ∧ t.power = s.power ∧ t.busAddr = s.busAddr ∧ t.fb = s.fb ∧
    t.hostIn = s.hostIn ∧ t.surface = s.surface ∧ t.framing = s.framing ∧ t.draws = s.draws

/-- Every element of 10_state.md R33 has its value of the column "after block reset", and no request is in progress. -/
def AfterReset (t : State) : Prop :=
  t.life = .uninitialized ∧ t.initFailed = false ∧ t.txOpen = false ∧ t.seqPC = 0 ∧ t.busy = false ∧ t.model = none ∧
    t.power = none ∧ t.busAddr = none ∧ t.contrast = none ∧ t.fb = none ∧ t.job = none ∧ t.script = [] ∧ t.inFlight = []

/-- What a reader of the bus log reads (30_encoding.md R65) once the transactions in flight are acknowledged. -/
def logReading (s : State) : Reader := readBusLog (s.busLog ++ allAcked s.inFlight)

end Sys2Proof.Slice0

open Sys2Proof Sys2Proof.Machine Sys2Proof.Slice0

/-! ### Encoding -/

/-- Decoding the encoding of a well-formed instruction, in its stream, gives it back, every operand at every value. The
request encodings are the spec's own (92_eei_decisions.md D2; log entry 15). -/
def Obligations.DecodeOfEncode : Prop :=
  ∀ i : Instr, i.wellFormed = true → decode i.stream (encode i) = .instr i

/-- What decodes is well formed and belongs to the stream; a command and a data transaction have exactly one encoding, and a
request's canonical bytes (reserved bits 0) decode to the same request. The request encodings are the spec's own
(92_eei_decisions.md D2; log entry 15). -/
def Obligations.EncodeOfDecode : Prop :=
  (∀ bytes i, decode .command bytes = .instr i → encode i = bytes ∧ i.stream = .command ∧ i.wellFormed = true) ∧
  (∀ bytes i, decode .data bytes = .instr i → encode i = bytes ∧ i.stream = .data ∧ i.wellFormed = true) ∧
  (∀ bytes i, decode .host bytes = .instr i →
    i.stream = .host ∧ i.wellFormed = true ∧ (encode i).length = bytes.length ∧ decode .host (encode i) = .instr i)

/-- R71 and R167: reserved operand bits are ignored; a code outside 0x01 to 0x0D is a one-byte request that changes no state,
emits no transaction and answers IllegalRequest, in every lifecycle state. R71 and R167 are the spec's decision D21 (log
entry 15). -/
def Obligations.ReservedBitsIgnoredIllegalCodesAnswered : Prop :=
  (∀ q1 q2 : Byte, decode .host [0x01, q1, q2] = decode .host [0x01, q1 &&& 0x0F, q2 &&& 0x7F]) ∧
  (∀ q1 q2 q3 q4 q5 : Byte, decode .host [0x03, q1, q2, q3, q4, q5] = decode .host [0x03, q1, q2, q3, q4, q5 &&& 0x01]) ∧
  (∀ q1 : Byte, decode .host [0x07, q1] = decode .host [0x07, q1 &&& 0x01]) ∧
  ∀ code : Byte, (code = 0x00 ∨ 0x0E ≤ code.toNat) →
    decode .host [code] = .instr (.illegal code) ∧
    ∀ s : State, s.busy = false → exec (.illegal code) s = .next (answered (.error .illegalRequest) s)

/-- R68: a request with a missing or extra byte is no request; the lengths are the bytes column of R69. The request encodings
are the spec's own (92_eei_decisions.md D2; log entry 15). -/
def Obligations.RequestLengthsExact : Prop :=
  ∀ (code : Byte) (ops : List Byte),
    (∃ i, decode .host (code :: ops) = .instr i) ↔
      (code :: ops).length =
        (([(0x01, 3), (0x02, 5), (0x03, 6), (0x06, 9), (0x07, 2), (0x08, 2)] : List (Byte × Nat)).lookup code).getD 1

/-- R61: the count of argument bytes is fixed by the opcode, as R62 lists it, no other byte opens a command, and the argument
bytes are used as given. -/
def Obligations.CommandFormats : Prop :=
  (∀ (op : Byte) (args : List Byte),
    (∃ i, decode .command (op :: args) = .instr i) ↔
      ([(0x81, 1), (0xA4, 0), (0xA5, 0), (0xA6, 0), (0xA7, 0), (0xAE, 0), (0xAF, 0), (0xD3, 1), (0xDA, 1), (0xDB, 1),
        (0xD5, 1), (0xD9, 1), (0xA8, 1), (0x00, 0), (0x10, 0), (0x40, 0), (0x20, 1), (0x21, 2), (0x22, 2), (0xC0, 0),
        (0xC8, 0), (0xA0, 0), (0xA1, 0), (0x8D, 1)] : List (Byte × Nat)).lookup op = some args.length) ∧
  (∀ a b : Byte,
    decode .command [0x81, a] = .instr (.cmdSetContrast a) ∧ decode .command [0xA4] = .instr .cmdResume ∧
    decode .command [0xA5] = .instr .cmdEntireDisplayOn ∧ decode .command [0xA6] = .instr .cmdDisplayModeNormal ∧
    decode .command [0xA7] = .instr .cmdDisplayModeInvert ∧ decode .command [0xAE] = .instr .cmdTurnOff ∧
    decode .command [0xAF] = .instr .cmdTurnOn ∧ decode .command [0xD3, a] = .instr (.cmdSetDisplayOffset a) ∧
    decode .command [0xDA, a] = .instr (.cmdSetComPins a) ∧ decode .command [0xDB, a] = .instr (.cmdSetVoltageOutput a) ∧
    decode .command [0xD5, a] = .instr (.cmdSetClockDivider a) ∧ decode .command [0xD9, a] = .instr (.cmdSetPrechargeMode a) ∧
    decode .command [0xA8, a] = .instr (.cmdSetMultiplexer a) ∧ decode .command [0x00] = .instr .cmdSetLowColumn ∧
    decode .command [0x10] = .instr .cmdSetHighColumn ∧ decode .command [0x40] = .instr .cmdSetStartLine ∧
    decode .command [0x20, a] = .instr (.cmdSetMemoryMode a) ∧
    decode .command [0x21, a, b] = .instr (.cmdSetColumnAddressRange a b) ∧
    decode .command [0x22, a, b] = .instr (.cmdSetPageAddressRange a b) ∧
    decode .command [0xC0] = .instr .cmdScanDirectionModeIncrement ∧
    decode .command [0xC8] = .instr .cmdScanDirectionModeDecrement ∧ decode .command [0xA0] = .instr .cmdSegmentRemapModeOff ∧
    decode .command [0xA1] = .instr .cmdSegmentRemapModeOn ∧ decode .command [0x8D, a] = .instr (.cmdSetChargePumpMode a))

/-- R65: a reader of the command stream reads back the commands it was made of, whatever their argument bytes are. The reader
is the spec's inference (R65, derived). -/
def Obligations.ReaderReadsCommandStream : Prop :=
  ∀ commands : List Instr, (∀ i ∈ commands, i.stream = .command) →
    readCommands (commands.flatMap encode) = .atOpcode commands

/-- R66: a byte in opcode position outside the closed set is refused, whatever follows it. The classification is R66's. -/
def Obligations.ReaderRefusesForeignByte : Prop :=
  ∀ (commands : List Instr) (b : Byte) (rest : List Byte), (∀ i ∈ commands, i.stream = .command) →
    b ∉ ([0x81, 0xA4, 0xA5, 0xA6, 0xA7, 0xAE, 0xAF, 0xD3, 0xDA, 0xDB, 0xD5, 0xD9, 0xA8, 0x00, 0x10, 0x40, 0x20, 0x21, 0x22,
      0xC0, 0xC8, 0xA0, 0xA1, 0x8D] : List Byte) →
    readCommands (commands.flatMap encode ++ b :: rest) = .refused commands b

/-- Words the spec writes out (95_test_vectors.md) decode to the instructions they stand for. The request encodings are the
spec's own (92_eei_decisions.md D2; log entry 15). -/
def Obligations.WrittenOutWordsDecode : Prop :=
  decode .host [0x01, 0x0E, 0x3C] = .instr (.reqConstruct 2 .switching true 0x3C) ∧
  decode .host [0x03, 0xFF, 0xFF, 0x00, 0x00, 0x01] = .instr (.reqSetpx (-1) 0 true) ∧
  decode .host [0x06, 0x02, 0x00, 0x03, 0x00, 0x80, 0x00, 0xFF, 0x00] = .instr (.reqLoad 2 3 128 255) ∧
  decode .host [0x0E] = .instr (.illegal 0x0E) ∧
  decode .command [0x81, 0xAE] = .instr (.cmdSetContrast 0xAE) ∧
  decode .command [0x21, 0x00, 0x7F] = .instr (.cmdSetColumnAddressRange 0x00 0x7F)

/-! ### The translator and the packing -/

/-- R41: the translator's formula; for any other coordinate the requests that would use it raise OutOfRange first, and
nothing else happens. -/
def Obligations.TranslatorFormula : Prop :=
  (∀ (d : DisplayModel) (x y : Nat), x < width d → y < height d →
    xlate d x y = y / 8 * (8 * width d) + x * 8 + y % 8) ∧
  ∀ (s : State) (d : DisplayModel) (x y : Half) (v : Bool), s.busy = false → Usable s → s.model = some d →
    ¬ (0 ≤ x.toInt ∧ x.toInt < width d ∧ 0 ≤ y.toInt ∧ y.toInt < height d) →
    exec (.reqGetpx x y) s = .next (answered (.error .outOfRange) s) ∧
    exec (.reqSetpx x y v) s = .next (answered (.error .outOfRange) s)

/-- R42: the translator is a bijection from the valid rectangle onto [0, NBITS), with the inverse the rule gives. R42 is
derived from R41 by the spec. -/
def Obligations.TranslatorBijection : Prop :=
  ∀ d : DisplayModel,
    (∀ x y, x < width d → y < height d →
      xlate d x y < width d * height d ∧
      (xlate d x y) % (8 * width d) / 8 = x ∧ 8 * (xlate d x y / (8 * width d)) + xlate d x y % 8 = y) ∧
    ∀ i, i < width d * height d →
      i % (8 * width d) / 8 < width d ∧ 8 * (i / (8 * width d)) + i % 8 < height d ∧
      xlate d (i % (8 * width d) / 8) (8 * (i / (8 * width d)) + i % 8) = i

/-- R43 and R44: PB is PACKLEN bytes long, PB[0] = 0x40, and PB[1 + k] = DATA[k] is the sum over j in 0..7 of FB[8k + j] <<
j. The bit order in a byte is the spec's decision D5 (log entry 15). -/
def Obligations.PackedImageBytes : Prop :=
  ∀ (d : DisplayModel) (m : Memory),
    (packedImage d m).length = 1 + width d * height d / 8 ∧ (packedImage d m)[0]? = some 0x40 ∧
    ∀ k, k < width d * height d / 8 → ∃ b : Byte, (packedImage d m)[1 + k]? = some b ∧
      b.toNat = ((List.range 8).map fun j => (readBit m (8 * k + j)).toNat * 2 ^ j).sum

/-- R45: data byte k holds column k mod W of page k div W, and bit j of it is pixel (x, 8p + j). R45 is derived from R41 and
R43 by the spec, and rests on its decision D5 (log entry 15). -/
def Obligations.DataByteHoldsColumn : Prop :=
  ∀ (d : DisplayModel) (m : Memory) (k j : Nat), k < width d * height d / 8 → j < 8 →
    ∃ b : Byte, (packedImage d m)[1 + k]? = some b ∧
      b.getLsbD j = readBit m (xlate d (k % width d) (8 * (k / width d) + j))

/-! ### The framebuffer requests -/

/-- R81: GETPX answers the pixel's bit as one byte and changes nothing. The response's bytes are the spec's decision D3 (log
entry 15). -/
def Obligations.GetpxAnswersPixel : Prop :=
  ∀ (s : State) (d : DisplayModel) (m : Memory) (x y : Nat), s.busy = false → Usable s → s.model = some d → s.fb = some m →
    x < width d → y < height d →
    exec (.reqGetpx (BitVec.ofNat 16 x) (BitVec.ofNat 16 y)) s =
      .next (answered (.ok [if readBit m (xlate d x y) then 0x01 else 0x00]) s)

/-- R82: SETPX writes the one bit FB[xlate(x, y)], no other bit, and nothing else; in canonical form. The canonical form is
the model's (log entry 14). -/
def Obligations.SetpxWritesOnePixel : Prop :=
  ∀ (s : State) (d : DisplayModel) (m : Memory) (x y : Nat) (v : Bool), s.busy = false → Usable s → s.model = some d →
    s.fb = some m → m.wf = true → x < width d → y < height d →
    ∃ m', exec (.reqSetpx (BitVec.ofNat 16 x) (BitVec.ofNat 16 y) v) s = .next (answered (.ok []) { s with fb := some m' }) ∧
      m'.wf = true ∧ readBit m' (xlate d x y) = v ∧ ∀ i, i ≠ xlate d x y → readBit m' i = readBit m i

/-- The source's property of R82: "`set(x,y,v)` followed by `get(x,y)` returns `v`; all other coordinates are unaffected".
The canonical form is the model's (log entry 14). -/
def Obligations.SetThenGetReturnsValue : Prop :=
  ∀ (s : State) (d : DisplayModel) (m : Memory) (x y x' y' : Nat) (v : Bool), s.busy = false → Usable s →
    s.model = some d → s.fb = some m → m.wf = true → x < width d → y < height d → x' < width d → y' < height d →
    ∃ t, exec (.reqSetpx (BitVec.ofNat 16 x) (BitVec.ofNat 16 y) v) s = .next t ∧
      exec (.reqGetpx (BitVec.ofNat 16 x') (BitVec.ofNat 16 y')) t =
        .next (answered (.ok [if (if x' = x ∧ y' = y then v else readBit m (xlate d x' y')) then 0x01 else 0x00]) t)

/-- R83: CLEAR is the one byte 0x04; it sets every framebuffer bit to 0 (in canonical form) and changes nothing else; its
only exception is the gate's UsageError. The request code is the spec's decision D2, UsageError in Uninitialized its decision
D14 (log entry 15); the canonical form is the model's (log entry 14). -/
def Obligations.ClearZeroesFramebuffer : Prop :=
  decode .host [0x04] = .instr .reqClear ∧
  ∀ s : State, s.busy = false →
    (Usable s →
      ∃ m', exec .reqClear s = .next (answered (.ok []) { s with fb := some m' }) ∧ m'.wf = true ∧
        ∀ i, readBit m' i = false) ∧
    (¬ Usable s → exec .reqClear s = .next (answered (.error .usageError) s))

/-- R84: PACK is the one byte 0x05; it answers the packed image, PACKLEN bytes of which byte 0 is 0x40 and byte 1 + k is data
byte k, and changes nothing; its only exception is the gate's UsageError. The request code is the spec's decision D2, the bit
order in a byte D5, UsageError in Uninitialized and after a failed construction D14 (log entry 15). -/
def Obligations.PackAnswersImage : Prop :=
  decode .host [0x05] = .instr .reqPack ∧
  ∀ s : State, s.busy = false →
    (∀ d m, Usable s → s.model = some d → s.fb = some m →
      ∃ data : List Byte, exec .reqPack s = .next (answered (.ok data) s) ∧ data.length = 1 + width d * height d / 8 ∧
        data[0]? = some 0x40 ∧ ∀ k, k < width d * height d / 8 → data[1 + k]? = some (dataByte m k)) ∧
    (¬ Usable s → exec .reqPack s = .next (answered (.error .usageError) s))

/-- R85: LOAD with a surface, den ≠ 0 and a window inside the surface gives every pixel its surface pixel's Lit, in canonical
form, and changes nothing else. The exact threshold and the window check are the spec's decisions D17 and D18 (log entry 15);
the canonical form is the model's (log entry 14). -/
def Obligations.LoadThresholdsWindow : Prop :=
  ∀ (s : State) (d : DisplayModel) (f : Surface) (ox oy num den : Half), s.busy = false → Usable s →
    s.model = some d → s.surface = some f → den ≠ 0 →
    0 ≤ ox.toInt → 0 ≤ oy.toInt → ox.toInt + width d ≤ f.sw → oy.toInt + height d ≤ f.sh →
    ∃ m', exec (.reqLoad ox oy num den) s = .next (answered (.ok []) { s with fb := some m' }) ∧ m'.wf = true ∧
      ∀ px py, px < width d → py < height d →
        readBit m' (xlate d px py) = lit (surfRead f (ox.toInt.toNat + px) (oy.toInt.toNat + py)) num den

/-- R85 and R168: LOAD's checks in their order, surface, then den, then window; on any of them nothing changes. The order and
the window check are the spec's decisions D17, D18 and D19 (log entry 15). -/
def Obligations.LoadChecksInOrder : Prop :=
  ∀ (s : State) (d : DisplayModel) (ox oy num den : Half), s.busy = false → Usable s → s.model = some d →
    (s.surface = none → exec (.reqLoad ox oy num den) s = .next (answered (.error .invalidArgument) s)) ∧
    (∀ f, s.surface = some f → den = 0 →
      exec (.reqLoad ox oy num den) s = .next (answered (.error .invalidArgument) s)) ∧
    (∀ f, s.surface = some f → den ≠ 0 →
      (ox.toInt < 0 ∨ oy.toInt < 0 ∨ ox.toInt + width d > f.sw ∨ oy.toInt + height d > f.sh) →
      exec (.reqLoad ox oy num den) s = .next (answered (.error .outOfRange) s))

/-- R86: pure black never lights; any other pixel lights exactly when max(R, G, B)/255 ≥ num/den, in rationals. The rational
reading is the spec's decision D17 (log entry 15). -/
def Obligations.LightingIsExactThreshold : Prop :=
  ∀ (r g b : Byte) (num den : Half), den ≠ 0 →
    (lit ⟨r, g, b⟩ num den = true ↔
      ¬ (r = 0 ∧ g = 0 ∧ b = 0) ∧
      ((num.toInt : ℚ) / (den.toNat : ℚ) ≤ ((max r.toNat (max g.toNat b.toNat) : Nat) : ℚ) / 255))

/-! ### Statuses, admission and errors -/

/-- R165: the admission table. Where it says UsageError, that is the response and nothing else changes; where it says ok, the
request's response is not UsageError; DISPOSE in Disposed answers OK with no effect. The Uninitialized columns and the
CONSTRUCT row are the spec's decisions D12 and D14 (log entry 15). -/
def Obligations.AdmissionTable : Prop :=
  ∀ s : State, s.busy = false →
    (∀ i, Gated i →
      (¬ Usable s → exec i s = .next (answered (.error .usageError) s)) ∧
      (Usable s → ∀ t, exec i s = .next t → t.responses ≠ s.responses ++ [.error .usageError])) ∧
    (∀ model power tp addr,
      (¬ (s.life = .uninitialized ∧ s.initFailed = false) →
        exec (.reqConstruct model power tp addr) s = .next (answered (.error .usageError) s)) ∧
      (s.life = .uninitialized ∧ s.initFailed = false → ∀ t, exec (.reqConstruct model power tp addr) s = .next t →
        t.responses ≠ s.responses ++ [.error .usageError])) ∧
    (s.life = .uninitialized → exec .reqDispose s = .next (answered (.error .usageError) s)) ∧
    (s.life = .disposed → exec .reqDispose s = .next (answered (.ok []) s)) ∧
    (Usable s → ∀ t, exec .reqDispose s = .next t → t.responses ≠ s.responses ++ [.error .usageError])

/-- R168: a request that fails a check has no effect at all: whatever the request, a response of any error but IoError is the
only change. For the errors other than ConfigError this is the spec's decision D19 (log entry 15). -/
def Obligations.FailedCheckHasNoEffect : Prop :=
  ∀ (i : Instr) (s t : State) (e : Error), i.stream = .host → e ≠ .ioError → exec i s = .next t →
    t.responses = s.responses ++ [.error e] → t = answered (.error e) s

/-- R160: a request ends with exactly one response, after which the block is ready; or it gives none and is still in
progress. R183: one presented while `busy` = 1 has no move. That a request may still be in progress after the step that took
it is the model's step (log entry 4); that the host has no move while the block is busy is the spec's decision D24 (log entry
15), and that the model refuses such a request is log entry 16. -/
def Obligations.OneResponsePerRequest : Prop :=
  (∀ (i : Instr) (s t : State), i.stream = .host → exec i s = .next t →
    (t.busy = false ∧ ∃ r, t.responses = s.responses ++ [r]) ∨ (t.busy = true ∧ t.responses = s.responses)) ∧
  ∀ (i : Instr) (s : State), i.stream = .host → s.busy = true → exec i s = .refused .hostPortBusy

/-- R160 and R72: the status codes, and a response's bytes. The codes are the spec's decision D3 (log entry 15). -/
def Obligations.ResponseBytes : Prop :=
  (∀ data, responseBytes (.ok data) = 0x00 :: data) ∧
  responseBytes (.error .configError) = [0x01] ∧ responseBytes (.error .invalidArgument) = [0x02] ∧
  responseBytes (.error .outOfRange) = [0x03] ∧ responseBytes (.error .ioError) = [0x04] ∧
  responseBytes (.error .usageError) = [0x05] ∧ responseBytes (.error .illegalRequest) = [0x06]

/-- R161: CONSTRUCT with model code 3 on a fresh instance raises ConfigError, only that raises it, nothing is written, no
transaction is emitted, and the instance stays fresh. R101 and R168: so it is also with tp = 0, since the model is checked
before the transport. That the model is checked before tp is the spec's decision D19 (log entry 15). -/
def Obligations.ConfigErrorCause : Prop :=
  (∀ (s : State) power tp addr, s.busy = false → s.life = .uninitialized → s.initFailed = false →
    exec (.reqConstruct 3 power tp addr) s = .next (answered (.error .configError) s)) ∧
  ∀ (i : Instr) (s t : State), i.stream = .host → exec i s = .next t →
    t.responses = s.responses ++ [.error .configError] →
    (∃ power tp addr, i = .reqConstruct 3 power tp addr) ∧ t = answered (.error .configError) s

/-- R162: InvalidArgument has three causes, CONSTRUCT with tp = 0, LOAD with no surface, LOAD with den = 0; nothing is
written and no transaction emitted. The third cause is the spec's decision D17 (log entry 15). -/
def Obligations.InvalidArgumentCauses : Prop :=
  (∀ (s : State) d power addr, s.busy = false → s.life = .uninitialized → s.initFailed = false →
    exec (.reqConstruct (codeOf d) power false addr) s = .next (answered (.error .invalidArgument) s)) ∧
  (∀ (s : State) ox oy num den, s.busy = false → Usable s → s.surface = none ∨ den = 0 →
    exec (.reqLoad ox oy num den) s = .next (answered (.error .invalidArgument) s)) ∧
  ∀ (i : Instr) (s t : State), i.stream = .host → exec i s = .next t →
    t.responses = s.responses ++ [.error .invalidArgument] →
    ((∃ model power addr, i = .reqConstruct model power false addr) ∨
      (∃ ox oy num den, i = .reqLoad ox oy num den ∧ (s.surface = none ∨ den = 0))) ∧
    t = answered (.error .invalidArgument) s

/-- R163: the causes of OutOfRange are a GETPX or SETPX coordinate outside the model, and a LOAD window not inside the
surface: each raises it, and nothing else does; FB is unchanged and no transaction is emitted. The cause for LOAD is the
spec's decision D18 (log entry 15). -/
def Obligations.OutOfRangeCauses : Prop :=
  (∀ (s : State) (d : DisplayModel) (x y : Half) (v : Bool), s.busy = false → Usable s → s.model = some d →
    (x.toInt < 0 ∨ x.toInt ≥ width d ∨ y.toInt < 0 ∨ y.toInt ≥ height d) →
    exec (.reqGetpx x y) s = .next (answered (.error .outOfRange) s) ∧
    exec (.reqSetpx x y v) s = .next (answered (.error .outOfRange) s)) ∧
  (∀ (s : State) (d : DisplayModel) (f : Surface) (ox oy num den : Half), s.busy = false → Usable s → s.model = some d →
    s.surface = some f → den ≠ 0 →
    (ox.toInt < 0 ∨ oy.toInt < 0 ∨ ox.toInt + width d > f.sw ∨ oy.toInt + height d > f.sh) →
    exec (.reqLoad ox oy num den) s = .next (answered (.error .outOfRange) s)) ∧
  ∀ (i : Instr) (s t : State), i.stream = .host → exec i s = .next t →
    t.responses = s.responses ++ [.error .outOfRange] →
    (∃ d, s.model = some d ∧
      ((∃ x y, ((i = .reqGetpx x y) ∨ (∃ v, i = .reqSetpx x y v)) ∧
          (x.toInt < 0 ∨ x.toInt ≥ width d ∨ y.toInt < 0 ∨ y.toInt ≥ height d)) ∨
        (∃ ox oy num den f, i = .reqLoad ox oy num den ∧ s.surface = some f ∧
          (ox.toInt < 0 ∨ oy.toInt < 0 ∨ ox.toInt + width d > f.sw ∨ oy.toInt + height d > f.sh)))) ∧
    t = answered (.error .outOfRange) s

/-- R164: IoError is raised by the requests that emit transactions and no other, at the first failed transaction, after which
the request emits nothing: every transaction before it was acknowledged, and its answer is the last one taken. That the bus
log keeps a failed transaction, with its answer, is the model's reading (log entry 13). -/
def Obligations.IoErrorCause : Prop :=
  ∀ (i : Instr) (s t : State), i.stream = .host → exec i s = .next t →
    t.responses = s.responses ++ [.error .ioError] →
    EmitsTransactions i ∧ ∃ before failed,
      t.busLog = s.busLog ++ allAcked before ++ [⟨failed, false⟩] ∧
      s.transportIn = acks before.length ++ .fail :: t.transportIn

/-! ### CONSTRUCT -/

/-- R102, R103 and R181: CONSTRUCT on a fresh instance, every transaction acknowledged, emits the row of R103 for its model
and power to its address, one byte a transaction under PerByte and one command a transaction under PerCommand, and leaves the
configuration latched, `contrast` the default, every pixel 0, `life` Active, and nothing else changed. The last TurnOn is the
spec's decision D9, the clear framebuffer D15 (log entry 15); the byte MM is free (log entry 1); framing is a field of State
(log entry 6). -/
def Obligations.ConstructBringsActive : Prop :=
  ∀ (s : State) (d : DisplayModel) (p : PowerMode) (a : BusAddr) (rest : List Answer), s.busy = false →
    s.life = .uninitialized → s.initFailed = false →
    let txns := commandTxns a (payloads s.framing (constructRow Config.memoryModeArg d p))
    s.transportIn = acks txns.length ++ rest →
    txns.length = (match s.framing with | .perByte => 25 | .perCommand => 16) ∧
    ∃ m, (∀ i, readBit m i = false) ∧
      exec (.reqConstruct (codeOf d) p true a) s =
        .next (answered (.ok []) { s with
          life := .active, model := some d, power := some p, busAddr := some a, contrast := some (defcon d p), fb := some m,
          txOpen := true, transportIn := rest, busLog := s.busLog ++ allAcked txns })

/-- R101 and R166: the k-th transaction of a CONSTRUCT fails: IoError, the first k + 1 transactions of R103's row in the bus
log and no more, `initFailed` = 1, `txOpen` = 0, `life` = Uninitialized. (MODEL, POWER, BUSADDR, `contrast` and FB are free:
log entry 2.) The dead instance is the spec's decision D12 (log entry 15); the bus log's failed entry is log entry 13. -/
def Obligations.ConstructFailureLeavesDead : Prop :=
  ∀ (s : State) (d : DisplayModel) (p : PowerMode) (a : BusAddr) (k : Nat) (rest : List Answer), s.busy = false →
    s.life = .uninitialized → s.initFailed = false →
    let txns := commandTxns a (payloads s.framing (constructRow Config.memoryModeArg d p))
    s.transportIn = acks k ++ .fail :: rest →
    ∀ hk : k < txns.length, ∃ t, exec (.reqConstruct (codeOf d) p true a) s = .next t ∧
      t.life = .uninitialized ∧ t.initFailed = true ∧ t.txOpen = false ∧
      t = answered (.error .ioError) { s with
        life := .uninitialized, initFailed := true, txOpen := false, model := t.model, power := t.power,
        busAddr := t.busAddr, contrast := t.contrast, fb := t.fb, draws := t.draws, transportIn := rest,
        busLog := s.busLog ++ allAcked (txns.take k) ++ [⟨txns[k], false⟩] }

/-! ### The other sequencer requests -/

/-- R104: SETACTIVE b sends TurnOn (0xAF) or TurnOff (0xAE), also when that is the present state, and then writes `life`;
nothing else changes. The repeated send is the spec's decision D10, the write after the acknowledgement D11 (log entry 15).
-/
def Obligations.SetactiveSwitchesLife : Prop :=
  ∀ (s : State) (a : BusAddr) (b : Bool) (rest : List Answer), s.busy = false → Usable s → s.txOpen = true →
    s.busAddr = some a → s.transportIn = .ack :: rest →
    exec (.reqSetactive b) s =
      .next (answered (.ok []) { s with
        life := if b then .active else .inactive, transportIn := rest,
        busLog := s.busLog ++ [⟨⟨a, 0x00, [if b then 0xAF else 0xAE]⟩, true⟩] })

/-- R105: SETCONTRAST c sends SetContrast (0x81) with argument c, any value, and then writes `contrast`; nothing else
changes. The write after the acknowledgement is the spec's decision D11 (log entry 15); framing is a field of State (log
entry 6). -/
def Obligations.SetcontrastPersistsValue : Prop :=
  ∀ (s : State) (a : BusAddr) (c : Byte) (rest : List Answer), s.busy = false → Usable s → s.txOpen = true →
    s.busAddr = some a →
    let txns := commandTxns a (payloads s.framing [[0x81, c]])
    s.transportIn = acks txns.length ++ rest →
    txns.length = (match s.framing with | .perByte => 2 | .perCommand => 1) ∧
    exec (.reqSetcontrast c) s =
      .next (answered (.ok []) { s with
        contrast := some c, transportIn := rest, busLog := s.busLog ++ allAcked txns })

/-- R106: RENDER sends the column range 0 to W-1, the page range 0 to P-1, and then one data transaction with control byte
0x40 that carries DATA[0] to DATA[N-1]; no register and no bit of FB changes. The data transaction's form is the spec's
decision D7, admission while Inactive D28 (log entry 15); framing is a field of State (log entry 6). -/
def Obligations.RenderSendsFramebuffer : Prop :=
  ∀ (s : State) (d : DisplayModel) (m : Memory) (a : BusAddr) (rest : List Answer), s.busy = false → Usable s →
    s.txOpen = true → s.busAddr = some a → s.model = some d → s.fb = some m →
    let ranges := commandTxns a (payloads s.framing
      [[0x21, 0x00, BitVec.ofNat 8 (width d - 1)], [0x22, 0x00, BitVec.ofNat 8 (height d / 8 - 1)]])
    let data : Txn := ⟨a, 0x40, (List.range (width d * height d / 8)).map (dataByte m)⟩
    s.transportIn = acks (ranges.length + 1) ++ rest →
    ranges.length + 1 = (match s.framing with | .perByte => 7 | .perCommand => 3) ∧
    exec .reqRender s =
      .next (answered (.ok []) { s with
        transportIn := rest, busLog := s.busLog ++ allAcked ranges ++ [⟨data, true⟩] })

/-- R107: the first DISPOSE sends TurnOff, from Active and from Inactive, and leaves Disposed with the handle released; if
the TurnOff fails it does so all the same and reports IoError; a second DISPOSE answers OK and does nothing. DISPOSE from
Inactive and after a failed TurnOff is the spec's decision D13 (log entry 15); the bus log's failed entry is log entry 13. -/
def Obligations.DisposeEndsInstance : Prop :=
  (∀ (s : State) (a : BusAddr) (rest : List Answer), s.busy = false → Usable s → s.txOpen = true → s.busAddr = some a →
    (s.transportIn = .ack :: rest → exec .reqDispose s =
      .next (answered (.ok []) { s with
        life := .disposed, txOpen := false, transportIn := rest, busLog := s.busLog ++ [⟨⟨a, 0x00, [0xAE]⟩, true⟩] })) ∧
    (s.transportIn = .fail :: rest → exec .reqDispose s =
      .next (answered (.error .ioError) { s with
        life := .disposed, txOpen := false, transportIn := rest, busLog := s.busLog ++ [⟨⟨a, 0x00, [0xAE]⟩, false⟩] }))) ∧
  (∀ s : State, s.busy = false → s.life = .disposed → exec .reqDispose s = .next (answered (.ok []) s)) ∧
  (∀ s : State, s.busy = false → s.life = .uninitialized →
    exec .reqDispose s = .next (answered (.error .usageError) s))

/-- R164 and R166: when transaction k of a SETACTIVE, SETCONTRAST or RENDER fails, the request answers IoError, nothing after
it is presented, the transactions acknowledged before it stay delivered, and the block state is unchanged; and however one of
them comes to answer IoError, the block state is unchanged. The unchanged registers are the spec's decisions D11 and D25 (log
entry 15); the bus log's failed entry is log entry 13; framing is a field of State (log entry 6). -/
def Obligations.IoErrorKeepsBlockState : Prop :=
  (∀ (i : Instr) (s t : State), ((∃ b, i = .reqSetactive b) ∨ (∃ c, i = .reqSetcontrast c) ∨ i = .reqRender) →
    exec i s = .next t → t.responses = s.responses ++ [.error .ioError] →
    t = answered (.error .ioError) { s with transportIn := t.transportIn, busLog := t.busLog }) ∧
  ∀ (i : Instr) (s : State) (a : BusAddr) (d : DisplayModel) (m : Memory) (k : Nat) (rest : List Answer),
    ((∃ b, i = .reqSetactive b) ∨ (∃ c, i = .reqSetcontrast c) ∨ i = .reqRender) →
    s.busy = false → Usable s → s.txOpen = true → s.busAddr = some a → s.model = some d → s.fb = some m →
    let txns := requestTxns s.framing a d m i
    s.transportIn = acks k ++ .fail :: rest →
    ∀ hk : k < txns.length, exec i s = .next (answered (.error .ioError) { s with
      transportIn := rest, busLog := s.busLog ++ allAcked (txns.take k) ++ [⟨txns[k], false⟩] })

/-- R108, R109 and R110: the accessors, the bytes 0x0B, 0x0C and 0x0D, answer `contrast`, whether `life` is Active, and W, H,
P; they write no state and emit no transaction, and their only exception is the gate's UsageError. GETGEOM is the spec's
decision D29, the codes D2 (log entry 15). -/
def Obligations.AccessorsAnswer : Prop :=
  decode .host [0x0B] = .instr .reqGetcontrast ∧ decode .host [0x0C] = .instr .reqGetactive ∧
  decode .host [0x0D] = .instr .reqGetgeom ∧
  ∀ s : State, s.busy = false →
    (Usable s →
      (∀ c, s.contrast = some c → exec .reqGetcontrast s = .next (answered (.ok [c]) s)) ∧
      exec .reqGetactive s = .next (answered (.ok [if s.life = .active then 0x01 else 0x00]) s) ∧
      (s.model = some .m128x64 → exec .reqGetgeom s = .next (answered (.ok [0x80, 0x40, 0x08]) s)) ∧
      (s.model = some .m128x32 → exec .reqGetgeom s = .next (answered (.ok [0x80, 0x20, 0x04]) s)) ∧
      (s.model = some .m96x16 → exec .reqGetgeom s = .next (answered (.ok [0x60, 0x10, 0x02]) s))) ∧
    (¬ Usable s → ∀ i ∈ ([.reqGetcontrast, .reqGetactive, .reqGetgeom] : List Instr),
      exec i s = .next (answered (.error .usageError) s))

/-! ### Wire commands and the data transaction -/

/-- R12, R64 and R130 to R153: each of the 24 wire commands, emitted with the handle held, sends its bytes to BUSADDR with
control byte 0x00, one byte a transaction under PerByte, one command a transaction under PerCommand, and completes once they
are acknowledged; it writes no block flag, no configuration register and no bit of FB. `seqPC` counts it, and after the last
step of a sequence the request in progress, if there is one, ends with OK (R27, R100). The meaning of a wire command is its
emission as the present step of the sequencer, and with no request in progress it gives no response: the model's choice (log
entry 11). -/
def Obligations.WireCommandsSendTheirBytes : Prop :=
  ∀ (i : Instr) (s : State) (a : BusAddr) (d : DisplayModel) (p : PowerMode) (rest : List Answer), i.stream = .command →
    s.txOpen = true → s.busAddr = some a → s.model = some d → s.power = some p → s.job ≠ some .dispose →
    let txns := commandTxns a (payloads s.framing [encode i])
    s.transportIn = acks txns.length ++ rest →
    ∃ t, exec i s = .next t ∧ t.transportIn = rest ∧ t.busLog = s.busLog ++ allAcked txns ∧
      t.initFailed = s.initFailed ∧ t.model = s.model ∧ t.power = s.power ∧ t.busAddr = s.busAddr ∧ t.fb = s.fb ∧
      t.txOpen = s.txOpen ∧ t.hostIn = s.hostIn ∧ t.surface = s.surface ∧ t.framing = s.framing ∧ t.draws = s.draws ∧
      (s.script = [] → t.busy = false ∧ t.seqPC = 0 ∧ t.responses = s.responses ++ (if s.job = none then [] else [.ok []])) ∧
      (s.script ≠ [] → t.busy = s.busy ∧ t.seqPC = s.seqPC + 1 ∧ t.responses = s.responses ∧ t.script = s.script ∧
        t.job = s.job)

/-- R64 and R106: the data transaction is one transaction with control byte 0x40 under both framings, and it writes no
register, no flag and no bit of FB. One 0x40 is the spec's decision D7 (log entry 15); the data transaction as an instruction
is log entry 11. -/
def Obligations.DataTransactionIsOneWrite : Prop :=
  ∀ (data : List Byte) (s : State) (a : BusAddr) (rest : List Answer), s.job = some .render → s.txOpen = true →
    s.busAddr = some a → s.transportIn = .ack :: rest →
    ∃ t, exec (.displayData data) s = .next t ∧ t.transportIn = rest ∧
      t.busLog = s.busLog ++ [⟨⟨a, 0x40, data⟩, true⟩] ∧ t.life = s.life ∧ t.contrast = s.contrast ∧
      t.initFailed = s.initFailed ∧ t.model = s.model ∧ t.power = s.power ∧ t.busAddr = s.busAddr ∧ t.fb = s.fb ∧
      t.txOpen = s.txOpen ∧ t.hostIn = s.hostIn ∧ t.surface = s.surface ∧ t.framing = s.framing ∧ t.draws = s.draws ∧
      (s.script = [] → t.busy = false ∧ t.seqPC = 0 ∧ t.responses = s.responses ++ [.ok []]) ∧
      (s.script ≠ [] → t.busy = s.busy ∧ t.seqPC = s.seqPC + 1 ∧ t.responses = s.responses ∧ t.script = s.script)

/-- R101, R104, R105, R107, R130, R135 and R136: which register an acknowledged command writes, by the request in progress
and its step: `contrast` by SETCONTRAST and by step 10 of CONSTRUCT, `life` by SETACTIVE, DISPOSE and steps 14 and 15 of
CONSTRUCT, and nothing at any other step. Writes after the acknowledgement are the spec's decision D11 (log entry 15); a
command with no request in progress writes nothing: log entry 11. -/
def Obligations.AcknowledgedCommandWrites : Prop :=
  ∀ (i : Instr) (s : State) (a : BusAddr) (d : DisplayModel) (p : PowerMode) (rest : List Answer), i.stream = .command →
    s.txOpen = true → s.busAddr = some a → s.model = some d → s.power = some p →
    s.transportIn = acks (payloads s.framing [encode i]).length ++ rest →
    ∃ t, exec i s = .next t ∧
      (∀ c, s.job = some (.setContrast c) → t.contrast = some c ∧ t.life = s.life) ∧
      (∀ b, s.job = some (.setActive b) → t.life = (if b then .active else .inactive) ∧ t.contrast = s.contrast) ∧
      (s.job = some .dispose → s.script = [] → t.life = .disposed ∧ t.txOpen = false ∧ t.contrast = s.contrast) ∧
      (s.job = some .construct →
        t.contrast = (if s.seqPC = 10 then some (defcon d p) else s.contrast) ∧
        t.life = (if s.seqPC = 14 then .inactive else if s.seqPC = 15 then .active else s.life)) ∧
      (s.job = none ∨ s.job = some .render → t.life = s.life ∧ t.contrast = s.contrast)

/-- R12 and R100: a wire command or data transaction whose k-th transaction fails presents no later one, and the request in
progress ends; unless that is a CONSTRUCT or a DISPOSE no register changes. With no request in progress nothing is answered:
the model's choice (log entry 11); the bus log's failed entry is log entry 13. -/
def Obligations.FailedStepEndsSequence : Prop :=
  ∀ (i : Instr) (s : State) (a : BusAddr) (k : Nat) (rest : List Answer), i.stream ≠ .host →
    s.txOpen = true → s.busAddr = some a →
    let txns := match i with
      | .displayData data => [(⟨a, 0x40, data⟩ : Txn)]
      | _ => commandTxns a (payloads s.framing [encode i])
    s.transportIn = acks k ++ .fail :: rest →
    ∀ hk : k < txns.length, ∃ t, exec i s = .next t ∧ t.busy = false ∧ t.seqPC = 0 ∧ t.transportIn = rest ∧
      t.busLog = s.busLog ++ allAcked (txns.take k) ++ [⟨txns[k], false⟩] ∧
      (s.job ≠ none → t.responses = s.responses ++ [.error .ioError]) ∧ (s.job = none → t.responses = s.responses) ∧
      (s.job ≠ some .construct → s.job ≠ some .dispose →
        t.life = s.life ∧ t.contrast = s.contrast ∧ t.initFailed = s.initFailed ∧ t.txOpen = s.txOpen ∧
        t.model = s.model ∧ t.power = s.power ∧ t.busAddr = s.busAddr ∧ t.fb = s.fb)

/-! ### Waiting, reset and the step -/

/-- R50 and R178: a transaction the transport never answers leaves the block with no step, for ever: however many steps are
taken, unless a reset is asserted or the surface port changes, the state is the same. A hang is shown as a step to the same
state: the model's choice (log entry 10). -/
def Obligations.SilentTransportHangs : Prop :=
  ∀ s : State, s.busy = true → s.inFlight ≠ [] → NoAnswer s.transportIn → (∀ rest, s.hostIn ≠ .reset :: rest) →
    (∀ f rest, s.hostIn ≠ .surface f :: rest) → ∀ n, Host.Core.run core n s = .next s

/-- R28 and R50: a request whose transaction k gets no answer stays in progress: `busy` is 1, its transactions before k are
acknowledged in the bus log, transaction k is the one on the port, and no response is given. SETACTIVE, SETCONTRAST, RENDER
and DISPOSE have then written no register; a CONSTRUCT has latched its configuration, taken the handle, cleared FB, written
`contrast` if step 10 is acknowledged, and `life` Inactive if only the last transaction is missing (R22, R101). The step that
stops there is the model's (log entry 4); that the unanswered transaction is on the port and not in the bus log is log entry
13. -/
def Obligations.UnansweredRequestWaits : Prop :=
  (∀ (i : Instr) (s : State) (a : BusAddr) (d : DisplayModel) (m : Memory) (p : PowerMode) (k : Nat) (rest : List Answer),
    ((∃ b, i = .reqSetactive b) ∨ (∃ c, i = .reqSetcontrast c) ∨ i = .reqRender ∨ i = .reqDispose) →
    s.busy = false → Usable s → s.txOpen = true → s.busAddr = some a → s.model = some d → s.power = some p →
    s.fb = some m →
    let txns := requestTxns s.framing a d m i
    s.transportIn = acks k ++ rest → NoAnswer rest →
    ∀ hk : k < txns.length, ∃ t, exec i s = .next t ∧ t.busy = true ∧ t.inFlight.head? = some txns[k] ∧
      t.busLog = s.busLog ++ allAcked (txns.take k) ∧ t.responses = s.responses ∧ t.transportIn = rest ∧ t.life = s.life ∧
      t.contrast = s.contrast ∧ t.txOpen = s.txOpen ∧ OnlySequenceWrites s t) ∧
  ∀ (s : State) (a : BusAddr) (d : DisplayModel) (p : PowerMode) (k : Nat) (rest : List Answer),
    s.busy = false → s.life = .uninitialized → s.initFailed = false →
    let txns := commandTxns a (payloads s.framing (constructRow Config.memoryModeArg d p))
    s.transportIn = acks k ++ rest → NoAnswer rest →
    ∀ hk : k < txns.length, ∃ t m, exec (.reqConstruct (codeOf d) p true a) s = .next t ∧ t.busy = true ∧
      t.inFlight.head? = some txns[k] ∧ t.busLog = s.busLog ++ allAcked (txns.take k) ∧ t.responses = s.responses ∧
      t.transportIn = rest ∧ t.model = some d ∧ t.power = some p ∧ t.busAddr = some a ∧ t.txOpen = true ∧
      t.fb = some m ∧ (∀ j, readBit m j = false) ∧ t.initFailed = false ∧
      t.contrast = (if (match s.framing with | .perByte => 18 | .perCommand => 11) ≤ k then some (defcon d p) else s.contrast) ∧
      t.life = (if k + 1 = txns.length then .inactive else .uninitialized) ∧
      t.hostIn = s.hostIn ∧ t.surface = s.surface ∧ t.framing = s.framing ∧ t.draws = s.draws

/-- R50 and R54: a request in progress completes with OK within 17 steps once the transport acknowledges every transaction,
with the registers its rule writes (R101, R104 to R107): `contrast` by SETCONTRAST and CONSTRUCT, `life` by SETACTIVE,
CONSTRUCT and DISPOSE, and the handle released by DISPOSE; the rest of the block is as it was. The count of steps is the
model's (log entry 4). -/
def Obligations.WaitingRequestCompletes : Prop :=
  ∀ (s : State) (n : Nat) (rest : List Answer), Inv s → s.busy = true → Undisturbed s →
    s.transportIn = acks n ++ rest → 25 ≤ n →
    ∃ k t, k ≤ 17 ∧ Host.Core.run core k s = .next t ∧ t.busy = false ∧ t.responses = s.responses ++ [.ok []] ∧
      OnlySequenceWrites s t ∧
      (∀ c, s.job = some (.setContrast c) → t.contrast = some c ∧ t.life = s.life ∧ t.txOpen = s.txOpen) ∧
      (∀ b, s.job = some (.setActive b) →
        t.life = (if b then .active else .inactive) ∧ t.contrast = s.contrast ∧ t.txOpen = s.txOpen) ∧
      (s.job = some .render → t.life = s.life ∧ t.contrast = s.contrast ∧ t.txOpen = s.txOpen) ∧
      (s.job = some .dispose → t.life = .disposed ∧ t.contrast = s.contrast ∧ t.txOpen = false) ∧
      (s.job = some .construct → t.life = .active ∧ t.txOpen = true ∧
        ∀ d p, s.model = some d → s.power = some p →
          t.contrast = if s.seqPC.toNat ≤ 10 then some (defcon d p) else s.contrast)

/-- R180: block reset, whatever the block is doing: the request in progress is abandoned without a response, every element
takes its reset value, no transaction is emitted, and the bus log is kept. A reset asserted after the last answer of a
request and before its response withholds the response: the request's transactions stay in the bus log and the block is as
after any reset; while the request still waits for an answer the block goes on. R180 is the spec's decision D31 (log entry
15); that the bus log, the given responses, the surface and the framing stay is the model's choice (log entry 12), and the
two events are log entry 4's. -/
def Obligations.BlockResetRestoresFresh : Prop :=
  (∀ (s : State) (rest : List HostEvent), s.hostIn = .reset :: rest →
    ∃ t, step s = .next t ∧ AfterReset t ∧ t.responses = s.responses ∧ t.busLog = s.busLog ∧ t.hostIn = rest ∧
      t.surface = s.surface ∧ t.framing = s.framing) ∧
  (∀ (s u : State) (i : Instr) (q : List Byte) (rest : List HostEvent), s.busy = false →
    s.hostIn = .request q :: .resetAtResponse :: rest → decode .host q = .instr i →
    exec i { s with hostIn := .resetAtResponse :: rest } = .next u →
    (u.busy = false → ∃ t, step s = .next t ∧ AfterReset t ∧ t.responses = s.responses ∧ t.busLog = u.busLog ∧
      t.hostIn = rest ∧ t.surface = s.surface ∧ t.framing = s.framing) ∧
    (u.busy = true → step s = .next u)) ∧
  ∀ (s u : State) (rest : List HostEvent), s.hostIn = .resetAtResponse :: rest → stepBlock s = .next u →
    (u.busy = false → ∃ t, step s = .next t ∧ AfterReset t ∧ t.responses = s.responses ∧ t.busLog = u.busLog ∧
      t.hostIn = rest ∧ t.surface = u.surface ∧ t.framing = u.framing) ∧
    (u.busy = true → step s = .next u)

/-- R33: the "after block reset" column. R33 is the spec's decision D31 (log entries 3 and 15). -/
def Obligations.ResetColumn : Prop :=
  State.reset.life = .uninitialized ∧ State.reset.initFailed = false ∧ State.reset.model = none ∧ State.reset.power = none ∧
  State.reset.busAddr = none ∧ State.reset.contrast = none ∧ State.reset.fb = none ∧ State.reset.seqPC = 0 ∧
  State.reset.busy = false ∧ State.reset.txOpen = false

/-- A step runs the decoded instruction: an idle block takes the request at the host port; a busy block with no transaction
waiting takes the next command or data transaction of its sequence. (No reset is asserted and the surface port does not
change in that step; BlockResetRestoresFresh and SurfacePort say what these do.) The ports as lists and the step are the
model's (log entries 4, 5 and 11). -/
def Obligations.StepRunsDecodedInstruction : Prop :=
  (∀ (s : State) (i : Instr) (q : List Byte) (rest : List HostEvent), s.busy = false → s.hostIn = .request q :: rest →
    (∀ r, rest ≠ .resetAtResponse :: r) → decode .host q = .instr i → step s = exec i { s with hostIn := rest }) ∧
  (∀ (s : State) (i : Instr) (bytes : List Byte) (rest : List SeqStep), s.busy = true → s.inFlight = [] →
    Undisturbed s → s.script = ⟨0x00, bytes⟩ :: rest → decode .command bytes = .instr i →
    step s = exec i { s with script := rest }) ∧
  (∀ (s : State) (i : Instr) (data : List Byte) (rest : List SeqStep), s.busy = true → s.inFlight = [] →
    Undisturbed s → s.script = ⟨0x40, data⟩ :: rest → decode .data (0x40 :: data) = .instr i →
    step s = exec i { s with script := rest })

/-! ### Whole-machine rules -/

/-- The invariant of R32 holds after reset. The clauses about a request in progress and the canonical form are the model's
(log entries 14 and 17). -/
def Obligations.InvariantAtReset : Prop := Inv State.reset

/-- The invariant of R32 is kept by every step, whatever the host and the transport do. R32 is the spec's inference
(derived); the clauses about a request in progress and the canonical form are the model's (log entries 14 and 17). -/
def Obligations.StepKeepsInvariant : Prop :=
  ∀ s t : State, Inv s → step s = .next t → Inv t

/-- No step from a state that meets the invariant is a fault (R24: no request reads a register with no value). The fault is
the spec's own (R24, R33, U3); that no value is written as none is log entry 3. -/
def Obligations.NoFaultFromInvariant : Prop :=
  ∀ (s : State) (r : Fault), Inv s → step s ≠ .fault r

/-- R22: only the listed transitions. Served by an idle block, only CONSTRUCT, SETACTIVE and DISPOSE change `life`, and only
along the transitions listed. From every state that meets the invariant, a step that changes `life` serves a reset, takes
such a request, or goes on with one. A CONSTRUCT that waits at its last transaction is in its internal Inactive (log entry
17). -/
def Obligations.LifeTransitionsListed : Prop :=
  (∀ (i : Instr) (s t : State), i.stream = .host → exec i s = .next t → t.life ≠ s.life →
    (s.life = .uninitialized ∧ (∃ model power tp addr, i = .reqConstruct model power tp addr) ∧
      ((t.life = .active ∧ t.busy = false) ∨ (t.life = .inactive ∧ t.busy = true))) ∨
    (Usable s ∧ ∃ b, i = .reqSetactive b ∧ t.life = if b then .active else .inactive) ∨
    (Usable s ∧ i = .reqDispose ∧ t.life = .disposed)) ∧
  ∀ s t : State, Inv s → step s = .next t → t.life ≠ s.life →
    (ResetServed s t ∧ t.life = .uninitialized) ∨
    (s.busy = false ∧ ∃ q rest i, s.hostIn = .request q :: rest ∧ decode .host q = .instr i ∧
      ((s.life = .uninitialized ∧ s.initFailed = false ∧ (∃ model power addr, i = .reqConstruct model power true addr) ∧
          ((t.life = .active ∧ t.busy = false) ∨ (t.life = .inactive ∧ t.busy = true))) ∨
        (Usable s ∧ ∃ b, i = .reqSetactive b ∧ t.life = if b then .active else .inactive) ∨
        (Usable s ∧ i = .reqDispose ∧ t.life = .disposed))) ∨
    (s.busy = true ∧
      ((s.job = some .construct ∧
          ((s.life = .uninitialized ∧ t.life = .inactive ∧ t.busy = true) ∨ (s.life = .inactive ∧ t.life = .active ∧ t.busy = false) ∨
            (s.life = .inactive ∧ t.life = .uninitialized ∧ t.initFailed = true ∧ t.busy = false))) ∨
        (Usable s ∧ ∃ b, s.job = some (.setActive b) ∧ t.life = if b then .active else .inactive) ∨
        (Usable s ∧ s.job = some .dispose ∧ t.life = .disposed)))

/-- R24: MODEL, POWER and BUSADDR are written only by a CONSTRUCT that passes validation. From every state that meets the
invariant, a step that changes one of them serves a reset, takes such a CONSTRUCT, or ends one with IoError, after which they
are unspecified (R101). What they hold after that IoError is free (log entry 2). -/
def Obligations.ConfigurationWrittenByConstructOnly : Prop :=
  (∀ (i : Instr) (s t : State), i.stream = .host → exec i s = .next t →
    ¬ (t.model = s.model ∧ t.power = s.power ∧ t.busAddr = s.busAddr) →
    ∃ model power addr, i = .reqConstruct model power true addr ∧ model ≠ 3 ∧ s.life = .uninitialized ∧ s.initFailed = false) ∧
  ∀ s t : State, Inv s → step s = .next t → ¬ (t.model = s.model ∧ t.power = s.power ∧ t.busAddr = s.busAddr) →
    (ResetServed s t ∧ t.model = none ∧ t.power = none ∧ t.busAddr = none) ∨
    (s.busy = false ∧ s.life = .uninitialized ∧ s.initFailed = false ∧ ∃ q rest model power addr,
      s.hostIn = .request q :: rest ∧ decode .host q = .instr (.reqConstruct model power true addr) ∧ model ≠ 3) ∨
    (s.busy = true ∧ s.job = some .construct ∧ t.initFailed = true ∧ t.responses = s.responses ++ [.error .ioError])

/-- R23: nothing but block reset clears `initFailed`; while it is 1 the instance emits no transaction and stays
Uninitialized. The dead instance is the spec's decision D12 (log entry 15); what the bus log holds is log entry 13. -/
def Obligations.InitFailedIsSticky : Prop :=
  ∀ s t : State, Inv s → s.initFailed = true → step s = .next t → ¬ ResetServed s t →
    t.initFailed = true ∧ t.life = .uninitialized ∧ t.busLog = s.busLog

/-- R30: while `txOpen` = 0 the block emits no transaction; the only step that emits one and begins with `txOpen` = 0 is a
CONSTRUCT that takes the handle, on a fresh instance. txOpen is the spec's decision D33 (log entry 15); what the bus log
holds is log entry 13. -/
def Obligations.ClosedHandleEmitsNothing : Prop :=
  ∀ s t : State, s.txOpen = false → step s = .next t → t.busLog ≠ s.busLog →
    s.busy = false ∧ s.life = .uninitialized ∧ s.initFailed = false ∧
    ∃ q rest model power addr, s.hostIn = .request q :: rest ∧
      decode .host q = .instr (.reqConstruct model power true addr) ∧ model ≠ 3

/-- R48 and R49: the bus log only grows; what one step adds goes to one address, BUSADDR unless the step is a CONSTRUCT that
latches it, with control byte 0x00 or 0x40. That the bus log holds failed transactions too, and none that waits for its
answer, is log entry 13. -/
def Obligations.BusLogGrowsToBusaddr : Prop :=
  ∀ s t : State, Inv s → step s = .next t →
    ∃ new, t.busLog = s.busLog ++ new ∧
      ∀ e ∈ new, (e.txn.ctrl = 0x00 ∨ e.txn.ctrl = 0x40) ∧
        (s.busAddr = some e.txn.addr ∨
          (s.busy = false ∧ ∃ q rest model power, s.hostIn = .request q :: rest ∧
            decode .host q = .instr (.reqConstruct model power true e.txn.addr)))

/-- R67: the six commands are never emitted. Every step of every sequence decodes, to one of the eighteen commands some
request emits or to the data transaction. And from every state that meets the invariant, whose bus log reads as whole
commands other than the six once the transactions in flight are acknowledged, whatever a step does, a reader of the bus log
reads none of the six: it reads whole commands, and at most a command whose argument bytes are still missing (R65, R66,
R166). The absence of a raw-command request is the spec's decision D27 (log entry 15); reading the acknowledged transactions
only is log entry 13, and what a reader does with a command that a reset cut is log entry 18. -/
def Obligations.UnusedCommandsNeverEmitted : Prop :=
  (∀ (s : State) (j : Job) (st : SeqStep), Configured s → st ∈ jobSequence s j →
    ∃ i, decodeStep st = .instr i ∧ i ∉ neverEmitted) ∧
  ∀ (s t : State) (commands : List Instr), Inv s → logReading s = .atOpcode commands → (∀ i ∈ commands, i ∉ neverEmitted) →
    step s = .next t →
    ∃ read, (∀ i ∈ read, i ∉ neverEmitted) ∧
      (readBusLog t.busLog = .atOpcode read ∨ ∃ op args left, readBusLog t.busLog = .inCommand read op args left)

/-- R53 and R80: the requests that emit no transaction leave everything but FB, the response and the request-in-progress
registers as it is; only SETPX, CLEAR and LOAD change FB. The registers of the request in progress are the model's (log entry
17). -/
def Obligations.NonEmittingRequestsFrame : Prop :=
  ∀ (i : Instr) (s t : State), i.stream = .host → ¬ EmitsTransactions i → exec i s = .next t →
    ∃ r, t = answered r { s with fb := t.fb } ∧
      (t.fb ≠ s.fb → (∃ x y v, i = .reqSetpx x y v) ∨ i = .reqClear ∨ ∃ ox oy num den, i = .reqLoad ox oy num den)

/-- R23, R24, R29, R104 to R107 and R187: SETACTIVE, SETCONTRAST, RENDER and DISPOSE leave FB and the configuration as they
are. That the framing, the host port and the counter of free draws are fields that stay is the model's (log entries 2, 5 and
6). -/
def Obligations.SequencerRequestsKeepFramebuffer : Prop :=
  ∀ (i : Instr) (s t : State), ((∃ b, i = .reqSetactive b) ∨ (∃ c, i = .reqSetcontrast c) ∨ i = .reqRender ∨ i = .reqDispose) →
    exec i s = .next t →
    t.fb = s.fb ∧ t.model = s.model ∧ t.power = s.power ∧ t.busAddr = s.busAddr ∧ t.initFailed = s.initFailed ∧
    t.surface = s.surface ∧ t.framing = s.framing ∧ t.hostIn = s.hostIn ∧ t.draws = s.draws

/-! ### A waiting request, the surface port, and the reading of the bus log -/

/-- R100, R101 and R104 to R107: how a request whose transactions wait on the port goes on. When they are acknowledged, the
step writes the register its rule writes then, is counted, and ends the request with OK if it is the last. When transaction k
fails, nothing after it is emitted and the request ends with IoError in the state of R166. Without an answer the request
waits on. That one step finishes the waiting step of the sequence is the model's (log entry 4); the bus log's failed entry is
log entry 13. -/
def Obligations.WaitingRequestGoesOn : Prop :=
  ∀ (s : State) (d : DisplayModel) (p : PowerMode), Inv s → s.busy = true → s.inFlight ≠ [] → Undisturbed s →
    s.model = some d → s.power = some p →
    (∀ rest, s.transportIn = acks s.inFlight.length ++ rest → ∃ t, step s = .next t ∧ t.transportIn = rest ∧
      t.inFlight = [] ∧ t.busLog = s.busLog ++ allAcked s.inFlight ∧ OnlySequenceWrites s t ∧
      (∀ c, s.job = some (.setContrast c) → t.contrast = some c ∧ t.life = s.life ∧ t.txOpen = s.txOpen) ∧
      (∀ b, s.job = some (.setActive b) →
        t.life = (if b then .active else .inactive) ∧ t.contrast = s.contrast ∧ t.txOpen = s.txOpen) ∧
      (s.job = some .render → t.life = s.life ∧ t.contrast = s.contrast ∧ t.txOpen = s.txOpen) ∧
      (s.job = some .dispose → t.life = .disposed ∧ t.contrast = s.contrast ∧ t.txOpen = false) ∧
      (s.job = some .construct →
        t.contrast = (if s.seqPC = 10 then some (defcon d p) else s.contrast) ∧
        t.life = (if s.seqPC = 14 then .inactive else if s.seqPC = 15 then .active else s.life) ∧ t.txOpen = s.txOpen) ∧
      (s.script = [] → t.busy = false ∧ t.seqPC = 0 ∧ t.job = none ∧ t.responses = s.responses ++ [.ok []]) ∧
      (s.script ≠ [] → t.busy = true ∧ t.seqPC = s.seqPC + 1 ∧ t.job = s.job ∧ t.script = s.script ∧
        t.responses = s.responses)) ∧
    (∀ k rest, s.transportIn = acks k ++ .fail :: rest → ∀ hk : k < s.inFlight.length, ∃ t, step s = .next t ∧
      t.transportIn = rest ∧ t.busLog = s.busLog ++ allAcked (s.inFlight.take k) ++ [⟨s.inFlight[k], false⟩] ∧
      t.responses = s.responses ++ [.error .ioError] ∧ t.busy = false ∧ t.seqPC = 0 ∧ t.job = none ∧ t.script = [] ∧
      t.inFlight = [] ∧ t.hostIn = s.hostIn ∧ t.surface = s.surface ∧ t.framing = s.framing ∧
      (s.job = some .construct → t.initFailed = true ∧ t.txOpen = false ∧ t.life = .uninitialized) ∧
      (s.job = some .dispose →
        t.life = .disposed ∧ t.txOpen = false ∧ t.contrast = s.contrast ∧ OnlySequenceWrites s t) ∧
      (s.job ≠ some .construct → s.job ≠ some .dispose →
        t.life = s.life ∧ t.txOpen = s.txOpen ∧ t.contrast = s.contrast ∧ OnlySequenceWrites s t)) ∧
    ∀ k rest, s.transportIn = acks k ++ rest → NoAnswer rest → k < s.inFlight.length →
      step s = .next { s with
        transportIn := rest, busLog := s.busLog ++ allAcked (s.inFlight.take k), inFlight := s.inFlight.drop k }

/-- R47: the surface port. Pixels of different coordinates inside the surface have different indexes sy * SW + sx; SurfRead
gives the first pixel listed at its index, and black where none is listed; and the port may change between two requests,
which changes nothing else and answers nothing. The list of pixels by index, black where none is listed, is the model's (log
entry 14); the port's changes as events are log entry 5. -/
def Obligations.SurfacePort : Prop :=
  (∀ (f : Surface) (sx sy : Nat), sx < f.sw → sy < f.sh →
    (∀ sx' sy', sx' < f.sw → sy' * f.sw + sx' = sy * f.sw + sx → sx' = sx ∧ sy' = sy) ∧
    (∀ before after pixel, f.pixels = before ++ (sy * f.sw + sx, pixel) :: after →
      (∀ e ∈ before, e.1 ≠ sy * f.sw + sx) → surfRead f sx sy = pixel) ∧
    ((∀ e ∈ f.pixels, e.1 ≠ sy * f.sw + sx) → surfRead f sx sy = ⟨0, 0, 0⟩)) ∧
  ∀ (s : State) (f : Option Surface) (rest : List HostEvent), s.hostIn = .surface f :: rest →
    step s = .next { s with surface := f, hostIn := rest }

/-- R65: the block emits only whole commands. From every state that meets the invariant, whose bus log reads as whole
commands once the transactions in flight are acknowledged, a step that ends in no IoError and serves no reset leaves such a
state, and the reader has read the same commands and maybe more. Between requests nothing is in flight, so the reader is then
at an opcode position. The reader is the spec's inference (R65, derived); reading the acknowledged transactions only is log
entry 13, and what a reader does with a command that a reset cut is log entry 18. -/
def Obligations.BusLogReadsBack : Prop :=
  ∀ (s t : State) (commands : List Instr), Inv s → logReading s = .atOpcode commands → step s = .next t →
    t.responses ≠ s.responses ++ [.error .ioError] → ¬ ResetServed s t →
    ∃ more, logReading t = .atOpcode (commands ++ more) ∧ (t.busy = false → readBusLog t.busLog = .atOpcode (commands ++ more))
end

