-- ==== Sys2Proof/Laws/State.lean ====
section
/-! SUPPORT. The field lemmas of the named updates of State: what each field reads after the update. -/

namespace Sys2Proof.Machine

/-! ### accepted -/

@[simp] theorem accepted_life (s : State) : (accepted s).life = s.life := rfl
@[simp] theorem accepted_initFailed (s : State) : (accepted s).initFailed = s.initFailed := rfl
@[simp] theorem accepted_model (s : State) : (accepted s).model = s.model := rfl
@[simp] theorem accepted_power (s : State) : (accepted s).power = s.power := rfl
@[simp] theorem accepted_busAddr (s : State) : (accepted s).busAddr = s.busAddr := rfl
@[simp] theorem accepted_contrast (s : State) : (accepted s).contrast = s.contrast := rfl
@[simp] theorem accepted_fb (s : State) : (accepted s).fb = s.fb := rfl
@[simp] theorem accepted_seqPC (s : State) : (accepted s).seqPC = 0 := rfl
@[simp] theorem accepted_busy (s : State) : (accepted s).busy = true := rfl
@[simp] theorem accepted_txOpen (s : State) : (accepted s).txOpen = s.txOpen := rfl
@[simp] theorem accepted_job (s : State) : (accepted s).job = s.job := rfl
@[simp] theorem accepted_script (s : State) : (accepted s).script = s.script := rfl
@[simp] theorem accepted_inFlight (s : State) : (accepted s).inFlight = s.inFlight := rfl
@[simp] theorem accepted_hostIn (s : State) : (accepted s).hostIn = s.hostIn := rfl
@[simp] theorem accepted_responses (s : State) : (accepted s).responses = s.responses := rfl
@[simp] theorem accepted_transportIn (s : State) : (accepted s).transportIn = s.transportIn := rfl
@[simp] theorem accepted_busLog (s : State) : (accepted s).busLog = s.busLog := rfl
@[simp] theorem accepted_surface (s : State) : (accepted s).surface = s.surface := rfl
@[simp] theorem accepted_framing (s : State) : (accepted s).framing = s.framing := rfl
@[simp] theorem accepted_draws (s : State) : (accepted s).draws = s.draws := rfl

/-! ### toIdle -/

@[simp] theorem toIdle_life (s : State) : (toIdle s).life = s.life := rfl
@[simp] theorem toIdle_initFailed (s : State) : (toIdle s).initFailed = s.initFailed := rfl
@[simp] theorem toIdle_model (s : State) : (toIdle s).model = s.model := rfl
@[simp] theorem toIdle_power (s : State) : (toIdle s).power = s.power := rfl
@[simp] theorem toIdle_busAddr (s : State) : (toIdle s).busAddr = s.busAddr := rfl
@[simp] theorem toIdle_contrast (s : State) : (toIdle s).contrast = s.contrast := rfl
@[simp] theorem toIdle_fb (s : State) : (toIdle s).fb = s.fb := rfl
@[simp] theorem toIdle_seqPC (s : State) : (toIdle s).seqPC = 0 := rfl
@[simp] theorem toIdle_busy (s : State) : (toIdle s).busy = false := rfl
@[simp] theorem toIdle_txOpen (s : State) : (toIdle s).txOpen = s.txOpen := rfl
@[simp] theorem toIdle_job (s : State) : (toIdle s).job = none := rfl
@[simp] theorem toIdle_script (s : State) : (toIdle s).script = [] := rfl
@[simp] theorem toIdle_inFlight (s : State) : (toIdle s).inFlight = [] := rfl
@[simp] theorem toIdle_hostIn (s : State) : (toIdle s).hostIn = s.hostIn := rfl
@[simp] theorem toIdle_responses (s : State) : (toIdle s).responses = s.responses := rfl
@[simp] theorem toIdle_transportIn (s : State) : (toIdle s).transportIn = s.transportIn := rfl
@[simp] theorem toIdle_busLog (s : State) : (toIdle s).busLog = s.busLog := rfl
@[simp] theorem toIdle_surface (s : State) : (toIdle s).surface = s.surface := rfl
@[simp] theorem toIdle_framing (s : State) : (toIdle s).framing = s.framing := rfl
@[simp] theorem toIdle_draws (s : State) : (toIdle s).draws = s.draws := rfl

/-! ### giveResponse -/

@[simp] theorem giveResponse_life (r : Response) (s : State) : (giveResponse r s).life = s.life := rfl
@[simp] theorem giveResponse_initFailed (r : Response) (s : State) : (giveResponse r s).initFailed = s.initFailed := rfl
@[simp] theorem giveResponse_model (r : Response) (s : State) : (giveResponse r s).model = s.model := rfl
@[simp] theorem giveResponse_power (r : Response) (s : State) : (giveResponse r s).power = s.power := rfl
@[simp] theorem giveResponse_busAddr (r : Response) (s : State) : (giveResponse r s).busAddr = s.busAddr := rfl
@[simp] theorem giveResponse_contrast (r : Response) (s : State) : (giveResponse r s).contrast = s.contrast := rfl
@[simp] theorem giveResponse_fb (r : Response) (s : State) : (giveResponse r s).fb = s.fb := rfl
@[simp] theorem giveResponse_seqPC (r : Response) (s : State) : (giveResponse r s).seqPC = 0 := rfl
@[simp] theorem giveResponse_busy (r : Response) (s : State) : (giveResponse r s).busy = false := rfl
@[simp] theorem giveResponse_txOpen (r : Response) (s : State) : (giveResponse r s).txOpen = s.txOpen := rfl
@[simp] theorem giveResponse_job (r : Response) (s : State) : (giveResponse r s).job = none := rfl
@[simp] theorem giveResponse_script (r : Response) (s : State) : (giveResponse r s).script = [] := rfl
@[simp] theorem giveResponse_inFlight (r : Response) (s : State) : (giveResponse r s).inFlight = [] := rfl
@[simp] theorem giveResponse_hostIn (r : Response) (s : State) : (giveResponse r s).hostIn = s.hostIn := rfl
@[simp] theorem giveResponse_responses (r : Response) (s : State) : (giveResponse r s).responses = s.responses ++ [r] := rfl
@[simp] theorem giveResponse_transportIn (r : Response) (s : State) : (giveResponse r s).transportIn = s.transportIn := rfl
@[simp] theorem giveResponse_busLog (r : Response) (s : State) : (giveResponse r s).busLog = s.busLog := rfl
@[simp] theorem giveResponse_surface (r : Response) (s : State) : (giveResponse r s).surface = s.surface := rfl
@[simp] theorem giveResponse_framing (r : Response) (s : State) : (giveResponse r s).framing = s.framing := rfl
@[simp] theorem giveResponse_draws (r : Response) (s : State) : (giveResponse r s).draws = s.draws := rfl

/-! ### countStep -/

@[simp] theorem countStep_life (s : State) : (countStep s).life = s.life := rfl
@[simp] theorem countStep_initFailed (s : State) : (countStep s).initFailed = s.initFailed := rfl
@[simp] theorem countStep_model (s : State) : (countStep s).model = s.model := rfl
@[simp] theorem countStep_power (s : State) : (countStep s).power = s.power := rfl
@[simp] theorem countStep_busAddr (s : State) : (countStep s).busAddr = s.busAddr := rfl
@[simp] theorem countStep_contrast (s : State) : (countStep s).contrast = s.contrast := rfl
@[simp] theorem countStep_fb (s : State) : (countStep s).fb = s.fb := rfl
@[simp] theorem countStep_seqPC (s : State) : (countStep s).seqPC = s.seqPC + 1 := rfl
@[simp] theorem countStep_busy (s : State) : (countStep s).busy = s.busy := rfl
@[simp] theorem countStep_txOpen (s : State) : (countStep s).txOpen = s.txOpen := rfl
@[simp] theorem countStep_job (s : State) : (countStep s).job = s.job := rfl
@[simp] theorem countStep_script (s : State) : (countStep s).script = s.script := rfl
@[simp] theorem countStep_inFlight (s : State) : (countStep s).inFlight = s.inFlight := rfl
@[simp] theorem countStep_hostIn (s : State) : (countStep s).hostIn = s.hostIn := rfl
@[simp] theorem countStep_responses (s : State) : (countStep s).responses = s.responses := rfl
@[simp] theorem countStep_transportIn (s : State) : (countStep s).transportIn = s.transportIn := rfl
@[simp] theorem countStep_busLog (s : State) : (countStep s).busLog = s.busLog := rfl
@[simp] theorem countStep_surface (s : State) : (countStep s).surface = s.surface := rfl
@[simp] theorem countStep_framing (s : State) : (countStep s).framing = s.framing := rfl
@[simp] theorem countStep_draws (s : State) : (countStep s).draws = s.draws := rfl

/-! ### constructFailed -/

@[simp] theorem constructFailed_life (s : State) : (constructFailed s).life = .uninitialized := rfl
@[simp] theorem constructFailed_initFailed (s : State) : (constructFailed s).initFailed = true := rfl
@[simp] theorem constructFailed_model (s : State) : (constructFailed s).model = Config.unspecifiedModel s.draws := rfl
@[simp] theorem constructFailed_power (s : State) : (constructFailed s).power = Config.unspecifiedPower s.draws := rfl
@[simp] theorem constructFailed_busAddr (s : State) : (constructFailed s).busAddr = Config.unspecifiedBusAddr s.draws := rfl
@[simp] theorem constructFailed_contrast (s : State) : (constructFailed s).contrast = Config.unspecifiedContrast s.draws := rfl
@[simp] theorem constructFailed_fb (s : State) : (constructFailed s).fb = unspecifiedFb s.draws := rfl
@[simp] theorem constructFailed_seqPC (s : State) : (constructFailed s).seqPC = s.seqPC := rfl
@[simp] theorem constructFailed_busy (s : State) : (constructFailed s).busy = s.busy := rfl
@[simp] theorem constructFailed_txOpen (s : State) : (constructFailed s).txOpen = false := rfl
@[simp] theorem constructFailed_job (s : State) : (constructFailed s).job = s.job := rfl
@[simp] theorem constructFailed_script (s : State) : (constructFailed s).script = s.script := rfl
@[simp] theorem constructFailed_inFlight (s : State) : (constructFailed s).inFlight = s.inFlight := rfl
@[simp] theorem constructFailed_hostIn (s : State) : (constructFailed s).hostIn = s.hostIn := rfl
@[simp] theorem constructFailed_responses (s : State) : (constructFailed s).responses = s.responses := rfl
@[simp] theorem constructFailed_transportIn (s : State) : (constructFailed s).transportIn = s.transportIn := rfl
@[simp] theorem constructFailed_busLog (s : State) : (constructFailed s).busLog = s.busLog := rfl
@[simp] theorem constructFailed_surface (s : State) : (constructFailed s).surface = s.surface := rfl
@[simp] theorem constructFailed_framing (s : State) : (constructFailed s).framing = s.framing := rfl
@[simp] theorem constructFailed_draws (s : State) : (constructFailed s).draws = s.draws + 1 := rfl

/-! ### blockReset -/

@[simp] theorem blockReset_life (s : State) : (blockReset s).life = .uninitialized := rfl
@[simp] theorem blockReset_initFailed (s : State) : (blockReset s).initFailed = false := rfl
@[simp] theorem blockReset_model (s : State) : (blockReset s).model = none := rfl
@[simp] theorem blockReset_power (s : State) : (blockReset s).power = none := rfl
@[simp] theorem blockReset_busAddr (s : State) : (blockReset s).busAddr = none := rfl
@[simp] theorem blockReset_contrast (s : State) : (blockReset s).contrast = none := rfl
@[simp] theorem blockReset_fb (s : State) : (blockReset s).fb = none := rfl
@[simp] theorem blockReset_seqPC (s : State) : (blockReset s).seqPC = 0 := rfl
@[simp] theorem blockReset_busy (s : State) : (blockReset s).busy = false := rfl
@[simp] theorem blockReset_txOpen (s : State) : (blockReset s).txOpen = false := rfl
@[simp] theorem blockReset_job (s : State) : (blockReset s).job = none := rfl
@[simp] theorem blockReset_script (s : State) : (blockReset s).script = [] := rfl
@[simp] theorem blockReset_inFlight (s : State) : (blockReset s).inFlight = [] := rfl
@[simp] theorem blockReset_hostIn (s : State) : (blockReset s).hostIn = s.hostIn := rfl
@[simp] theorem blockReset_responses (s : State) : (blockReset s).responses = s.responses := rfl
@[simp] theorem blockReset_transportIn (s : State) : (blockReset s).transportIn = abandonWaiting s := rfl
@[simp] theorem blockReset_busLog (s : State) : (blockReset s).busLog = s.busLog := rfl
@[simp] theorem blockReset_surface (s : State) : (blockReset s).surface = s.surface := rfl
@[simp] theorem blockReset_framing (s : State) : (blockReset s).framing = s.framing := rfl
@[simp] theorem blockReset_draws (s : State) : (blockReset s).draws = s.draws := rfl

/-! ### withholdResponse -/

@[simp] theorem withholdResponse_life (s t : State) : (withholdResponse s t).life = .uninitialized := rfl
@[simp] theorem withholdResponse_initFailed (s t : State) : (withholdResponse s t).initFailed = false := rfl
@[simp] theorem withholdResponse_model (s t : State) : (withholdResponse s t).model = none := rfl
@[simp] theorem withholdResponse_power (s t : State) : (withholdResponse s t).power = none := rfl
@[simp] theorem withholdResponse_busAddr (s t : State) : (withholdResponse s t).busAddr = none := rfl
@[simp] theorem withholdResponse_contrast (s t : State) : (withholdResponse s t).contrast = none := rfl
@[simp] theorem withholdResponse_fb (s t : State) : (withholdResponse s t).fb = none := rfl
@[simp] theorem withholdResponse_seqPC (s t : State) : (withholdResponse s t).seqPC = 0 := rfl
@[simp] theorem withholdResponse_busy (s t : State) : (withholdResponse s t).busy = false := rfl
@[simp] theorem withholdResponse_txOpen (s t : State) : (withholdResponse s t).txOpen = false := rfl
@[simp] theorem withholdResponse_job (s t : State) : (withholdResponse s t).job = none := rfl
@[simp] theorem withholdResponse_script (s t : State) : (withholdResponse s t).script = [] := rfl
@[simp] theorem withholdResponse_inFlight (s t : State) : (withholdResponse s t).inFlight = [] := rfl
@[simp] theorem withholdResponse_hostIn (s t : State) : (withholdResponse s t).hostIn = t.hostIn := rfl
@[simp] theorem withholdResponse_responses (s t : State) : (withholdResponse s t).responses = s.responses := rfl
@[simp] theorem withholdResponse_transportIn (s t : State) : (withholdResponse s t).transportIn = abandonWaiting t := rfl
@[simp] theorem withholdResponse_busLog (s t : State) : (withholdResponse s t).busLog = t.busLog := rfl
@[simp] theorem withholdResponse_surface (s t : State) : (withholdResponse s t).surface = t.surface := rfl
@[simp] theorem withholdResponse_framing (s t : State) : (withholdResponse s t).framing = t.framing := rfl
@[simp] theorem withholdResponse_draws (s t : State) : (withholdResponse s t).draws = t.draws := rfl

end Sys2Proof.Machine
end

