-- ==== Sys2Proof/Laws/Memory.lean ====
section
/-! SUPPORT. The laws of the framebuffer's memory: reads after writes, the canonical form, the bits of a byte, and the packing. -/

namespace Sys2Proof.Machine

/-! ### Bytes from bits -/

theorem byteOfBits_getLsbD (f : Nat → Bool) {j : Nat} (h : j < 8) : (byteOfBits f).getLsbD j = f j := by
  have key : ∀ b0 b1 b2 b3 b4 b5 b6 b7 : Bool, ∀ k : Fin 8,
      (BitVec.ofNat 8 (b0.toNat + b1.toNat * 2 + b2.toNat * 4 + b3.toNat * 8 + b4.toNat * 16 + b5.toNat * 32 +
        b6.toNat * 64 + b7.toNat * 128)).getLsbD k = [b0, b1, b2, b3, b4, b5, b6, b7][k] := by decide
  have := key (f 0) (f 1) (f 2) (f 3) (f 4) (f 5) (f 6) (f 7) ⟨j, h⟩
  rw [byteOfBits, this]
  interval_cases j <;> rfl

theorem byteOfBits_toNat (f : Nat → Bool) :
    (byteOfBits f).toNat = (f 0).toNat + (f 1).toNat * 2 + (f 2).toNat * 4 + (f 3).toNat * 8 + (f 4).toNat * 16 +
      (f 5).toNat * 32 + (f 6).toNat * 64 + (f 7).toNat * 128 := by
  have h (i : Nat) : (f i).toNat ≤ 1 := Bool.toNat_le (f i)
  have h0 := h 0; have h1 := h 1; have h2 := h 2; have h3 := h 3
  have h4 := h 4; have h5 := h 5; have h6 := h 6; have h7 := h 7
  rw [byteOfBits, BitVec.toNat_ofNat, Nat.mod_eq_of_lt (by omega)]

theorem byteOfBits_congr {f g : Nat → Bool} (h : ∀ j < 8, f j = g j) : byteOfBits f = byteOfBits g := by
  unfold byteOfBits
  rw [h 0, h 1, h 2, h 3, h 4, h 5, h 6, h 7] <;> omega

theorem byteOfBits_getLsbD_self (v : Byte) : (byteOfBits fun j => v.getLsbD j) = v := by
  apply BitVec.eq_of_getLsbD_eq
  intro j hj
  exact byteOfBits_getLsbD _ hj

/-! ### Reading after writing -/

theorem memoryWfFrom_cons (low a : Nat) (v : Byte) (m : Memory) :
    memoryWfFrom low ((a, v) :: m) = true ↔ low ≤ a ∧ v ≠ 0 ∧ memoryWfFrom (a + 1) m = true := by
  rw [memoryWfFrom, Bool.and_eq_true, Bool.and_eq_true, decide_eq_true_eq, bne_iff_ne, and_assoc]

theorem memoryWfFrom_mono {lo hi : Nat} {m : Memory} (hle : lo ≤ hi) (h : memoryWfFrom hi m = true) :
    memoryWfFrom lo m = true := by
  cases m with
  | nil => rfl
  | cons d t =>
    rw [memoryWfFrom_cons] at h ⊢
    exact ⟨by omega, h.2⟩

theorem readByte_consByte (a b : Nat) (v : Byte) (m : Memory) (h : readByte m a = 0) :
    readByte (consByte a v m) b = if b = a then v else readByte m b := by
  unfold consByte
  split
  · next hv => subst hv; split <;> simp_all
  · rfl

theorem readByte_eq_zero_of_low {m : Memory} {low a : Nat} (h : memoryWfFrom low m = true) (ha : a < low) :
    readByte m a = 0 := by
  induction m generalizing low with
  | nil => rfl
  | cons c rest ih =>
    obtain ⟨b, w⟩ := c
    rw [memoryWfFrom_cons] at h
    rw [readByte, if_neg (by omega)]
    exact ih h.2.2 (by omega)

/-- A read of one byte after a write: the byte written at its address, and every other byte as before. -/
theorem readByte_writeByte {m : Memory} {low : Nat} (h : memoryWfFrom low m = true) (a : Nat) (v : Byte) (b : Nat) :
    readByte (writeByte m a v) b = if b = a then v else readByte m b := by
  induction m generalizing low with
  | nil => exact readByte_consByte a b v [] rfl
  | cons c rest ih =>
    obtain ⟨x, w⟩ := c
    rw [memoryWfFrom_cons] at h
    rw [writeByte]
    split
    · next hax =>
      apply readByte_consByte
      rw [readByte, if_neg (by omega)]
      exact readByte_eq_zero_of_low h.2.2 (by omega)
    · split
      · next hax =>
        subst hax
        rw [readByte_consByte _ _ _ _ (readByte_eq_zero_of_low h.2.2 (by omega))]
        by_cases hb : b = a <;> simp [readByte, hb]
      · next h1 h2 =>
        rw [readByte, ih h.2.2, readByte]
        by_cases hb : b = x
        · subst hb; simp [Ne.symm h2]
        · simp [hb]

theorem writeByte_wfFrom {m : Memory} {low : Nat} (h : memoryWfFrom low m = true) {a : Nat} (ha : low ≤ a) (v : Byte) :
    memoryWfFrom low (writeByte m a v) = true := by
  induction m generalizing low with
  | nil =>
    rw [writeByte, consByte]
    split
    · rfl
    · next hv => rw [memoryWfFrom_cons]; exact ⟨ha, hv, rfl⟩
  | cons c rest ih =>
    obtain ⟨x, w⟩ := c
    have h' := (memoryWfFrom_cons ..).mp h
    rw [writeByte]
    split
    · next hax =>
      rw [consByte]
      split
      · exact h
      · next hv =>
        rw [memoryWfFrom_cons, memoryWfFrom_cons]
        exact ⟨ha, hv, by omega, h'.2⟩
    · split
      · next hax =>
        subst hax
        rw [consByte]
        split
        · exact memoryWfFrom_mono (by omega) h'.2.2
        · next hv => rw [memoryWfFrom_cons]; exact ⟨ha, hv, h'.2.2⟩
      · next h1 h2 =>
        rw [memoryWfFrom_cons]
        exact ⟨h'.1, h'.2.1, ih h'.2.2 (by omega)⟩

/-- Every write keeps the canonical form. -/
theorem writeByte_wf {m : Memory} (h : m.wf = true) (a : Nat) (v : Byte) : (writeByte m a v).wf = true :=
  writeByte_wfFrom h (Nat.zero_le a) v

theorem readBit_writeBit {m : Memory} (h : m.wf = true) (i : Nat) (v : Bool) (j : Nat) :
    readBit (writeBit m i v) j = if j = i then v else readBit m j := by
  unfold readBit writeBit
  rw [readByte_writeByte h]
  by_cases hb : j / 8 = i / 8
  · rw [if_pos hb, byteOfBits_getLsbD _ (Nat.mod_lt _ (by omega)), hb]
    by_cases hj : j = i
    · simp [hj]
    · rw [if_neg hj, if_neg (by omega)]
  · rw [if_neg hb, if_neg (by intro e; exact hb (by rw [e]))]

theorem writeBit_wf {m : Memory} (h : m.wf = true) (i : Nat) (v : Bool) : (writeBit m i v).wf = true :=
  writeByte_wf h _ _

theorem clearMemory_wf : clearMemory.wf = true := rfl

@[simp] theorem readBit_clearMemory (i : Nat) : readBit clearMemory i = false := by
  simp [readBit, clearMemory, readByte]

/-! ### A memory of given bits -/

theorem bitsFrom_spec (f : Nat → Bool) (n k : Nat) (hk : k ≤ n) :
    memoryWfFrom (n - k) (bitsFrom f n k) = true ∧
      (∀ a, readByte (bitsFrom f n k) a =
        if n - k ≤ a ∧ a < n then byteOfBits (fun j => f (8 * a + j)) else 0) ∧
      ∀ c ∈ bitsFrom f n k, c.1 < n := by
  induction k with
  | zero =>
    refine ⟨rfl, fun a => ?_, by simp [bitsFrom]⟩
    rw [if_neg (by omega)]; rfl
  | succ k ih =>
    obtain ⟨hwf, hread, hin⟩ := ih (by omega)
    have hlow : readByte (bitsFrom f n k) (n - (k + 1)) = 0 := by rw [hread, if_neg (by omega)]
    refine ⟨?_, fun a => ?_, ?_⟩
    · rw [bitsFrom, consByte]
      split
      · exact memoryWfFrom_mono (by omega) hwf
      · next hv =>
        rw [memoryWfFrom_cons, show n - (k + 1) + 1 = n - k by omega]
        exact ⟨Nat.le_refl _, hv, hwf⟩
    · rw [bitsFrom, readByte_consByte _ _ _ _ hlow, hread]
      by_cases ha : a = n - (k + 1)
      · subst ha; rw [if_pos rfl, if_pos (by omega)]
      · rw [if_neg ha]
        by_cases hb : n - k ≤ a ∧ a < n
        · rw [if_pos hb, if_pos (by omega)]
        · rw [if_neg hb, if_neg (by omega)]
    · intro c hc
      rw [bitsFrom, consByte] at hc
      split at hc
      · exact hin c hc
      · rcases List.mem_cons.mp hc with rfl | hc
        · show n - (k + 1) < n; omega
        · exact hin c hc

theorem memoryOfBits_wf (n : Nat) (f : Nat → Bool) : (memoryOfBits n f).wf = true := by
  have := (bitsFrom_spec f n n (Nat.le_refl n)).1
  rwa [Nat.sub_self] at this

theorem memoryOfBits_inside (n : Nat) (f : Nat → Bool) : ∀ c ∈ memoryOfBits n f, c.1 < n :=
  (bitsFrom_spec f n n (Nat.le_refl n)).2.2

theorem readBit_memoryOfBits (n : Nat) (f : Nat → Bool) {i : Nat} (hi : i < 8 * n) :
    readBit (memoryOfBits n f) i = f i := by
  rw [readBit, memoryOfBits, (bitsFrom_spec f n n (Nat.le_refl n)).2.1, if_pos (by omega),
    byteOfBits_getLsbD _ (Nat.mod_lt _ (by omega)), Nat.div_add_mod]

/-! ### Inside the model's bytes -/

theorem consByte_inside {n a : Nat} {v : Byte} {m : Memory} (ha : a < n) (h : ∀ c ∈ m, c.1 < n) :
    ∀ c ∈ consByte a v m, c.1 < n := by
  unfold consByte
  split
  · exact h
  · intro c hc
    rcases List.mem_cons.mp hc with rfl | hc
    · exact ha
    · exact h c hc

theorem writeByte_inside {n a : Nat} {v : Byte} {m : Memory} (ha : a < n) (h : ∀ c ∈ m, c.1 < n) :
    ∀ c ∈ writeByte m a v, c.1 < n := by
  induction m with
  | nil => exact consByte_inside ha (by simp)
  | cons c rest ih =>
    obtain ⟨x, w⟩ := c
    have hrest : ∀ c ∈ rest, c.1 < n := fun c hc => h c (List.mem_cons_of_mem _ hc)
    rw [writeByte]
    split
    · exact consByte_inside ha h
    · split
      · exact consByte_inside ha hrest
      · intro c hc
        rcases List.mem_cons.mp hc with rfl | hc
        · exact h _ (List.mem_cons_self ..)
        · exact ih hrest c hc

theorem writeBit_inside {n i : Nat} {v : Bool} {m : Memory} (hi : i < 8 * n) (h : ∀ c ∈ m, c.1 < n) :
    ∀ c ∈ writeBit m i v, c.1 < n :=
  writeByte_inside (by omega) h

/-! ### The packing -/

theorem dataByte_getLsbD (m : Memory) (k : Nat) {j : Nat} (h : j < 8) :
    (dataByte m k).getLsbD j = readBit m (8 * k + j) :=
  byteOfBits_getLsbD _ h

/-- The packed byte k is the byte held at address k. -/
theorem dataByte_eq_readByte (m : Memory) (k : Nat) : dataByte m k = readByte m k := by
  rw [← byteOfBits_getLsbD_self (readByte m k)]
  apply byteOfBits_congr
  intro j hj
  rw [readBit, show (8 * k + j) / 8 = k by omega, show (8 * k + j) % 8 = j by omega]

@[simp] theorem packedImage_length (d : DisplayModel) (m : Memory) : (packedImage d m).length = 1 + dataLength d := by
  simp [packedImage, Nat.add_comm]

/-- PB[1 + k] is data byte k. -/
theorem packedImage_data (d : DisplayModel) (m : Memory) {k : Nat} (h : k < dataLength d) :
    (packedImage d m)[1 + k]? = some (dataByte m k) := by
  simp only [packedImage, Nat.add_comm 1 k, List.getElem?_cons_succ, List.getElem?_map]
  rw [List.getElem?_range h]
  rfl

theorem memRead_all (d : DisplayModel) (m : Memory) : memRead d m 0 (1 + dataLength d) = packedImage d m := by
  rw [memRead, List.drop_zero, ← packedImage_length d m, List.take_length]

theorem memRead_data (d : DisplayModel) (m : Memory) :
    memRead d m 1 (dataLength d) = (List.range (dataLength d)).map (dataByte m) := by
  rw [memRead, packedImage, List.drop_one, List.tail_cons, List.take_of_length_le (by simp)]

end Sys2Proof.Machine
end

