-- ==== Sys2Proof/Laws/Operands.lean ====
section
/-! SUPPORT. The laws of the operand forms: the geometry, the translator and its inverse. -/

namespace Sys2Proof.Machine

theorem eight_dataLength (d : DisplayModel) : 8 * dataLength d = nbits d := by cases d <;> rfl

theorem xlate_lt {d : DisplayModel} {x y : Nat} (hx : x < width d) (hy : y < height d) : xlate d x y < nbits d := by
  cases d <;> simp only [xlate, bitsPerPage, nbits, width, height] at * <;> omega

theorem pixelX_xlate {d : DisplayModel} {x : Nat} (hx : x < width d) (y : Nat) : pixelX d (xlate d x y) = x := by
  cases d <;> simp only [pixelX, xlate, bitsPerPage, width] at * <;> omega

theorem pixelY_xlate {d : DisplayModel} {x : Nat} (hx : x < width d) (y : Nat) : pixelY d (xlate d x y) = y := by
  cases d <;> simp only [pixelY, xlate, bitsPerPage, width] at * <;> omega

theorem xlate_pixel (d : DisplayModel) (i : Nat) : xlate d (pixelX d i) (pixelY d i) = i := by
  cases d <;> simp only [xlate, pixelX, pixelY, bitsPerPage, width] <;> omega

theorem pixelX_lt (d : DisplayModel) (i : Nat) : pixelX d i < width d := by
  cases d <;> simp only [pixelX, bitsPerPage, width] <;> omega

theorem pixelY_lt {d : DisplayModel} {i : Nat} (h : i < nbits d) : pixelY d i < height d := by
  cases d <;> simp only [pixelY, bitsPerPage, nbits, width, height] at * <;> omega

/-- Valid coordinates are the non-negative ones below W and H. -/
theorem inBounds_iff (d : DisplayModel) (x y : Half) :
    inBounds d x y = true ↔ 0 ≤ x.toInt ∧ x.toInt < width d ∧ 0 ≤ y.toInt ∧ y.toInt < height d := by
  simp [inBounds, and_assoc]

theorem pixelIndex_lt {d : DisplayModel} {x y : Half} (h : inBounds d x y = true) : pixelIndex d x y < nbits d := by
  rw [inBounds_iff] at h
  exact xlate_lt (by omega) (by omega)

@[simp] theorem initSequence_length (d : DisplayModel) (p : PowerMode) : (initSequence d p).length = 16 := rfl

@[simp] theorem renderSequence_length (d : DisplayModel) (data : List Byte) : (renderSequence d data).length = 3 := rfl

theorem transactions_addr {f : Framing} {a : BusAddr} {st : SeqStep} {t : Txn} (h : t ∈ transactions f a st) :
    t.addr = a ∧ t.ctrl = st.ctrl := by
  unfold transactions at h
  split at h
  · next hc =>
    obtain ⟨b, -, rfl⟩ := List.mem_map.mp h
    exact ⟨rfl, hc.1.symm⟩
  · simp only [List.mem_singleton] at h
    subst h
    exact ⟨rfl, rfl⟩

end Sys2Proof.Machine
end

