-- ==== Sys2Proof/Laws/Sequencer.lean ====
section
/-! SUPPORT. The laws of the transport port and the sequencer: for each shared operation, what it answers under each way the
transport can answer. -/

namespace Sys2Proof.Machine

/-- Bus log entries of acknowledged transactions. -/
def ackedEvents (ts : List Txn) : List BusEvent := ts.map fun t => ⟨t, true⟩

@[simp] theorem ackedEvents_nil : ackedEvents [] = [] := rfl

@[simp] theorem ackedEvents_cons (t : Txn) (ts : List Txn) : ackedEvents (t :: ts) = ⟨t, true⟩ :: ackedEvents ts := rfl

@[simp] theorem ackedEvents_append (xs ys : List Txn) : ackedEvents (xs ++ ys) = ackedEvents xs ++ ackedEvents ys :=
  List.map_append ..

/-- No answer will come: none is left, or the next transaction is never answered. -/
def Silent (answers : List Answer) : Prop := answers = [] ∨ ∃ rest, answers = .never :: rest

/-- How a list of answers serves n transactions: all acknowledged, or one fails, or one gets no answer. -/
theorem answers_cases (n : Nat) (answers : List Answer) :
    (∃ rest, answers = List.replicate n .ack ++ rest) ∨
    (∃ k rest, k < n ∧ answers = List.replicate k .ack ++ .fail :: rest) ∨
    (∃ k rest, k < n ∧ answers = List.replicate k .ack ++ rest ∧ Silent rest) := by
  induction n generalizing answers with
  | zero => exact .inl ⟨answers, rfl⟩
  | succ n ih =>
    cases answers with
    | nil => exact .inr (.inr ⟨0, [], by omega, rfl, .inl rfl⟩)
    | cons x xs =>
      cases x with
      | fail => exact .inr (.inl ⟨0, xs, by omega, rfl⟩)
      | never => exact .inr (.inr ⟨0, _, by omega, rfl, .inr ⟨xs, rfl⟩⟩)
      | ack =>
        rcases ih xs with ⟨rest, rfl⟩ | ⟨k, rest, hk, rfl⟩ | ⟨k, rest, hk, rfl, hs⟩
        · exact .inl ⟨rest, rfl⟩
        · exact .inr (.inl ⟨k + 1, rest, by omega, rfl⟩)
        · exact .inr (.inr ⟨k + 1, rest, by omega, rfl, hs⟩)

/-! ### Presenting transactions -/

theorem present_acked (ts : List Txn) (s : State) (rest : List Answer)
    (h : s.transportIn = List.replicate ts.length .ack ++ rest) :
    present ts s = .acked { s with inFlight := [], transportIn := rest, busLog := s.busLog ++ ackedEvents ts } := by
  induction ts generalizing s with
  | nil =>
    simp only [List.length_nil, List.replicate_zero, List.nil_append] at h
    simp [present, ← h]
  | cons t ts ih =>
    simp only [List.length_cons, List.replicate_succ, List.cons_append] at h
    simp only [present, h]
    rw [ih _ rfl]
    simp

theorem present_failed (pre post : List Txn) (t : Txn) (s : State) (rest : List Answer)
    (h : s.transportIn = List.replicate pre.length .ack ++ .fail :: rest) :
    present (pre ++ t :: post) s =
      .failed { s with transportIn := rest, busLog := s.busLog ++ (ackedEvents pre ++ [⟨t, false⟩]) } := by
  induction pre generalizing s with
  | nil =>
    simp only [List.length_nil, List.replicate_zero, List.nil_append] at h
    simp [present, h]
  | cons u us ih =>
    simp only [List.length_cons, List.replicate_succ, List.cons_append] at h
    simp only [List.cons_append, present, h]
    rw [ih _ rfl]
    simp

theorem present_waiting (pre post : List Txn) (t : Txn) (s : State) (rest : List Answer)
    (h : s.transportIn = List.replicate pre.length .ack ++ rest) (hs : Silent rest) :
    present (pre ++ t :: post) s =
      .waiting { s with busy := true, inFlight := t :: post, transportIn := rest, busLog := s.busLog ++ ackedEvents pre } := by
  induction pre generalizing s with
  | nil =>
    simp only [List.length_nil, List.replicate_zero, List.nil_append] at h
    rcases hs with rfl | ⟨r, rfl⟩ <;> simp [present, h]
  | cons u us ih =>
    simp only [List.length_cons, List.replicate_succ, List.cons_append] at h
    simp only [List.cons_append, present, h]
    rw [ih _ rfl]
    simp

/-- Everything presenting can do. -/
theorem present_cases (ts : List Txn) (s : State) :
    (∃ rest, s.transportIn = List.replicate ts.length .ack ++ rest ∧
      present ts s = .acked { s with inFlight := [], transportIn := rest, busLog := s.busLog ++ ackedEvents ts }) ∨
    (∃ pre t post rest, ts = pre ++ t :: post ∧ s.transportIn = List.replicate pre.length .ack ++ .fail :: rest ∧
      present ts s =
        .failed { s with transportIn := rest, busLog := s.busLog ++ (ackedEvents pre ++ [⟨t, false⟩]) }) ∨
    (∃ pre t post rest, ts = pre ++ t :: post ∧ s.transportIn = List.replicate pre.length .ack ++ rest ∧ Silent rest ∧
      present ts s = .waiting
        { s with busy := true, inFlight := t :: post, transportIn := rest, busLog := s.busLog ++ ackedEvents pre }) := by
  have split {k : Nat} (hk : k < ts.length) : ts = ts.take k ++ ts[k] :: ts.drop (k + 1) := by simp
  have len {k : Nat} (hk : k < ts.length) : (ts.take k).length = k := by simp; omega
  rcases answers_cases ts.length s.transportIn with ⟨rest, h⟩ | ⟨k, rest, hk, h⟩ | ⟨k, rest, hk, h, hs⟩
  · exact .inl ⟨rest, h, present_acked ts s rest h⟩
  · refine .inr (.inl ⟨ts.take k, ts[k], ts.drop (k + 1), rest, split hk, by rw [len hk]; exact h, ?_⟩)
    conv => lhs; rw [split hk]
    exact present_failed _ _ _ _ _ (by rw [len hk]; exact h)
  · refine .inr (.inr ⟨ts.take k, ts[k], ts.drop (k + 1), rest, split hk, by rw [len hk]; exact h, hs, ?_⟩)
    conv => lhs; rw [split hk]
    exact present_waiting _ _ _ _ _ (by rw [len hk]; exact h) hs

/-! ### One step of the sequencer -/

/-- The value `life` takes once step k of a request in progress is acknowledged. -/
def lifeAfter : Option Job → BitVec 5 → Life → Life
  | some .construct, k, l => if k = 14 then .inactive else if k = 15 then .active else l
  | some (.setActive b), _, _ => if b then .active else .inactive
  | some .dispose, _, _ => .inactive
  | _, _, l => l

/-- The value `contrast` takes once the present step of a request in progress is acknowledged. -/
def contrastAfter (d : DisplayModel) (p : PowerMode) : Option Job → BitVec 5 → Option Byte → Option Byte
  | some .construct, k, c => if k = 10 then some (defaultContrast d p) else c
  | some (.setContrast v), _, _ => some v
  | _, _, c => c

/-- The model that a CONSTRUCT in progress latched. -/
def modelOf (s : State) : DisplayModel := s.model.getD .m128x64

/-- The power mode that a CONSTRUCT in progress latched. -/
def powerOf (s : State) : PowerMode := s.power.getD .external

/-- A CONSTRUCT in progress has latched its model and power mode. -/
def Latched (s : State) : Prop := s.job = some .construct → s.model.isSome = true ∧ s.power.isSome = true

theorem afterAck_eq {s : State} (h : Latched s) :
    afterAck s = .next { s with
      life := lifeAfter s.job s.seqPC s.life
      contrast := contrastAfter (modelOf s) (powerOf s) s.job s.seqPC s.contrast } := by
  obtain ⟨life, initFailed, model, power, busAddr, contrast, fb, seqPC, busy, txOpen, job, script⟩ := s
  cases job with
  | none => rfl
  | some j =>
    cases j with
    | construct =>
      obtain ⟨h1, h2⟩ := h rfl
      obtain ⟨d, rfl⟩ := Option.isSome_iff_exists.mp h1
      obtain ⟨p, rfl⟩ := Option.isSome_iff_exists.mp h2
      simp only [afterAck, lifeAfter, contrastAfter, withModel, withValue, withPower]
      by_cases h10 : seqPC = 10
      · simp [h10, modelOf, powerOf]
      · by_cases h14 : seqPC = 14
        · simp [h14]
        · by_cases h15 : seqPC = 15
          · simp [h15]
          · simp only [h10, h14, h15, if_false]
    | setActive b => rfl
    | setContrast c => rfl
    | render => rfl
    | dispose => rfl

/-- Acknowledging a step writes `life` and `contrast` only. -/
theorem afterAck_next {s t : State} (h : afterAck s = .next t) :
    t = { s with life := t.life, contrast := t.contrast } := by
  unfold afterAck withModel withPower withValue at h
  repeat' split at h
  all_goals first | (cases h; rfl) | cases h

theorem emit_open {s : State} {a : BusAddr} (ho : s.txOpen = true) (ha : s.busAddr = some a) (st : SeqStep) :
    emit st s = transmit (transactions s.framing a st) s := by
  simp [emit, ho, withBusAddr, withValue, ha]

/-- "While `txOpen` = 0 the block emits no transaction". -/
theorem emit_closed {s : State} (ho : s.txOpen = false) (st : SeqStep) : emit st s = .next s := by
  simp [emit, ho]

theorem transmit_acked {s : State} {ts : List Txn} {rest : List Answer} (ho : s.txOpen = true)
    (h : s.transportIn = List.replicate ts.length .ack ++ rest) :
    transmit ts s =
      stepAcked { s with inFlight := [], transportIn := rest, busLog := s.busLog ++ ackedEvents ts } := by
  rw [transmit, if_pos ho, present_acked ts s rest h]

theorem transmit_failed {s : State} {pre post : List Txn} {t : Txn} {rest : List Answer} (ho : s.txOpen = true)
    (h : s.transportIn = List.replicate pre.length .ack ++ .fail :: rest) :
    transmit (pre ++ t :: post) s =
      .next (sequenceFailed
        { s with transportIn := rest, busLog := s.busLog ++ (ackedEvents pre ++ [⟨t, false⟩]) }) := by
  rw [transmit, if_pos ho, present_failed pre post t s rest h]

theorem transmit_waiting {s : State} {pre post : List Txn} {t : Txn} {rest : List Answer} (ho : s.txOpen = true)
    (h : s.transportIn = List.replicate pre.length .ack ++ rest) (hs : Silent rest) :
    transmit (pre ++ t :: post) s =
      .next { s with busy := true, inFlight := t :: post, transportIn := rest, busLog := s.busLog ++ ackedEvents pre } := by
  rw [transmit, if_pos ho, present_waiting pre post t s rest h hs]

/-- A waiting block with no answer to come is left as it is. -/
theorem resume_silent {s : State} (hw : s.inFlight ≠ []) (hb : s.busy = true) (hs : Silent s.transportIn) :
    resume s = .next s := by
  cases ho : s.txOpen with
  | false => simp [resume, transmit, ho]
  | true =>
    cases hf : s.inFlight with
    | nil => exact absurd hf hw
    | cons t ts =>
      have := transmit_waiting (pre := []) (t := t) (post := ts) ho (rest := s.transportIn) (by simp) hs
      rw [resume, hf, ← List.nil_append (t :: ts), this]
      congr 1
      rw [ackedEvents_nil, List.append_nil, ← hb, ← hf]

theorem stepAcked_eq {s : State} (h : Latched s) :
    stepAcked s =
      let t := countStep { s with
        life := lifeAfter s.job s.seqPC s.life
        contrast := contrastAfter (modelOf s) (powerOf s) s.job s.seqPC s.contrast }
      .next (if s.script.isEmpty then sequenceDone t else t) := by
  rw [stepAcked, afterAck_eq h]
  rfl

/-! ### A whole sequence -/

/-- The transactions of a list of steps, in order. -/
def allTransactions (f : Framing) (a : BusAddr) (steps : List SeqStep) : List Txn := steps.flatMap (transactions f a)

@[simp] theorem allTransactions_nil (f : Framing) (a : BusAddr) : allTransactions f a [] = [] := rfl

@[simp] theorem allTransactions_cons (f : Framing) (a : BusAddr) (st : SeqStep) (steps : List SeqStep) :
    allTransactions f a (st :: steps) = transactions f a st ++ allTransactions f a steps :=
  List.flatMap_cons ..

/-- `life` after the next n steps are acknowledged. -/
def lifeAfterSteps (j : Option Job) : Nat → BitVec 5 → Life → Life
  | 0, _, l => l
  | n + 1, k, l => lifeAfterSteps j n (k + 1) (lifeAfter j k l)

/-- `contrast` after the next n steps are acknowledged. -/
def contrastAfterSteps (d : DisplayModel) (p : PowerMode) (j : Option Job) : Nat → BitVec 5 → Option Byte → Option Byte
  | 0, _, c => c
  | n + 1, k, c => contrastAfterSteps d p j n (k + 1) (contrastAfter d p j k c)

/-- The state of a request in progress after n more steps, their transactions acknowledged. -/
def afterSteps (a : BusAddr) (s : State) (steps left : List SeqStep)
    (rest : List Answer) : State :=
  { s with
    life := lifeAfterSteps s.job steps.length s.seqPC s.life
    contrast := contrastAfterSteps (modelOf s) (powerOf s) s.job steps.length s.seqPC s.contrast
    seqPC := s.seqPC + BitVec.ofNat 5 steps.length
    script := left
    inFlight := []
    transportIn := rest
    busLog := s.busLog ++ ackedEvents (allTransactions s.framing a steps) }

/-- The first of several steps, acknowledged: the run goes on with the rest. -/
theorem runScript_cons_acked {s : State} {a : BusAddr} {st : SeqStep}
    {steps : List SeqStep} {rest : List Answer} (hb : s.busy = true) (ho : s.txOpen = true) (ha : s.busAddr = some a)
    (hl : Latched s) (hne : steps ≠ [])
    (h : s.transportIn = List.replicate (transactions s.framing a st).length .ack ++ rest) :
    runScript (st :: steps) s = runScript steps (afterSteps a s [st] steps rest) := by
  have he : steps.isEmpty = false := by cases steps <;> simp_all
  rw [runScript, emit_open (s := { s with script := steps }) ho ha,
    transmit_acked (s := { s with script := steps }) ho h, stepAcked_eq (by exact hl)]
  simp only [andThen, he, Bool.false_eq_true, if_false, countStep_busy, countStep_inFlight, hb, List.isEmpty_nil,
    Bool.and_self, if_true]
  simp [countStep, afterSteps, lifeAfterSteps, contrastAfterSteps, modelOf, powerOf, hb]

/-- Every transaction acknowledged: the sequence is done, with the registers its steps write. -/
theorem runScript_acked {s : State} {a : BusAddr} {steps : List SeqStep}
    {rest : List Answer} (hb : s.busy = true) (ho : s.txOpen = true) (ha : s.busAddr = some a) (hl : Latched s)
    (hne : steps ≠ [])
    (h : s.transportIn = List.replicate (allTransactions s.framing a steps).length .ack ++ rest) :
    runScript steps s = .next (sequenceDone (afterSteps a s steps [] rest)) := by
  induction steps generalizing s with
  | nil => exact absurd rfl hne
  | cons st steps ih =>
    rw [allTransactions_cons, List.length_append, List.replicate_add, List.append_assoc] at h
    by_cases he : steps = []
    · subst he
      simp only [allTransactions_nil, List.length_nil, List.replicate_zero, List.nil_append] at h
      rw [runScript, emit_open (s := { s with script := [] }) ho ha,
        transmit_acked (s := { s with script := [] }) ho h, stepAcked_eq (by exact hl)]
      have hidle : ∀ t : State, (sequenceDone t).busy = false := by
        intro t; unfold sequenceDone; split <;> rfl
      simp only [andThen, List.isEmpty_nil, if_true, hidle, Bool.false_and, Bool.false_eq_true, if_false]
      simp [countStep, afterSteps, lifeAfterSteps, contrastAfterSteps, modelOf, powerOf]
    · rw [runScript_cons_acked hb ho ha hl he h,
        ih (s := afterSteps a s [st] steps _) (by exact hb) (by exact ho) (by exact ha) (by exact hl) he
          (by rfl)]
      simp [afterSteps, lifeAfterSteps, contrastAfterSteps, modelOf, powerOf, BitVec.add_assoc, ← BitVec.ofNat_add, Nat.add_comm]

/-- Splitting a list of transactions at one of the first step's. -/
theorem transactions_ne_nil (f : Framing) (a : BusAddr) {st : SeqStep} (h : st.bytes ≠ []) : transactions f a st ≠ [] := by
  unfold transactions
  split <;> simp [h]

/-- A step's transaction fails: the sequence ends there, with the registers the steps before it write. -/
theorem runScript_failed {s : State} {a : BusAddr} {steps : List SeqStep} {k : Nat}
    {rest : List Answer} (hb : s.busy = true) (ho : s.txOpen = true) (ha : s.busAddr = some a) (hl : Latched s)
    (hk : k < (allTransactions s.framing a steps).length)
    (h : s.transportIn = List.replicate k .ack ++ .fail :: rest) :
    ∃ n left flight, n < steps.length ∧
      runScript steps s = .next (sequenceFailed { s with
        life := lifeAfterSteps s.job n s.seqPC s.life
        contrast := contrastAfterSteps (modelOf s) (powerOf s) s.job n s.seqPC s.contrast
        seqPC := s.seqPC + BitVec.ofNat 5 n
        script := left
        inFlight := flight
        transportIn := rest
        busLog := s.busLog ++ (ackedEvents ((allTransactions s.framing a steps).take k) ++
          [⟨(allTransactions s.framing a steps)[k], false⟩]) }) := by
  induction steps generalizing s k with
  | nil => simp at hk
  | cons st steps ih =>
    by_cases hlt : k < (transactions s.framing a st).length
    · refine ⟨0, steps, s.inFlight, by simp, ?_⟩
      have split : transactions s.framing a st =
          (transactions s.framing a st).take k ++ (transactions s.framing a st)[k] ::
            (transactions s.framing a st).drop (k + 1) := by simp
      have len : ((transactions s.framing a st).take k).length = k := by simp; omega
      have hidle : ∀ t : State, (sequenceFailed t).busy = false := by
        intro t; unfold sequenceFailed; split <;> rfl
      rw [runScript, emit_open (s := { s with script := steps }) ho ha]
      conv => lhs; arg 1; arg 1; rw [show transactions ({ s with script := steps } : State).framing a st = _ from split]
      rw [transmit_failed (s := { s with script := steps }) ho (by rw [len]; exact h)]
      simp only [andThen, hidle, Bool.false_and, Bool.false_eq_true, if_false]
      simp [lifeAfterSteps, contrastAfterSteps, List.take_append_of_le_length (Nat.le_of_lt hlt),
        List.getElem_append_left hlt]
    · have hlen : k = (transactions s.framing a st).length + (k - (transactions s.framing a st).length) := by omega
      have hk' : k - (transactions s.framing a st).length < (allTransactions s.framing a steps).length := by
        rw [allTransactions_cons, List.length_append] at hk; omega
      have hne : steps ≠ [] := by rintro rfl; simp at hk'
      have h' : s.transportIn = List.replicate (transactions s.framing a st).length .ack ++
          (List.replicate (k - (transactions s.framing a st).length) .ack ++ .fail :: rest) := by
        rw [← List.append_assoc, ← List.replicate_add, ← hlen, h]
      obtain ⟨n, left, flight, hn, hrun⟩ :=
        ih (s := afterSteps a s [st] steps _) (k := k - (transactions s.framing a st).length)
          (by exact hb) (by exact ho) ha hl hk' rfl
      refine ⟨n + 1, left, flight, by simp; omega, ?_⟩
      rw [runScript_cons_acked hb ho ha hl hne h', hrun]
      have htake : (allTransactions s.framing a (st :: steps)).take k =
          transactions s.framing a st ++
            (allTransactions s.framing a steps).take (k - (transactions s.framing a st).length) := by
        rw [allTransactions_cons, List.take_append, List.take_of_length_le (by omega)]
      have hget : (allTransactions s.framing a (st :: steps))[k] =
          (allTransactions s.framing a steps)[k - (transactions s.framing a st).length] := by
        simp only [allTransactions_cons]
        rw [List.getElem_append_right (by omega)]
      rw [htake, hget]
      simp [afterSteps, lifeAfterSteps, contrastAfterSteps, modelOf, powerOf, BitVec.add_assoc, ← BitVec.ofNat_add, Nat.add_comm]

/-- A step's transaction gets no answer: the sequence waits there, with the registers the n steps before it
write, of which the transaction is the next one's. -/
theorem runScript_waiting {s : State} {a : BusAddr} {steps : List SeqStep} {k : Nat}
    {rest : List Answer} (hb : s.busy = true) (ho : s.txOpen = true) (ha : s.busAddr = some a) (hl : Latched s)
    (hk : k < (allTransactions s.framing a steps).length)
    (h : s.transportIn = List.replicate k .ack ++ rest) (hs : Silent rest) :
    ∃ n left flight, n < steps.length ∧ (allTransactions s.framing a (steps.take n)).length ≤ k ∧
      k < (allTransactions s.framing a (steps.take (n + 1))).length ∧
      runScript steps s = .next { s with
        life := lifeAfterSteps s.job n s.seqPC s.life
        contrast := contrastAfterSteps (modelOf s) (powerOf s) s.job n s.seqPC s.contrast
        seqPC := s.seqPC + BitVec.ofNat 5 n
        script := left
        inFlight := (allTransactions s.framing a steps)[k] :: flight
        transportIn := rest
        busLog := s.busLog ++ ackedEvents ((allTransactions s.framing a steps).take k) } := by
  induction steps generalizing s k with
  | nil => simp at hk
  | cons st steps ih =>
    by_cases hlt : k < (transactions s.framing a st).length
    · refine ⟨0, steps, (transactions s.framing a st).drop (k + 1), by simp, by simp, by simpa using hlt, ?_⟩
      have split : transactions s.framing a st =
          (transactions s.framing a st).take k ++ (transactions s.framing a st)[k] ::
            (transactions s.framing a st).drop (k + 1) := by simp
      have len : ((transactions s.framing a st).take k).length = k := by simp; omega
      rw [runScript, emit_open (s := { s with script := steps }) ho ha]
      conv => lhs; arg 1; arg 1; rw [show transactions ({ s with script := steps } : State).framing a st = _ from split]
      rw [transmit_waiting (s := { s with script := steps }) ho (by rw [len]; exact h) hs]
      simp only [andThen, List.isEmpty_cons, Bool.and_false, Bool.false_eq_true, if_false]
      simp [lifeAfterSteps, contrastAfterSteps, List.take_append_of_le_length (Nat.le_of_lt hlt),
        List.getElem_append_left hlt, hb]
    · have hlen : k = (transactions s.framing a st).length + (k - (transactions s.framing a st).length) := by omega
      have hk' : k - (transactions s.framing a st).length < (allTransactions s.framing a steps).length := by
        rw [allTransactions_cons, List.length_append] at hk; omega
      have hne : steps ≠ [] := by rintro rfl; simp at hk'
      have h' : s.transportIn = List.replicate (transactions s.framing a st).length .ack ++
          (List.replicate (k - (transactions s.framing a st).length) .ack ++ rest) := by
        rw [← List.append_assoc, ← List.replicate_add, ← hlen, h]
      obtain ⟨n, left, flight, hn, hlo, hhi, hrun⟩ :=
        ih (s := afterSteps a s [st] steps _) (k := k - (transactions s.framing a st).length)
          (by exact hb) (by exact ho) ha hl hk' rfl
      refine ⟨n + 1, left, flight, by simp; omega, ?_, ?_, ?_⟩
      · rw [List.take_succ_cons, allTransactions_cons, List.length_append]
        simp only [afterSteps] at hlo; omega
      · rw [List.take_succ_cons, allTransactions_cons, List.length_append]
        simp only [afterSteps] at hhi; omega
      rw [runScript_cons_acked hb ho ha hl hne h', hrun]
      have htake : (allTransactions s.framing a (st :: steps)).take k =
          transactions s.framing a st ++
            (allTransactions s.framing a steps).take (k - (transactions s.framing a st).length) := by
        rw [allTransactions_cons, List.take_append, List.take_of_length_le (by omega)]
      have hget : (allTransactions s.framing a (st :: steps))[k] =
          (allTransactions s.framing a steps)[k - (transactions s.framing a st).length] := by
        simp only [allTransactions_cons]
        rw [List.getElem_append_right (by omega)]
      rw [htake, hget]
      simp [afterSteps, lifeAfterSteps, contrastAfterSteps, modelOf, powerOf, BitVec.add_assoc, ← BitVec.ofNat_add,
        Nat.add_comm]

/-! ### Reading the bus log -/

@[simp] theorem commandStream_nil : commandStream [] = [] := rfl

@[simp] theorem commandStream_append (log more : List BusEvent) :
    commandStream (log ++ more) = commandStream log ++ commandStream more := by
  simp [commandStream]

/-- A failed transaction takes no part (20_memory.md R48). -/
@[simp] theorem commandStream_failed (t : Txn) : commandStream [⟨t, false⟩] = [] := rfl

/-- What a step adds to the command stream, under both framings: a command its bytes, the data transaction none
(30_encoding.md R64, R65). -/
theorem commandStream_transactions (f : Framing) (a : BusAddr) (st : SeqStep) :
    commandStream (ackedEvents (transactions f a st)) = if st.ctrl = 0x00 then st.bytes else [] := by
  by_cases h : st.ctrl = 0x00
  · cases f <;> simp [commandStream, ackedEvents, transactions, h, List.filter_map, Function.comp_def, List.flatMap_map]
  · rw [transactions, if_neg (fun x => h x.1), if_neg h]
    simpa [commandStream, ackedEvents] using fun x => absurd x h

/-- The reader goes on from where it stands. -/
theorem readCommands_append (bytes more : List Byte) :
    readCommands (bytes ++ more) = more.foldl Reader.next (readCommands bytes) := by
  simp [readCommands]

end Sys2Proof.Machine
end

