-- ==== Sys2Proof/Laws/Decode.lean ====
section
/-! SUPPORT. The laws of the encoding's operand fields, and of the sequencer's fetch: a decoded step is emitted as it stands. -/

namespace Sys2Proof

/-- Low byte first, and no bit lost. -/
@[simp] theorem halfOfBytes_lo_hi (h : Half) : halfOfBytes (loByte h) (hiByte h) = h := by
  apply BitVec.eq_of_getLsbD_eq
  intro i hi
  simp only [halfOfBytes, loByte, hiByte, BitVec.getLsbD_append, BitVec.getLsbD_extractLsb']
  by_cases h8 : i < 8
  · simp [h8]
  · simp [h8, show i - 8 < 8 by omega, show 8 + (i - 8) = i by omega]

@[simp] theorem powerOfBit_powerBit (p : PowerMode) : powerOfBit (powerBit p) = p := by cases p <;> rfl

/-- The bits of CONSTRUCT's operand byte q[1]. -/
theorem constructByte_fields (model : BitVec 2) (power tp : Bool) :
    let q : Byte := 0#4 ++ (BitVec.ofBool tp ++ (BitVec.ofBool power ++ model))
    q.extractLsb' 0 2 = model ∧ q.getLsbD 2 = power ∧ q.getLsbD 3 = tp := by
  revert model power tp
  decide

/-- The address bits of CONSTRUCT's operand byte q[2]. -/
theorem addrByte_field (addr : BusAddr) : (0#1 ++ addr : Byte).extractLsb' 0 7 = addr := by
  revert addr
  decide

/-- The operand bit of a byte whose other bits are reserved. -/
theorem bitByte_field (b : Bool) : (0#7 ++ BitVec.ofBool b : Byte).getLsbD 0 = b := by cases b <;> rfl

theorem instr_of_ite {c : Prop} [Decidable c] {x y : Decoded} {i : Instr} (h : (if c then x else y) = .instr i) :
    (c ∧ x = .instr i) ∨ (¬ c ∧ y = .instr i) := by
  split at h
  · next hc => exact .inl ⟨hc, h⟩
  · next hc => exact .inr ⟨hc, h⟩

theorem illegal_of_notMem : ∀ code : Byte, code ∉ ([1, 2, 3, 4, 5, 6, 7, 8, 9, 10, 11, 12, 13] : List Byte) →
    isIllegalCode code = true := by decide

/-- A decoded request belongs to the host's stream, is well formed, and has its encoding's length. -/
theorem decodeRequest_instr {bytes : List Byte} {i : Instr} (h : decodeRequest bytes = .instr i) :
    i.stream = .host ∧ i.wellFormed = true ∧ (encode i).length = bytes.length := by
  cases bytes with
  | nil => cases h
  | cons code ops =>
    unfold decodeRequest at h
    simp only at h
    rcases instr_of_ite h with ⟨-, h⟩ | ⟨h1, h⟩
    · split at h <;> cases h
      exact ⟨rfl, rfl, rfl⟩
    rcases instr_of_ite h with ⟨-, h⟩ | ⟨h2, h⟩
    · split at h <;> cases h
      exact ⟨rfl, rfl, rfl⟩
    rcases instr_of_ite h with ⟨-, h⟩ | ⟨h3, h⟩
    · split at h <;> cases h
      exact ⟨rfl, rfl, rfl⟩
    rcases instr_of_ite h with ⟨-, h⟩ | ⟨h6, h⟩
    · split at h <;> cases h
      exact ⟨rfl, rfl, rfl⟩
    rcases instr_of_ite h with ⟨-, h⟩ | ⟨h7, h⟩
    · split at h <;> cases h
      exact ⟨rfl, rfl, rfl⟩
    rcases instr_of_ite h with ⟨-, h⟩ | ⟨h8, h⟩
    · split at h <;> cases h
      exact ⟨rfl, rfl, rfl⟩
    cases ops with
    | cons => cases h
    | nil =>
      try simp only at h
      rcases instr_of_ite h with ⟨-, h⟩ | ⟨h4, h⟩
      · cases h; exact ⟨rfl, rfl, rfl⟩
      rcases instr_of_ite h with ⟨-, h⟩ | ⟨h5, h⟩
      · cases h; exact ⟨rfl, rfl, rfl⟩
      rcases instr_of_ite h with ⟨-, h⟩ | ⟨h9, h⟩
      · cases h; exact ⟨rfl, rfl, rfl⟩
      rcases instr_of_ite h with ⟨-, h⟩ | ⟨hA, h⟩
      · cases h; exact ⟨rfl, rfl, rfl⟩
      rcases instr_of_ite h with ⟨-, h⟩ | ⟨hB, h⟩
      · cases h; exact ⟨rfl, rfl, rfl⟩
      rcases instr_of_ite h with ⟨-, h⟩ | ⟨hC, h⟩
      · cases h; exact ⟨rfl, rfl, rfl⟩
      rcases instr_of_ite h with ⟨-, h⟩ | ⟨hD, h⟩
      · cases h; exact ⟨rfl, rfl, rfl⟩
      cases h
      refine ⟨rfl, illegal_of_notMem code ?_, rfl⟩
      simp only [List.mem_cons, List.not_mem_nil, or_false, not_or]
      exact ⟨h1, h2, h3, h4, h5, h6, h7, h8, h9, hA, hB, hC, hD⟩

namespace Machine

theorem some_of_ite {α : Type} {c : Prop} [Decidable c] {x y : α} {r : Option α} (h : (if c then some x else r) = some y) :
    (c ∧ x = y) ∨ r = some y := by
  split at h
  · next hc => exact .inl ⟨hc, Option.some.inj h⟩
  · exact .inr h

/-- A command step that decodes to i is i's own emission: the opcode picks the command, its bytes are the arguments. -/
theorem exec_of_decodeCommand {bytes : List Byte} {i : Instr} (h : decodeCommand bytes = .instr i) (s : State) :
    exec i s = emit (commandStep bytes) s := by
  cases bytes with
  | nil => cases h
  | cons op args =>
    rw [decodeCommand] at h
    cases hf : commandFormat op with
    | none => rw [hf] at h; cases h
    | some f =>
      rw [hf] at h
      unfold commandFormat at hf
      repeat'
        first
        | (cases hf; done)
        | rcases some_of_ite hf with ⟨rfl, rfl⟩ | hf
      all_goals simp only at h
      all_goals split at h
      all_goals cases h
      all_goals rfl

/-- A sequence step that decodes is emitted as it stands, whichever instruction it is. -/
theorem exec_of_decodeStep {st : SeqStep} {i : Instr} (h : decodeStep st = .instr i) (s : State) : exec i s = emit st s := by
  obtain ⟨ctrl, bytes⟩ := st
  unfold decodeStep at h
  split at h
  · next hc =>
    simp only at hc
    subst hc
    exact exec_of_decodeCommand h s
  · split at h
    · next hc =>
      simp only at hc
      subst hc
      simp only [decode, decodeData] at h
      split at h
      · cases h; rfl
      · cases h
    · cases h

end Machine

end Sys2Proof
end

