-- ==== Sys2Proof/Laws/PerInstr.lean ====
section
/-! SUPPORT. The laws that hold of every instruction, one lemma per constructor: an instruction's encoding has the length the
opcode table gives it. -/

namespace Sys2Proof.Laws.EncodedLength

/-- The length of an instruction's encoding: 1 + argc for a command (30_encoding.md R61, R62), the bytes column of R69 for a
request, 1 for an illegal code (R71), 1 + N for the data transaction (R64). -/
def length (i : Instr) : Nat :=
  match i with
  | .cmdSetContrast _ => 2
  | .cmdResume => 1
  | .cmdEntireDisplayOn => 1
  | .cmdDisplayModeNormal => 1
  | .cmdDisplayModeInvert => 1
  | .cmdTurnOff => 1
  | .cmdTurnOn => 1
  | .cmdSetDisplayOffset _ => 2
  | .cmdSetComPins _ => 2
  | .cmdSetVoltageOutput _ => 2
  | .cmdSetClockDivider _ => 2
  | .cmdSetPrechargeMode _ => 2
  | .cmdSetMultiplexer _ => 2
  | .cmdSetLowColumn => 1
  | .cmdSetHighColumn => 1
  | .cmdSetStartLine => 1
  | .cmdSetMemoryMode _ => 2
  | .cmdSetColumnAddressRange _ _ => 3
  | .cmdSetPageAddressRange _ _ => 3
  | .cmdScanDirectionModeIncrement => 1
  | .cmdScanDirectionModeDecrement => 1
  | .cmdSegmentRemapModeOff => 1
  | .cmdSegmentRemapModeOn => 1
  | .cmdSetChargePumpMode _ => 2
  | .reqConstruct _ _ _ _ => 3
  | .reqGetpx _ _ => 5
  | .reqSetpx _ _ _ => 6
  | .reqClear => 1
  | .reqPack => 1
  | .reqLoad _ _ _ _ => 9
  | .reqSetactive _ => 2
  | .reqSetcontrast _ => 2
  | .reqRender => 1
  | .reqDispose => 1
  | .reqGetcontrast => 1
  | .reqGetactive => 1
  | .reqGetgeom => 1
  | .illegal _ => 1
  | .displayData data => 1 + data.length

/-- The encoding of a well-formed instruction has the table's length, and a data transaction one a model has. -/
def Statement (i : Instr) : Prop :=
  i.wellFormed = true → (encode i).length = length i ∧ (i.stream = .data → isDataLength (length i - 1) = true)

theorem cmdSetContrast (a : Byte) : Statement (.cmdSetContrast a) := fun _ => ⟨rfl, fun h => by cases h⟩
theorem cmdResume : Statement .cmdResume := fun _ => ⟨rfl, fun h => by cases h⟩
theorem cmdEntireDisplayOn : Statement .cmdEntireDisplayOn := fun _ => ⟨rfl, fun h => by cases h⟩
theorem cmdDisplayModeNormal : Statement .cmdDisplayModeNormal := fun _ => ⟨rfl, fun h => by cases h⟩
theorem cmdDisplayModeInvert : Statement .cmdDisplayModeInvert := fun _ => ⟨rfl, fun h => by cases h⟩
theorem cmdTurnOff : Statement .cmdTurnOff := fun _ => ⟨rfl, fun h => by cases h⟩
theorem cmdTurnOn : Statement .cmdTurnOn := fun _ => ⟨rfl, fun h => by cases h⟩
theorem cmdSetDisplayOffset (a : Byte) : Statement (.cmdSetDisplayOffset a) := fun _ => ⟨rfl, fun h => by cases h⟩
theorem cmdSetComPins (a : Byte) : Statement (.cmdSetComPins a) := fun _ => ⟨rfl, fun h => by cases h⟩
theorem cmdSetVoltageOutput (a : Byte) : Statement (.cmdSetVoltageOutput a) := fun _ => ⟨rfl, fun h => by cases h⟩
theorem cmdSetClockDivider (a : Byte) : Statement (.cmdSetClockDivider a) := fun _ => ⟨rfl, fun h => by cases h⟩
theorem cmdSetPrechargeMode (a : Byte) : Statement (.cmdSetPrechargeMode a) := fun _ => ⟨rfl, fun h => by cases h⟩
theorem cmdSetMultiplexer (a : Byte) : Statement (.cmdSetMultiplexer a) := fun _ => ⟨rfl, fun h => by cases h⟩
theorem cmdSetLowColumn : Statement .cmdSetLowColumn := fun _ => ⟨rfl, fun h => by cases h⟩
theorem cmdSetHighColumn : Statement .cmdSetHighColumn := fun _ => ⟨rfl, fun h => by cases h⟩
theorem cmdSetStartLine : Statement .cmdSetStartLine := fun _ => ⟨rfl, fun h => by cases h⟩
theorem cmdSetMemoryMode (a : Byte) : Statement (.cmdSetMemoryMode a) := fun _ => ⟨rfl, fun h => by cases h⟩
theorem cmdSetColumnAddressRange (a b : Byte) : Statement (.cmdSetColumnAddressRange a b) := fun _ => ⟨rfl, fun h => by cases h⟩
theorem cmdSetPageAddressRange (a b : Byte) : Statement (.cmdSetPageAddressRange a b) := fun _ => ⟨rfl, fun h => by cases h⟩
theorem cmdScanDirectionModeIncrement : Statement .cmdScanDirectionModeIncrement := fun _ => ⟨rfl, fun h => by cases h⟩
theorem cmdScanDirectionModeDecrement : Statement .cmdScanDirectionModeDecrement := fun _ => ⟨rfl, fun h => by cases h⟩
theorem cmdSegmentRemapModeOff : Statement .cmdSegmentRemapModeOff := fun _ => ⟨rfl, fun h => by cases h⟩
theorem cmdSegmentRemapModeOn : Statement .cmdSegmentRemapModeOn := fun _ => ⟨rfl, fun h => by cases h⟩
theorem cmdSetChargePumpMode (a : Byte) : Statement (.cmdSetChargePumpMode a) := fun _ => ⟨rfl, fun h => by cases h⟩
theorem reqConstruct (a : BitVec 2) (b : PowerMode) (c : Bool) (d : BusAddr) : Statement (.reqConstruct a b c d) := fun _ => ⟨rfl, fun h => by cases h⟩
theorem reqGetpx (a b : Half) : Statement (.reqGetpx a b) := fun _ => ⟨rfl, fun h => by cases h⟩
theorem reqSetpx (a b : Half) (c : Bool) : Statement (.reqSetpx a b c) := fun _ => ⟨rfl, fun h => by cases h⟩
theorem reqClear : Statement .reqClear := fun _ => ⟨rfl, fun h => by cases h⟩
theorem reqPack : Statement .reqPack := fun _ => ⟨rfl, fun h => by cases h⟩
theorem reqLoad (a b c d : Half) : Statement (.reqLoad a b c d) := fun _ => ⟨rfl, fun h => by cases h⟩
theorem reqSetactive (a : Bool) : Statement (.reqSetactive a) := fun _ => ⟨rfl, fun h => by cases h⟩
theorem reqSetcontrast (a : Byte) : Statement (.reqSetcontrast a) := fun _ => ⟨rfl, fun h => by cases h⟩
theorem reqRender : Statement .reqRender := fun _ => ⟨rfl, fun h => by cases h⟩
theorem reqDispose : Statement .reqDispose := fun _ => ⟨rfl, fun h => by cases h⟩
theorem reqGetcontrast : Statement .reqGetcontrast := fun _ => ⟨rfl, fun h => by cases h⟩
theorem reqGetactive : Statement .reqGetactive := fun _ => ⟨rfl, fun h => by cases h⟩
theorem reqGetgeom : Statement .reqGetgeom := fun _ => ⟨rfl, fun h => by cases h⟩
theorem illegal (a : Byte) : Statement (.illegal a) := fun _ => ⟨rfl, fun h => by cases h⟩
theorem displayData (a : List Byte) : Statement (.displayData a) := fun h =>
  ⟨by simp [encode, length, Nat.add_comm], fun _ => by rw [length, Nat.add_sub_cancel_left]; exact h⟩

end Sys2Proof.Laws.EncodedLength
end

