-- ==== Sys2Proof/Laws/Requests.lean ====
section
/-! SUPPORT. The laws of the operations that begin a request and read a register, and what every sequencer operation leaves
unchanged. -/

namespace Sys2Proof.Machine

theorem accept_ready {s : State} (h : s.busy = false) (f : State → Host.Outcome State Fault Refusal) :
    accept s f = f (accepted s) := by
  simp [accept, h]

theorem accept_busy {s : State} (h : s.busy = true) (f : State → Host.Outcome State Fault Refusal) :
    accept s f = .refused .hostPortBusy := by
  simp [accept, h]

theorem constructed_iff (s : State) : constructed s = true ↔ s.life = .active ∨ s.life = .inactive := by
  simp [constructed]

theorem fresh_iff (s : State) : fresh s = true ↔ s.life = .uninitialized ∧ s.initFailed = false := by
  simp [fresh]

theorem gate_open {s : State} (h : constructed s = true) (f : State → Host.Outcome State Fault Refusal) : gate s f = f s := by
  simp [gate, h]

theorem gate_closed {s : State} (h : constructed s = false) (f : State → Host.Outcome State Fault Refusal) :
    gate s f = raise .usageError s := by
  simp [gate, h]

theorem withModel_some {s : State} {d : DisplayModel} (h : s.model = some d)
    (f : DisplayModel → Host.Outcome State Fault Refusal) : withModel s f = f d := by
  simp [withModel, withValue, h]

theorem withFb_some {s : State} {m : Memory} (h : s.fb = some m) (f : Memory → Host.Outcome State Fault Refusal) :
    withFb s f = f m := by
  simp [withFb, withValue, h]

theorem withContrast_some {s : State} {c : Byte} (h : s.contrast = some c)
    (f : Byte → Host.Outcome State Fault Refusal) : withContrast s f = f c := by
  simp [withContrast, withValue, h]

/-- Accepting a request and then answering it is answering it: a request leaves `busy` 0 and `seqPC` 0. -/
@[simp] theorem giveResponse_accepted (r : Response) (s : State) : giveResponse r (accepted s) = giveResponse r s := rfl

/-- The parts of the state no sequencer operation writes. -/
structure SamePorts (s t : State) : Prop where
  hostIn : t.hostIn = s.hostIn
  surface : t.surface = s.surface
  framing : t.framing = s.framing

theorem SamePorts.refl (s : State) : SamePorts s s := ⟨rfl, rfl, rfl⟩

theorem SamePorts.trans {s t u : State} (h : SamePorts s t) (k : SamePorts t u) : SamePorts s u :=
  ⟨k.hostIn.trans h.hostIn, k.surface.trans h.surface, k.framing.trans h.framing⟩

theorem sequenceDone_ports (s : State) :
    SamePorts s (sequenceDone s) ∧ (sequenceDone s).busLog = s.busLog ∧ (sequenceDone s).transportIn = s.transportIn ∧
      (sequenceDone s).busy = false := by
  unfold sequenceDone
  split <;> exact ⟨⟨rfl, rfl, rfl⟩, rfl, rfl, rfl⟩

theorem sequenceFailed_ports (s : State) :
    SamePorts s (sequenceFailed s) ∧ (sequenceFailed s).busLog = s.busLog ∧
      (sequenceFailed s).transportIn = s.transportIn ∧ (sequenceFailed s).busy = false := by
  unfold sequenceFailed
  split <;> exact ⟨⟨rfl, rfl, rfl⟩, rfl, rfl, rfl⟩

theorem stepAcked_ports {s t : State} (h : stepAcked s = .next t) :
    SamePorts s t ∧ t.busLog = s.busLog ∧ t.transportIn = s.transportIn := by
  unfold stepAcked andThen at h
  cases ha : afterAck s with
  | fault r => rw [ha] at h; cases h
  | refused r => rw [ha] at h; cases h
  | next u =>
    rw [ha] at h
    have hu := afterAck_next ha
    simp only [Host.Outcome.next.injEq] at h
    subst h
    have hp : SamePorts s (countStep u) := by rw [hu]; exact ⟨rfl, rfl, rfl⟩
    have hl : (countStep u).busLog = s.busLog := by rw [hu]; rfl
    have ht : (countStep u).transportIn = s.transportIn := by rw [hu]; rfl
    split
    · obtain ⟨h1, h2, h3, -⟩ := sequenceDone_ports (countStep u)
      exact ⟨hp.trans h1, h2.trans hl, h3.trans ht⟩
    · exact ⟨hp, hl, ht⟩

/-- What presenting transactions does to the ports: the bus log grows by some of them, and host, surface and framing stay. -/
theorem transmit_ports {ts : List Txn} {s t : State} (h : transmit ts s = .next t) :
    SamePorts s t ∧ ∃ new, t.busLog = s.busLog ++ new ∧ ∀ e ∈ new, e.txn ∈ ts := by
  unfold transmit at h
  split at h
  · rcases present_cases ts s with ⟨rest, -, hp⟩ | ⟨pre, x, post, rest, hts, -, hp⟩ | ⟨pre, x, post, rest, hts, -, -, hp⟩
    · rw [hp] at h
      obtain ⟨h1, h2, -⟩ := stepAcked_ports h
      refine ⟨⟨h1.hostIn, h1.surface, h1.framing⟩, ackedEvents ts, h2, ?_⟩
      intro e he
      obtain ⟨y, hy, rfl⟩ := List.mem_map.mp he
      exact hy
    · rw [hp] at h
      simp only [Host.Outcome.next.injEq] at h
      subst h
      obtain ⟨h1, h2, -, -⟩ := sequenceFailed_ports
        { s with transportIn := rest, busLog := s.busLog ++ (ackedEvents pre ++ [⟨x, false⟩]) }
      refine ⟨⟨h1.hostIn, h1.surface, h1.framing⟩, _, h2, ?_⟩
      intro e he
      rw [hts]
      rcases List.mem_append.mp he with he | he
      · obtain ⟨y, hy, rfl⟩ := List.mem_map.mp he
        exact List.mem_append_left _ hy
      · rw [List.mem_singleton.mp he]; simp
    · rw [hp] at h
      simp only [Host.Outcome.next.injEq] at h
      subst h
      refine ⟨⟨rfl, rfl, rfl⟩, ackedEvents pre, rfl, ?_⟩
      intro e he
      obtain ⟨y, hy, rfl⟩ := List.mem_map.mp he
      rw [hts]
      exact List.mem_append_left _ hy
  · cases h
    exact ⟨SamePorts.refl _, [], by simp, by simp⟩

theorem emit_ports {st : SeqStep} {s t : State} (h : emit st s = .next t) :
    SamePorts s t ∧ ∃ new, t.busLog = s.busLog ++ new ∧
      ∀ e ∈ new, ∃ a, s.busAddr = some a ∧ e.txn ∈ transactions s.framing a st := by
  unfold emit withBusAddr withValue at h
  split at h
  · split at h
    · next a ha =>
      obtain ⟨h1, new, h2, h3⟩ := transmit_ports h
      exact ⟨h1, new, h2, fun e he => ⟨a, ha, h3 e he⟩⟩
    · cases h
  · cases h
    exact ⟨SamePorts.refl _, [], by simp, by simp⟩

theorem runScript_ports {steps : List SeqStep} {s t : State} (h : runScript steps s = .next t) : SamePorts s t := by
  induction steps generalizing s with
  | nil => cases h; exact SamePorts.refl _
  | cons st steps ih =>
    rw [runScript] at h
    cases he : emit st { s with script := steps } with
    | fault r => rw [he] at h; cases h
    | refused r => rw [he] at h; cases h
    | next u =>
      rw [he] at h
      simp only [andThen] at h
      obtain ⟨⟨h1, h2, h3⟩, -⟩ := emit_ports he
      have hu : SamePorts s u := ⟨h1, h2, h3⟩
      split at h
      · exact hu.trans (ih h)
      · cases h; exact hu

theorem runJob_ports {j : Job} {steps : List SeqStep} {s t : State} (h : runJob j steps s = .next t) : SamePorts s t := by
  obtain ⟨h1, h2, h3⟩ := runScript_ports h
  exact ⟨h1, h2, h3⟩

end Sys2Proof.Machine
end

