-- ==== Sys2Proof/Laws/Progress.lean ====
section
/-! SUPPORT. Everything a step of the sequencer, and a whole sequence, can do when it answers a next state: said once, for every
way the transport can answer. -/

namespace Sys2Proof.Machine

/-- One step of a run, and the rest of it. -/
theorem run_next {M : Host.Core} {s t : M.State} (n : Nat) (h : M.step s = .next t) : M.run (n + 1) s = M.run n t := by
  rw [Host.Core.run, h]

/-- The state after a step's acknowledgement, before the end of the sequence is looked at. -/
def stepped (s : State) (sent : List Txn) (rest : List Answer) : State :=
  { s with
    life := lifeAfter s.job s.seqPC s.life
    contrast := contrastAfter (modelOf s) (powerOf s) s.job s.seqPC s.contrast
    seqPC := s.seqPC + 1
    inFlight := []
    transportIn := rest
    busLog := s.busLog ++ ackedEvents sent }

theorem afterAck_next_eq {s t : State} (h : afterAck s = .next t) :
    t = { s with
      life := lifeAfter s.job s.seqPC s.life
      contrast := contrastAfter (modelOf s) (powerOf s) s.job s.seqPC s.contrast } := by
  obtain ⟨life, initFailed, model, power, busAddr, contrast, fb, seqPC, busy, txOpen, job, script⟩ := s
  simp only [afterAck, withModel, withValue, withPower] at h
  simp only [lifeAfter, contrastAfter, modelOf, powerOf]
  cases job with
  | none => cases h; rfl
  | some j =>
    cases j with
    | construct =>
      simp only at h ⊢
      split at h
      · next h10 =>
        subst h10
        cases model <;> cases power <;> simp_all
      · next h10 =>
        split at h
        · next h14 => subst h14; cases h; rfl
        · next h14 =>
          split at h
          · next h15 => subst h15; cases h; rfl
          · next h15 => cases h; simp only [h10, h14, h15, if_false]
    | setActive b => cases h; rfl
    | setContrast c => cases h; rfl
    | render => cases h; rfl
    | dispose => cases h; rfl

/-- Everything that presenting a step's transactions can do, when it answers a next state. -/
theorem transmit_cases {ts : List Txn} {s t : State} (h : transmit ts s = .next t) :
    (s.txOpen = false ∧ t = s) ∨
    (s.txOpen = true ∧
      ((∃ rest, s.transportIn = List.replicate ts.length .ack ++ rest ∧
          t = if s.script.isEmpty then sequenceDone (stepped s ts rest) else stepped s ts rest) ∨
        (∃ pre x post rest, ts = pre ++ x :: post ∧ s.transportIn = List.replicate pre.length .ack ++ .fail :: rest ∧
          t = sequenceFailed { s with transportIn := rest, busLog := s.busLog ++ (ackedEvents pre ++ [⟨x, false⟩]) }) ∨
        (∃ pre x post rest, ts = pre ++ x :: post ∧ s.transportIn = List.replicate pre.length .ack ++ rest ∧
          Silent rest ∧
          t = { s with busy := true, inFlight := x :: post, transportIn := rest, busLog := s.busLog ++ ackedEvents pre }))) := by
  unfold transmit at h
  split at h
  · next ho =>
    refine .inr ⟨ho, ?_⟩
    rcases present_cases ts s with ⟨rest, ha, hp⟩ | ⟨pre, x, post, rest, hts, ha, hp⟩ |
      ⟨pre, x, post, rest, hts, ha, hs, hp⟩
    · rw [hp] at h
      refine .inl ⟨rest, ha, ?_⟩
      simp only [stepAcked, andThen] at h
      split at h
      · next u hu =>
        have := afterAck_next_eq hu
        subst this
        simp only [Host.Outcome.next.injEq] at h
        exact h.symm
      · cases h
      · cases h
    · rw [hp] at h
      exact .inr (.inl ⟨pre, x, post, rest, hts, ha, (Host.Outcome.next.inj h).symm⟩)
    · rw [hp] at h
      exact .inr (.inr ⟨pre, x, post, rest, hts, ha, hs, (Host.Outcome.next.inj h).symm⟩)
  · next ho => exact .inl ⟨by simpa using ho, (Host.Outcome.next.inj h).symm⟩

/-- An emission that answers a next state presents the step's transactions to BUSADDR, or the handle is closed. -/
theorem emit_next {st : SeqStep} {s t : State} (h : emit st s = .next t) :
    (s.txOpen = false ∧ t = s) ∨
    (s.txOpen = true ∧ ∃ a, s.busAddr = some a ∧ transmit (transactions s.framing a st) s = .next t) := by
  unfold emit withBusAddr withValue at h
  split at h
  · next ho =>
    split at h
    · next a ha => exact .inr ⟨ho, a, ha, h⟩
    · cases h
  · next ho => exact .inl ⟨by simpa using ho, (Host.Outcome.next.inj h).symm⟩

/-- u is s after n more steps of its sequence and the acknowledgement of the transactions `sent`: nothing else differs but
what is left to do. -/
structure Progress (s u : State) (n : Nat) (sent : List Txn) : Prop where
  eq : u = { s with
    life := lifeAfterSteps s.job n s.seqPC s.life
    contrast :=
      contrastAfterSteps (modelOf s) (powerOf s) s.job n s.seqPC s.contrast
    seqPC := s.seqPC + BitVec.ofNat 5 n
    script := u.script
    inFlight := u.inFlight
    transportIn := u.transportIn
    busLog := s.busLog ++ ackedEvents sent }
  answers : s.transportIn = List.replicate sent.length .ack ++ u.transportIn

/-! ### What a request in progress keeps, and what it writes -/

variable {s u : State} {n : Nat} {sent : List Txn}

theorem Progress.initFailed (h : Progress s u n sent) : u.initFailed = s.initFailed := by rw [h.eq]
theorem Progress.model (h : Progress s u n sent) : u.model = s.model := by rw [h.eq]
theorem Progress.power (h : Progress s u n sent) : u.power = s.power := by rw [h.eq]
theorem Progress.busAddr (h : Progress s u n sent) : u.busAddr = s.busAddr := by rw [h.eq]
theorem Progress.fb (h : Progress s u n sent) : u.fb = s.fb := by rw [h.eq]
theorem Progress.busy (h : Progress s u n sent) : u.busy = s.busy := by rw [h.eq]
theorem Progress.txOpen (h : Progress s u n sent) : u.txOpen = s.txOpen := by rw [h.eq]
theorem Progress.job (h : Progress s u n sent) : u.job = s.job := by rw [h.eq]
theorem Progress.hostIn (h : Progress s u n sent) : u.hostIn = s.hostIn := by rw [h.eq]
theorem Progress.responses (h : Progress s u n sent) : u.responses = s.responses := by rw [h.eq]
theorem Progress.surface (h : Progress s u n sent) : u.surface = s.surface := by rw [h.eq]
theorem Progress.framing (h : Progress s u n sent) : u.framing = s.framing := by rw [h.eq]
theorem Progress.draws (h : Progress s u n sent) : u.draws = s.draws := by rw [h.eq]
theorem Progress.life (h : Progress s u n sent) : u.life = lifeAfterSteps s.job n s.seqPC s.life := by rw [h.eq]
theorem Progress.contrast (h : Progress s u n sent) :
    u.contrast =
      contrastAfterSteps (modelOf s) (powerOf s) s.job n s.seqPC s.contrast := by rw [h.eq]
theorem Progress.seqPC (h : Progress s u n sent) : u.seqPC = s.seqPC + BitVec.ofNat 5 n := by rw [h.eq]
theorem Progress.busLog (h : Progress s u n sent) : u.busLog = s.busLog ++ ackedEvents sent := by rw [h.eq]

/-- `life` during a CONSTRUCT: Uninitialized until step 14 is acknowledged, then Inactive, then Active (41_sequencer.md R101). -/
theorem lifeAfterSteps_construct : ∀ n ≤ 16,
    lifeAfterSteps (some .construct) n 0 .uninitialized =
      if n < 15 then .uninitialized else if n = 15 then .inactive else .active := by decide

/-- `contrast` during a CONSTRUCT: written after step 10 (41_sequencer.md R101). -/
theorem contrastAfterSteps_construct (d : DisplayModel) (p : PowerMode) (c : Option Byte) : ∀ n ≤ 16,
    contrastAfterSteps d p (some .construct) n 0 c = if n < 11 then c else some (defaultContrast d p) := by
  intro n hn
  interval_cases n <;> rfl

/-- A transaction of one of the steps, to BUSADDR. -/
def OfSteps (s : State) (steps : List SeqStep) (x : Txn) : Prop :=
  ∃ a st, s.busAddr = some a ∧ st ∈ steps ∧ x ∈ transactions s.framing a st


/-- With the handle closed a sequence emits nothing and writes nothing. -/
theorem runScript_closed {steps : List SeqStep} {s t : State} (ho : s.txOpen = false) (h : runScript steps s = .next t) :
    t = { s with script := t.script } := by
  induction steps generalizing s with
  | nil => cases h; rfl
  | cons st steps ih =>
    rw [runScript, emit_closed (s := { s with script := steps }) ho] at h
    simp only [andThen] at h
    split at h
    · have := ih (s := { s with script := steps }) ho h
      rw [this]
    · cases h; rfl

theorem sequenceDone_busy (s : State) : (sequenceDone s).busy = false := by
  unfold sequenceDone; split <;> rfl

theorem sequenceFailed_busy (s : State) : (sequenceFailed s).busy = false := by
  unfold sequenceFailed; split <;> rfl

/-- Everything that running a request's sequence can do, when it answers a next state: all its steps are acknowledged and it is
done; or a transaction fails after n steps; or it waits (or emits nothing, the handle being closed) after n steps. -/
theorem runScript_next {steps : List SeqStep} {s t : State} (hb : s.busy = true) (h : runScript steps s = .next t) :
    ∃ u n sent, Progress s u n sent ∧ (∀ x ∈ sent, OfSteps s steps x) ∧
      ((t = sequenceDone u ∧ n = steps.length) ∨
       (n < steps.length ∧ ∃ x rest, OfSteps s steps x ∧ u.transportIn = .fail :: rest ∧
         t = sequenceFailed { u with transportIn := rest, busLog := u.busLog ++ [⟨x, false⟩] }) ∨
       (t = u ∧ (n < steps.length ∨ n = 0))) := by
  cases ho : s.txOpen with
  | false =>
    have := runScript_closed ho h
    refine ⟨t, 0, [], ⟨?_, ?_⟩, by simp, .inr (.inr ⟨rfl, .inr rfl⟩)⟩
    · rw [this]; simp [lifeAfterSteps, contrastAfterSteps]
    · rw [this]; simp
  | true =>
    induction steps generalizing s with
    | nil =>
      cases h
      exact ⟨t, 0, [], ⟨by simp [lifeAfterSteps, contrastAfterSteps], by simp⟩, by simp, .inr (.inr ⟨rfl, .inr rfl⟩)⟩
    | cons st steps ih =>
      rw [runScript] at h
      cases hv : emit st { s with script := steps } with
      | fault r => rw [hv] at h; cases h
      | refused r => rw [hv] at h; cases h
      | next v =>
        rw [hv] at h
        simp only [andThen] at h
        rcases emit_next hv with ⟨hc, -⟩ | ⟨-, a, ha, hv⟩
        · simp [ho] at hc
        · have own {x : Txn} (hx : x ∈ transactions s.framing a st) : OfSteps s (st :: steps) x :=
            ⟨a, st, ha, List.mem_cons_self .., hx⟩
          rcases transmit_cases hv with ⟨hc, -⟩ | ⟨-, ⟨rest, hr, rfl⟩ | ⟨pre, x, post, rest, hts, hr, rfl⟩ |
            ⟨pre, x, post, rest, hts, hr, hs, rfl⟩⟩
          · simp [ho] at hc
          · cases steps with
            | nil =>
              simp only [List.isEmpty_nil, if_true, sequenceDone_busy, Bool.false_and, Bool.false_eq_true, if_false] at h
              cases h
              exact ⟨_, 1, transactions s.framing a st, ⟨by rfl, hr⟩, fun x hx => own hx, .inl ⟨rfl, rfl⟩⟩
            | cons st' steps' =>
              simp only [List.isEmpty_cons, Bool.false_eq_true, if_false] at h
              rw [if_pos (by simp [stepped, hb])] at h
              obtain ⟨u, n, sent, hp, hx, hc⟩ := ih (s := stepped _ _ _) (by exact hb) (by exact h) (by exact ho)
              have len {n : Nat} (hn : n < (st' :: steps').length) : n + 1 < (st :: st' :: steps').length := by
                simp only [List.length_cons] at *; omega
              refine ⟨u, n + 1, transactions s.framing a st ++ sent, ⟨?_, ?_⟩, ?_, ?_⟩
              · have he := hp.eq
                rw [he]
                simp [stepped, lifeAfterSteps, contrastAfterSteps, modelOf, powerOf, BitVec.add_assoc, ← BitVec.ofNat_add, Nat.add_comm]
              · have := hp.answers
                simp only [stepped] at this
                rw [hr, this, List.length_append, List.replicate_add, List.append_assoc]
              · intro x hxs
                rcases List.mem_append.mp hxs with hxs | hxs
                · exact own hxs
                · obtain ⟨a', st'', h1, h2, h3⟩ := hx x hxs
                  exact ⟨a', st'', h1, List.mem_cons_of_mem _ h2, h3⟩
              · rcases hc with ⟨h1, h2⟩ | ⟨h1, x, rest', ⟨a', st'', h2, h3, h4⟩, h5, h6⟩ | ⟨h1, h2⟩
                · exact .inl ⟨h1, by rw [h2]; rfl⟩
                · exact .inr (.inl ⟨len h1, x, rest', ⟨a', st'', h2, List.mem_cons_of_mem _ h3, h4⟩, h5, h6⟩)
                · refine .inr (.inr ⟨h1, .inl ?_⟩)
                  rcases h2 with h2 | h2
                  · exact len h2
                  · subst h2; simp
          · simp only [sequenceFailed_busy, Bool.false_and, Bool.false_eq_true, if_false] at h
            cases h
            have hx : ∀ y ∈ pre ++ [x], OfSteps s (st :: steps) y := by
              intro y hy
              apply own
              have hts' : transactions s.framing a st = pre ++ x :: post := hts
              rw [hts']
              rcases List.mem_append.mp hy with hy | hy
              · exact List.mem_append_left _ hy
              · rw [List.mem_singleton.mp hy]; simp
            refine ⟨{ s with script := steps, transportIn := .fail :: rest, busLog := s.busLog ++ ackedEvents pre }, 0, pre,
              ⟨by simp [lifeAfterSteps, contrastAfterSteps], hr⟩, fun y hy => hx y (List.mem_append_left _ hy),
              .inr (.inl ⟨by simp, x, rest, hx x (by simp), rfl, ?_⟩)⟩
            simp
          · simp only [List.isEmpty_cons, Bool.and_false, Bool.false_eq_true, if_false] at h
            cases h
            refine ⟨_, 0, pre, ⟨by simp [lifeAfterSteps, contrastAfterSteps, hb], hr⟩, fun y hy => own ?_,
              .inr (.inr ⟨rfl, .inl (by simp)⟩)⟩
            have hts' : transactions s.framing a st = pre ++ x :: post := hts
            rw [hts']
            exact List.mem_append_left _ hy

end Sys2Proof.Machine
end

