-- ==== Sys2Proof/Laws/RequestCases.lean ====
section
/-! SUPPORT. Everything a host request can do when it answers a next state: said once, request by request, with the condition
under which each case arises. -/

namespace Sys2Proof.Machine

/-- The eleven requests behind the gate. -/
def IsGated (i : Instr) : Prop :=
  (∃ x y, i = .reqGetpx x y) ∨ (∃ x y v, i = .reqSetpx x y v) ∨ i = .reqClear ∨ i = .reqPack ∨
    (∃ ox oy num den, i = .reqLoad ox oy num den) ∨ (∃ b, i = .reqSetactive b) ∨ (∃ c, i = .reqSetcontrast c) ∨
    i = .reqRender ∨ i = .reqGetcontrast ∨ i = .reqGetactive ∨ i = .reqGetgeom

/-- The ways request i, presented in s to a block that is not busy, leads to t. -/
inductive RequestStep (s : State) : Instr → State → Prop
  | gateClosed {i} : IsGated i → constructed s = false → RequestStep s i (giveResponse (.error .usageError) s)
  | constructNotFresh {m p tp a} : fresh s = false →
      RequestStep s (.reqConstruct m p tp a) (giveResponse (.error .usageError) s)
  | disposeUninitialized : s.life = .uninitialized → RequestStep s .reqDispose (giveResponse (.error .usageError) s)
  | illegal {c} : RequestStep s (.illegal c) (giveResponse (.error .illegalRequest) s)
  | constructBadModel {m p tp a} : fresh s = true → modelOfCode m = none →
      RequestStep s (.reqConstruct m p tp a) (giveResponse (.error .configError) s)
  | constructNoTransport {m p a d} : fresh s = true → modelOfCode m = some d →
      RequestStep s (.reqConstruct m p false a) (giveResponse (.error .invalidArgument) s)
  | loadInvalid {ox oy num den} : constructed s = true → s.surface = none ∨ den = 0 →
      RequestStep s (.reqLoad ox oy num den) (giveResponse (.error .invalidArgument) s)
  | loadOutside {ox oy num den f d} : constructed s = true → s.surface = some f → den ≠ 0 → s.model = some d →
      windowOutside d f ox oy = true → RequestStep s (.reqLoad ox oy num den) (giveResponse (.error .outOfRange) s)
  | load {ox oy num den f d} : constructed s = true → s.surface = some f → den ≠ 0 → s.model = some d →
      windowOutside d f ox oy = false →
      RequestStep s (.reqLoad ox oy num den) (giveResponse (.ok [])
        { s with fb := some (memoryOfBits (dataLength d) (loadBit d f ox oy num den)) })
  | getpxOutside {x y d} : constructed s = true → s.model = some d → inBounds d x y = false →
      RequestStep s (.reqGetpx x y) (giveResponse (.error .outOfRange) s)
  | getpx {x y d m} : constructed s = true → s.model = some d → inBounds d x y = true → s.fb = some m →
      RequestStep s (.reqGetpx x y) (giveResponse (.ok [bitByte (readBit m (pixelIndex d x y))]) s)
  | setpxOutside {x y v d} : constructed s = true → s.model = some d → inBounds d x y = false →
      RequestStep s (.reqSetpx x y v) (giveResponse (.error .outOfRange) s)
  | setpx {x y v d m} : constructed s = true → s.model = some d → inBounds d x y = true → s.fb = some m →
      RequestStep s (.reqSetpx x y v)
        (giveResponse (.ok []) { s with fb := some (writeBit m (pixelIndex d x y) v) })
  | clear : constructed s = true →
      RequestStep s .reqClear (giveResponse (.ok []) { s with fb := some clearMemory })
  | pack {d m} : constructed s = true → s.model = some d → s.fb = some m →
      RequestStep s .reqPack (giveResponse (.ok (packedImage d m)) s)
  | getcontrast {c} : constructed s = true → s.contrast = some c →
      RequestStep s .reqGetcontrast (giveResponse (.ok [c]) s)
  | getactive : constructed s = true → RequestStep s .reqGetactive (giveResponse (.ok [bitByte (s.life == .active)]) s)
  | getgeom {d} : constructed s = true → s.model = some d →
      RequestStep s .reqGetgeom (giveResponse (.ok (geometryBytes d)) s)
  | disposeAgain : s.life = .disposed → RequestStep s .reqDispose (giveResponse (.ok []) s)
  | construct {m p a d t} : fresh s = true → modelOfCode m = some d →
      runJob .construct (initSequence d p)
        { accepted s with
          model := some d, power := some p, busAddr := some a, txOpen := true, fb := some clearMemory } = .next t →
      RequestStep s (.reqConstruct m p true a) t
  | setactive {b t} : constructed s = true →
      runJob (.setActive b) [commandStep [if b then 0xAF else 0xAE]] (accepted s) = .next t →
      RequestStep s (.reqSetactive b) t
  | setcontrast {c t} : constructed s = true →
      runJob (.setContrast c) [commandStep [0x81, c]] (accepted s) = .next t → RequestStep s (.reqSetcontrast c) t
  | render {d m t} : constructed s = true → s.model = some d → s.fb = some m →
      runJob .render (renderSequence d (memRead d m 1 (dataLength d))) (accepted s) = .next t → RequestStep s .reqRender t
  | dispose {t} : constructed s = true → runJob .dispose [commandStep [0xAE]] (accepted s) = .next t →
      RequestStep s .reqDispose t

/-- The two ways through the gate. -/
theorem gate_next {s t : State} {f : State → Host.Outcome State Fault Refusal} (h : gate (accepted s) f = .next t) :
    (constructed s = true ∧ f (accepted s) = .next t) ∨
      (constructed s = false ∧ t = giveResponse (.error .usageError) s) := by
  have hc : constructed (accepted s) = constructed s := rfl
  cases hcs : constructed s with
  | true => rw [gate_open (hc.trans hcs)] at h; exact .inl ⟨rfl, h⟩
  | false => rw [gate_closed (hc.trans hcs)] at h; cases h; exact .inr ⟨rfl, rfl⟩

/-- Every host request that answers a next state was presented to a block that is not busy, and did one of the things
`RequestStep` lists. -/
theorem exec_request {i : Instr} {s t : State} (hi : i.stream = .host) (h : exec i s = .next t) :
    s.busy = false ∧ RequestStep s i t := by
  have hb : s.busy = false := by
    cases hb : s.busy with
    | false => rfl
    | true =>
      cases i <;> first
        | (cases hi; done)
        | (exfalso; rw [exec] at h; exact absurd (h.symm.trans (accept_busy hb _)) (by simp))
  refine ⟨hb, ?_⟩
  cases i with
  | reqConstruct m p tp a =>
    simp only [exec, execConstruct, accept_ready hb] at h
    split at h
    · next hf =>
      split at h
      · next hm => cases h; exact .constructBadModel hf hm
      · next d hm =>
        cases tp with
        | true => exact .construct hf hm h
        | false => cases h; exact .constructNoTransport hf hm
    · next hf =>
      have hn : fresh (accepted s) = false := by simpa using hf
      cases h
      exact .constructNotFresh hn
  | reqGetpx x y =>
    simp only [exec, execGetpx, accept_ready hb] at h
    rcases gate_next h with ⟨hu, h⟩ | ⟨hu, rfl⟩
    · simp only [withModel, withValue, withFb] at h
      repeat' split at h
      all_goals cases h
      · next hd hi _ _ hm => exact .getpx hu hd hi hm
      · next hd hn => exact .getpxOutside hu hd (by simpa using hn)
    · exact .gateClosed (by simp [IsGated]) hu
  | reqSetpx x y v =>
    simp only [exec, execSetpx, accept_ready hb] at h
    rcases gate_next h with ⟨hu, h⟩ | ⟨hu, rfl⟩
    · simp only [withModel, withValue, withFb] at h
      repeat' split at h
      all_goals cases h
      · next hd hi _ _ hm => exact .setpx hu hd hi hm
      · next hd hn => exact .setpxOutside hu hd (by simpa using hn)
    · exact .gateClosed (by simp [IsGated]) hu
  | reqClear =>
    simp only [exec, execClear, accept_ready hb] at h
    rcases gate_next h with ⟨hu, h⟩ | ⟨hu, rfl⟩
    · cases h; exact .clear hu
    · exact .gateClosed (by simp [IsGated]) hu
  | reqPack =>
    simp only [exec, execPack, accept_ready hb] at h
    rcases gate_next h with ⟨hu, h⟩ | ⟨hu, rfl⟩
    · simp only [withModel, withValue, withFb, memRead_all] at h
      repeat' split at h
      all_goals cases h
      next hd _ _ hm => exact .pack hu hd hm
    · exact .gateClosed (by simp [IsGated]) hu
  | reqLoad ox oy num den =>
    simp only [exec, execLoad, accept_ready hb] at h
    rcases gate_next h with ⟨hu, h⟩ | ⟨hu, rfl⟩
    · split at h
      · next hf => cases h; exact .loadInvalid hu (.inl hf)
      · next f hf =>
        split at h
        · next hd => cases h; exact .loadInvalid hu (.inr hd)
        · next hden =>
          simp only [withModel, withValue] at h
          repeat' split at h
          all_goals cases h
          · next hd hw => exact .loadOutside hu hf hden hd hw
          · next hd hw => exact .load hu hf hden hd (by simpa using hw)
    · exact .gateClosed (by simp [IsGated]) hu
  | reqSetactive b =>
    simp only [exec, execSetactive, accept_ready hb] at h
    rcases gate_next h with ⟨hu, h⟩ | ⟨hu, rfl⟩
    · exact .setactive hu h
    · exact .gateClosed (by simp [IsGated]) hu
  | reqSetcontrast c =>
    simp only [exec, execSetcontrast, accept_ready hb] at h
    rcases gate_next h with ⟨hu, h⟩ | ⟨hu, rfl⟩
    · exact .setcontrast hu h
    · exact .gateClosed (by simp [IsGated]) hu
  | reqRender =>
    simp only [exec, execRender, accept_ready hb] at h
    rcases gate_next h with ⟨hu, h⟩ | ⟨hu, rfl⟩
    · simp only [withModel, withValue, withFb] at h
      split at h
      · next hd =>
        split at h
        · next hm => exact .render hu hd hm h
        · cases h
      · cases h
    · exact .gateClosed (by simp [IsGated]) hu
  | reqDispose =>
    simp only [exec, execDispose, accept_ready hb] at h
    split at h
    · next hl => cases h; exact .disposeAgain hl
    · next hl => cases h; exact .disposeUninitialized hl
    · next hl => exact .dispose ((constructed_iff s).mpr (.inl hl)) h
    · next hl => exact .dispose ((constructed_iff s).mpr (.inr hl)) h
  | reqGetcontrast =>
    simp only [exec, execGetcontrast, accept_ready hb] at h
    rcases gate_next h with ⟨hu, h⟩ | ⟨hu, rfl⟩
    · simp only [withContrast, withValue] at h
      split at h <;> cases h
      next hc => exact .getcontrast hu hc
    · exact .gateClosed (by simp [IsGated]) hu
  | reqGetactive =>
    simp only [exec, execGetactive, accept_ready hb] at h
    rcases gate_next h with ⟨hu, h⟩ | ⟨hu, rfl⟩
    · cases h; exact .getactive hu
    · exact .gateClosed (by simp [IsGated]) hu
  | reqGetgeom =>
    simp only [exec, execGetgeom, accept_ready hb] at h
    rcases gate_next h with ⟨hu, h⟩ | ⟨hu, rfl⟩
    · simp only [withModel, withValue] at h
      split at h <;> cases h
      next hd => exact .getgeom hu hd
    · exact .gateClosed (by simp [IsGated]) hu
  | illegal c => simp only [exec, execIllegal, accept_ready hb] at h; cases h; exact .illegal
  | _ => cases hi

/-- The steps of a request in progress are the same while what they are computed from is. -/
theorem jobSequence_congr {s t : State} (j : Job) (hm : t.model = s.model) (hp : t.power = s.power) (hf : t.fb = s.fb) :
    jobSequence t j = jobSequence s j := by
  cases j <;> simp only [jobSequence, hm, hp, hf]

/-- How many steps each request has. -/
theorem jobSequence_length {s : State} (hc : Configured s) (j : Job) :
    (jobSequence s j).length = match j with | .construct => 16 | .render => 3 | _ => 1 := by
  obtain ⟨d, p, a, m, hd, hp, ha, hm, -⟩ := hc
  cases j <;> simp [jobSequence, hd, hp, hm]

/-- No request touches the ports it does not answer through. -/
theorem exec_request_ports {i : Instr} {s t : State} (hi : i.stream = .host) (h : exec i s = .next t) : SamePorts s t := by
  obtain ⟨-, hr⟩ := exec_request hi h
  cases hr
  case construct hj => obtain ⟨h1, h2, h3⟩ := runJob_ports hj; exact ⟨h1, h2, h3⟩
  case setactive hj => obtain ⟨h1, h2, h3⟩ := runJob_ports hj; exact ⟨h1, h2, h3⟩
  case setcontrast hj => obtain ⟨h1, h2, h3⟩ := runJob_ports hj; exact ⟨h1, h2, h3⟩
  case render hj => obtain ⟨h1, h2, h3⟩ := runJob_ports hj; exact ⟨h1, h2, h3⟩
  case dispose hj => obtain ⟨h1, h2, h3⟩ := runJob_ports hj; exact ⟨h1, h2, h3⟩
  all_goals exact ⟨rfl, rfl, rfl⟩

/-! ### The step -/

/-- A busy block's move leaves the events at the ports as they are. -/
theorem stepBlock_busy_hostIn {s u : State} (hb : s.busy = true) (h : stepBlock s = .next u) : u.hostIn = s.hostIn := by
  rw [stepBlock, if_pos hb] at h
  split at h
  · unfold stepSequencer at h
    split at h
    · cases h; exact (sequenceDone_ports s).1.hostIn
    · split at h
      · next hi => rw [exec_of_decodeStep hi] at h; exact (emit_ports h).1.hostIn
      · cases h
  · exact (transmit_ports h).1.hostIn

/-- What a block that is not busy does: it takes the request at the head of the host port, or nothing. -/
theorem stepBlock_idle {s u : State} (hb : s.busy = false) (h : stepBlock s = .next u) :
    ((∀ q rest, s.hostIn ≠ .request q :: rest) ∧ u = s) ∨
    (∃ q rest i, s.hostIn = .request q :: rest ∧ decode .host q = .instr i ∧ i.stream = .host ∧ u.hostIn = rest ∧
      exec i { s with hostIn := rest } = .next u) := by
  rw [stepBlock, if_neg (by simp [hb])] at h
  unfold stepHost at h
  split at h
  · next q rest hq =>
    split at h
    · next i hi =>
      have hs : i.stream = .host := (decodeRequest_instr hi).1
      exact .inr ⟨q, rest, i, hq, hi, hs, (exec_request_ports hs h).hostIn, h⟩
    · cases h
  all_goals
    next he =>
      cases h
      exact .inl ⟨by simp [he], rfl⟩

/-- A reset withheld the response, or nothing was asserted there. -/
theorem serveResetAtResponse_cases (s u : State) :
    (serveResetAtResponse s u = u ∧ ∀ rest, u.hostIn = .resetAtResponse :: rest → u.busy = true) ∨
    (∃ rest, u.hostIn = .resetAtResponse :: rest ∧ u.busy = false ∧
      serveResetAtResponse s u = withholdResponse s { u with hostIn := rest }) := by
  unfold serveResetAtResponse
  split
  · next rest he =>
    cases hb : u.busy with
    | true => exact .inl ⟨rfl, fun _ _ => rfl⟩
    | false => exact .inr ⟨rest, he, rfl, rfl⟩
  all_goals
    next he => exact .inl ⟨rfl, fun rest hr => by simp [he] at hr⟩

/-- A step that serves no event is the block's move, up to a reset before its response. -/
theorem step_move {s : State} (hr : ∀ r, s.hostIn ≠ .reset :: r) (hs : ∀ f r, s.hostIn ≠ .surface f :: r) :
    step s = andThen (stepBlock s) fun t => .next (serveResetAtResponse s t) := by
  unfold step serveNext
  split
  · next he => exact absurd he (hr _)
  · next he => exact absurd he (hs _ _)
  all_goals rfl

/-- Everything a step can do: serve a reset or a change of the surface port, or make the block's move, whose response a reset may
withhold. -/
theorem step_cases {s t : State} (h : step s = .next t) :
    (∃ rest, s.hostIn = .reset :: rest ∧ t = blockReset { s with hostIn := rest }) ∨
    (∃ f rest, s.hostIn = .surface f :: rest ∧ t = { s with surface := f, hostIn := rest }) ∨
    (∃ u, stepBlock s = .next u ∧
      ((t = u ∧ ∀ rest, u.hostIn = .resetAtResponse :: rest → u.busy = true) ∨
        (∃ rest, u.hostIn = .resetAtResponse :: rest ∧ u.busy = false ∧
          t = withholdResponse s { u with hostIn := rest }))) := by
  by_cases hr : ∃ r, s.hostIn = .reset :: r
  · obtain ⟨r, hr⟩ := hr
    simp only [step, serveNext, hr, Host.Outcome.next.injEq] at h
    exact .inl ⟨r, hr, h.symm⟩
  by_cases hs : ∃ f r, s.hostIn = .surface f :: r
  · obtain ⟨f, r, hs⟩ := hs
    simp only [step, serveNext, hs, Host.Outcome.next.injEq] at h
    exact .inr (.inl ⟨f, r, hs, h.symm⟩)
  rw [step_move (fun r h => hr ⟨r, h⟩) (fun f r h => hs ⟨f, r, h⟩)] at h
  cases hb : stepBlock s with
  | fault r => rw [hb] at h; cases h
  | refused r => rw [hb] at h; cases h
  | next u =>
    rw [hb] at h
    simp only [andThen, Host.Outcome.next.injEq] at h
    subst h
    exact .inr (.inr ⟨u, rfl, serveResetAtResponse_cases s u⟩)

/-- The step of an undisturbed block that is busy is the block's move. -/
theorem step_busy {s : State} (h : Undisturbed s) (hb : s.busy = true) : step s = stepBlock s := by
  rw [step_move (by rcases h with h | ⟨q, r, h⟩ <;> simp [h]) (by rcases h with h | ⟨q, r, h⟩ <;> simp [h])]
  cases hu : stepBlock s with
  | fault r => rfl
  | refused r => rfl
  | next u =>
    simp only [andThen]
    rcases serveResetAtResponse_cases s u with ⟨h1, -⟩ | ⟨rest, h1, -⟩
    · rw [h1]
    · rw [stepBlock_busy_hostIn hb hu] at h1
      rcases h with h | ⟨q, r, h⟩ <;> simp [h] at h1

end Sys2Proof.Machine
end

