-- ==== Sys2Proof/Tests/Slice0.lean ====
section
/-! SUPPORT. The model's own tests: ill-formed terms the check refuses, a written-out word for every constructor, one-step tests
whose expected results are the vectors of 95_test_vectors.md, and for every obligation with hypotheses a concrete state and
operands that meet them. -/

namespace Sys2Proof.Tests

open Sys2Proof.Machine Sys2Proof.Slice0

set_option maxRecDepth 20000

/-! ### Small states -/

/-- The next state, if there is one. -/
def nextOf : Host.Outcome State Fault Refusal → Option State
  | .next s => some s
  | .fault _ => none
  | .refused _ => none

/-- One field of the next state. -/
def after {α : Type} (o : Host.Outcome State Fault Refusal) (f : State → α) : Option α := (nextOf o).map f

/-- The machine after a CONSTRUCT of model d with power mode p at 0x3C, with the transport's answers to come. -/
def running (d : DisplayModel) (p : PowerMode) (answers : List Answer) : State :=
  { State.reset with
    life := .active, model := some d, power := some p, busAddr := some 0x3C, contrast := some (defcon d p),
    fb := some [], txOpen := true, transportIn := answers }

/-- The same with framebuffer content m. -/
def showing (d : DisplayModel) (m : Memory) (answers : List Answer) : State :=
  { running d .external answers with fb := some m }

/-- After reset, with the transport's answers to come. -/
def freshWith (answers : List Answer) : State := { State.reset with transportIn := answers }

/-- A dead instance: its CONSTRUCT failed. -/
def dead : State := { State.reset with initFailed := true }

/-- A disposed instance. -/
def disposed : State := { running .m96x16 .external [] with life := .disposed, txOpen := false }

/-- A SETCONTRAST 0x20 whose second transaction waits for its answer. -/
def waiting (answers : List Answer) : State :=
  { running .m96x16 .external answers with
    busy := true, job := some (.setContrast 0x20), inFlight := [⟨0x3C, 0x00, [0x20]⟩],
    busLog := [⟨⟨0x3C, 0x00, [0x81]⟩, true⟩] }

/-- A SETACTIVE 0 whose transaction waits for its answer. -/
def switchingOff (answers : List Answer) : State :=
  { running .m96x16 .external answers with
    busy := true, job := some (.setActive false), inFlight := [⟨0x3C, 0x00, [0xAE]⟩] }

/-- A CONSTRUCT after n steps, the next one's last transaction waiting for its answer. -/
def constructing (n : BitVec 5) (life : Life) (answers : List Answer) : State :=
  let seq := initSequence .m96x16 .external
  let next := ((transactions .perByte 0x3C (seq.getD n.toNat (commandStep []))).getLast?).toList
  { running .m96x16 .external answers with
    life := life, busy := true, seqPC := n, job := some .construct, inFlight := next, script := seq.drop (n.toNat + 1) }

/-- After reset, with events at the host port and the transport's answers to come. -/
def fresh (answers : List Answer) (events : List HostEvent) : State :=
  { State.reset with transportIn := answers, hostIn := events }

/-- The surface of program P4. -/
def p4Surface : Surface :=
  ⟨100, 20, [(302, ⟨255, 255, 255⟩), (304, ⟨128, 0, 0⟩), (305, ⟨0, 127, 0⟩), (402, ⟨0, 0, 200⟩), (1897, ⟨1, 1, 1⟩)]⟩

/-! ### Well-formedness: each check refuses an ill-formed term -/

theorem test_illegal_code_in_the_map_is_refused :
    (Instr.illegal 0x01).wellFormed = false ∧ (Instr.illegal 0x0D).wellFormed = false := by decide

theorem test_illegal_codes_are_accepted :
    (Instr.illegal 0x00).wellFormed = true ∧ (Instr.illegal 0x0E).wellFormed = true := by decide

theorem test_data_of_no_model_is_refused :
    (Instr.displayData []).wellFormed = false ∧ (Instr.displayData (List.replicate 193 0)).wellFormed = false := by decide

theorem test_data_of_a_model_is_accepted : (Instr.displayData (List.replicate 192 0)).wellFormed = true := by decide

/-! ### Decoding: a word of the spec for every constructor (30_encoding.md R62, R64, R69) -/

theorem test_decode_commands_without_arguments :
    decode .command [0xA4] = .instr .cmdResume ∧ decode .command [0xA5] = .instr .cmdEntireDisplayOn ∧
    decode .command [0xA6] = .instr .cmdDisplayModeNormal ∧ decode .command [0xA7] = .instr .cmdDisplayModeInvert ∧
    decode .command [0xAE] = .instr .cmdTurnOff ∧ decode .command [0xAF] = .instr .cmdTurnOn ∧
    decode .command [0x00] = .instr .cmdSetLowColumn ∧ decode .command [0x10] = .instr .cmdSetHighColumn ∧
    decode .command [0x40] = .instr .cmdSetStartLine ∧ decode .command [0xC0] = .instr .cmdScanDirectionModeIncrement ∧
    decode .command [0xC8] = .instr .cmdScanDirectionModeDecrement ∧
    decode .command [0xA0] = .instr .cmdSegmentRemapModeOff ∧ decode .command [0xA1] = .instr .cmdSegmentRemapModeOn := by
  decide

theorem test_decode_commands_with_one_argument :
    decode .command [0x81, 0x9F] = .instr (.cmdSetContrast 0x9F) ∧
    decode .command [0xD3, 0x00] = .instr (.cmdSetDisplayOffset 0x00) ∧
    decode .command [0xDA, 0x12] = .instr (.cmdSetComPins 0x12) ∧
    decode .command [0xDB, 0x40] = .instr (.cmdSetVoltageOutput 0x40) ∧
    decode .command [0xD5, 0x80] = .instr (.cmdSetClockDivider 0x80) ∧
    decode .command [0xD9, 0xF1] = .instr (.cmdSetPrechargeMode 0xF1) ∧
    decode .command [0xA8, 0x3F] = .instr (.cmdSetMultiplexer 0x3F) ∧
    decode .command [0x20, 0x02] = .instr (.cmdSetMemoryMode 0x02) ∧
    decode .command [0x8D, 0x14] = .instr (.cmdSetChargePumpMode 0x14) := by decide

theorem test_decode_commands_with_two_arguments :
    decode .command [0x21, 0x00, 0x5F] = .instr (.cmdSetColumnAddressRange 0x00 0x5F) ∧
    decode .command [0x22, 0x00, 0x07] = .instr (.cmdSetPageAddressRange 0x00 0x07) := by decide

theorem test_decode_requests :
    decode .host [0x01, 0x0E, 0x3C] = .instr (.reqConstruct 2 .switching true 0x3C) ∧
    decode .host [0x02, 0x80, 0x00, 0x00, 0x00] = .instr (.reqGetpx 128 0) ∧
    decode .host [0x03, 0x00, 0x80, 0xFF, 0x7F, 0x01] = .instr (.reqSetpx (-32768) 32767 true) ∧
    decode .host [0x04] = .instr .reqClear ∧ decode .host [0x05] = .instr .reqPack ∧
    decode .host [0x06, 0x02, 0x00, 0x03, 0x00, 0x01, 0x00, 0x02, 0x00] = .instr (.reqLoad 2 3 1 2) ∧
    decode .host [0x07, 0x01] = .instr (.reqSetactive true) ∧ decode .host [0x08, 0xAE] = .instr (.reqSetcontrast 0xAE) ∧
    decode .host [0x09] = .instr .reqRender ∧ decode .host [0x0A] = .instr .reqDispose ∧
    decode .host [0x0B] = .instr .reqGetcontrast ∧ decode .host [0x0C] = .instr .reqGetactive ∧
    decode .host [0x0D] = .instr .reqGetgeom ∧ decode .host [0xFF] = .instr (.illegal 0xFF) := by decide

theorem test_decode_data :
    decode .data (0x40 :: List.replicate 192 0) = .instr (.displayData (List.replicate 192 0)) := by decide

/-- Reserved bits are ignored (L2.5 row `01 F8 BC`, L2.2 rows `FF` and `FE`). -/
theorem test_decode_ignores_reserved_bits :
    decode .host [0x01, 0xF8, 0xBC] = decode .host [0x01, 0x08, 0x3C] ∧
    decode .host [0x03, 0x03, 0x00, 0x03, 0x00, 0xFF] = .instr (.reqSetpx 3 3 true) ∧
    decode .host [0x03, 0x03, 0x00, 0x03, 0x00, 0xFE] = .instr (.reqSetpx 3 3 false) := by decide

/-- Bytes that are no instruction are refused by name. -/
theorem test_decode_refuses :
    decode .command [0xA2] = .reject (.notACommand 0xA2) ∧ decode .command [0x81] = .reject (.truncatedCommand 0x81) ∧
    decode .command [0xAE, 0x00] = .reject (.extraBytes 0xAE) ∧ decode .host [0x04, 0x00] = .reject (.wrongLength 0x04) ∧
    decode .data [0x40, 0x00] = .reject .notADataTransaction := by decide

/-- An argument byte that is also an opcode value is an argument (30_encoding.md R65). -/
theorem test_reader_counts_arguments :
    readCommands [0x81, 0xAE, 0xAF, 0x21, 0x00, 0x7F] =
      .atOpcode [.cmdSetContrast 0xAE, .cmdTurnOn, .cmdSetColumnAddressRange 0x00 0x7F] := by decide

/-- Table words: first byte lowest. -/
theorem test_table_words :
    decodeTableWord 24 0x7F0021 = some (.cmdSetColumnAddressRange 0x00 0x7F) ∧
    decodeTableWord 24 0x3C0E01 = some (.reqConstruct 2 .switching true 0x3C) ∧
    decodeTableWord 8 0x0E = some (.illegal 0x0E) := by decide

/-- A table word placed for the next step is what the next step runs: an illegal request after reset. -/
theorem test_step_runs_the_placed_request :
    after (step (State.reset.withFetchWord 8 0x0E)) (·.responses) = some [.error .illegalRequest] := by decide

/-- A command placed in a running machine is sent to its bus address. -/
theorem test_step_runs_the_placed_command :
    after (step ((running .m96x16 .external [.ack, .ack]).withFetchWord 16 0x2081)) (·.busLog) =
      some [⟨⟨0x3C, 0x00, [0x81]⟩, true⟩, ⟨⟨0x3C, 0x00, [0x20]⟩, true⟩] := by decide

/-! ### Framebuffer requests (L1.3, L2.1 to L2.4, P4) -/

theorem test_xlate :
    xlate .m128x64 0 0 = 0 ∧ xlate .m128x64 0 8 = 1024 ∧ xlate .m128x64 1 0 = 8 ∧ xlate .m128x64 5 13 = 1069 ∧
    xlate .m96x16 95 15 = 1535 ∧ xlate .m128x32 127 31 = 4095 := by decide

/-- P2: pixel (5, 13) is bit 5 of data byte 133. -/
theorem test_getpx_reads_the_column_byte :
    after (exec (.reqGetpx 5 13) (showing .m128x64 [(133, 0x20)] [])) (·.responses) = some [.ok [0x01]] ∧
    after (exec (.reqGetpx 5 12) (showing .m128x64 [(133, 0x20)] [])) (·.responses) = some [.ok [0x00]] := by decide

theorem test_getpx_out_of_range :
    after (exec (.reqGetpx 128 0) (running .m128x64 .external [])) (·.responses) = some [.error .outOfRange] ∧
    after (exec (.reqGetpx 0 0xFFFF) (running .m128x64 .external [])) (·.responses) = some [.error .outOfRange] := by decide

/-- L2.1: (95, 15) of M96x16 is bit 7 of data byte 191; (0, 7) joins (0, 0) in byte 0. -/
theorem test_setpx_writes_the_column_byte :
    after (exec (.reqSetpx 95 15 true) (running .m96x16 .external [])) (·.fb) = some (some [(191, 0x80)]) ∧
    after (exec (.reqSetpx 0 7 true) (showing .m96x16 [(0, 0x01)] [])) (·.fb) = some (some [(0, 0x81)]) := by decide

theorem test_setpx_out_of_range :
    after (exec (.reqSetpx 96 0 true) (running .m96x16 .external [])) (·.responses) = some [.error .outOfRange] ∧
    after (exec (.reqSetpx 0 32 true) (running .m128x32 .external [])) (·.fb) = some (some []) := by decide

theorem test_clear : after (exec .reqClear (showing .m96x16 [(0, 0x01), (191, 0x80)] [])) (·.fb) = some (some []) := by decide

/-- L2.3: `00 40 01`, 190 bytes 0x00, `80`. -/
theorem test_pack :
    after (exec .reqPack (showing .m96x16 [(0, 0x01), (191, 0x80)] [])) (·.responses) =
      some [.ok ([0x40, 0x01] ++ List.replicate 190 0x00 ++ [0x80])] := by decide

/-- P4: after LOAD 2, 3, 1/2, PB[1] = 0x03 and PB[3] = 0x01. -/
theorem test_load :
    after (exec (.reqLoad 2 3 1 2) { showing .m96x16 [(10, 0x04)] [] with surface := some p4Surface }) (·.fb) =
      some (some [(0, 0x03), (2, 0x01)]) := by rfl

/-- L2.4: den = 0 is found before the window; and 5 + 96 > 100. -/
theorem test_load_checks :
    after (exec (.reqLoad 5 0 1 0) { running .m96x16 .external [] with surface := some p4Surface }) (·.responses) =
      some [.error .invalidArgument] ∧
    after (exec (.reqLoad 5 0 1 2) { running .m96x16 .external [] with surface := some p4Surface }) (·.responses) =
      some [.error .outOfRange] := by decide

/-- L2.4, the lighting function's corners. -/
theorem test_lit :
    lit ⟨0, 0, 0⟩ 0 1 = false ∧ lit ⟨1, 1, 1⟩ 0 1 = true ∧ lit ⟨10, 0, 0⟩ 0x8000 1 = true ∧ lit ⟨1, 1, 1⟩ 1 255 = true ∧
    lit ⟨1, 0, 0⟩ 2 255 = false ∧ lit ⟨255, 0, 0⟩ 256 255 = false ∧ lit ⟨128, 0, 0⟩ 128 255 = true ∧
    lit ⟨127, 0, 0⟩ 128 255 = false ∧ lit ⟨0, 0, 200⟩ 1 2 = true ∧ lit ⟨191, 0, 0⟩ 3 4 = false := by decide

/-! ### Lifecycle and sequencer requests (L2.5 to L2.10) -/

/-- L2.5, first row: Active, contrast 0x9F, 25 transactions; the argument of SetContrast is transaction 17. -/
theorem test_construct :
    after (exec (.reqConstruct 0 .external true 0x3C) (freshWith (acks 25)))
      (fun t => (t.life, t.contrast, t.busLog.length, t.responses, t.busLog[17]?)) =
      some (.active, some 0x9F, 25, [.ok []], some ⟨⟨0x3C, 0x00, [0x9F]⟩, true⟩) := by rfl

/-- P5: the third transaction fails. -/
theorem test_construct_fails :
    after (exec (.reqConstruct 0 .external true 0x3C) (freshWith [.ack, .ack, .fail]))
      (fun t => (t.life, t.initFailed, t.txOpen, t.responses, t.busLog)) =
      some (.uninitialized, true, false, [.error .ioError],
        [⟨⟨0x3C, 0x00, [0xAE]⟩, true⟩, ⟨⟨0x3C, 0x00, [0xD5]⟩, true⟩, ⟨⟨0x3C, 0x00, [0x80]⟩, false⟩]) := by rfl

/-- L2.6, first and sixth rows. -/
theorem test_setactive :
    after (exec (.reqSetactive false) (running .m96x16 .external [.ack])) (fun t => (t.life, t.busLog)) =
      some (.inactive, [⟨⟨0x3C, 0x00, [0xAE]⟩, true⟩]) ∧
    after (exec (.reqSetactive false) (running .m96x16 .external [.fail])) (fun t => (t.life, t.responses)) =
      some (.active, [.error .ioError]) := by decide

/-- L2.7, first and fifth rows. -/
theorem test_setcontrast :
    after (exec (.reqSetcontrast 0x20) (running .m96x16 .external (acks 2))) (fun t => (t.contrast, t.busLog)) =
      some (some 0x20, [⟨⟨0x3C, 0x00, [0x81]⟩, true⟩, ⟨⟨0x3C, 0x00, [0x20]⟩, true⟩]) ∧
    after (exec (.reqSetcontrast 0x55) (running .m96x16 .external [.ack, .fail])) (fun t => (t.contrast, t.responses)) =
      some (some 0x8F, [.error .ioError]) := by decide

/-- L2.8: the ranges `21 00 5F`, `22 00 01`, then one data transaction of 192 bytes. -/
theorem test_render :
    after (exec .reqRender (running .m96x16 .external (acks 7))) (·.busLog) =
      some (([[0x21], [0x00], [0x5F], [0x22], [0x00], [0x01]].map fun p => ⟨⟨0x3C, 0x00, p⟩, true⟩) ++
        [⟨⟨0x3C, 0x40, List.replicate 192 0x00⟩, true⟩]) := by decide

/-- L2.8: the third transaction fails; three are presented. -/
theorem test_render_fails :
    after (exec .reqRender (running .m96x16 .external [.ack, .ack, .fail])) (fun t => (t.life, t.busLog.length, t.responses)) =
      some (.active, 3, [.error .ioError]) := by decide

/-- L2.9, first and fourth rows. -/
theorem test_dispose :
    after (exec .reqDispose (running .m96x16 .external [.ack])) (fun t => (t.life, t.txOpen, t.responses)) =
      some (.disposed, false, [.ok []]) ∧
    after (exec .reqDispose (running .m96x16 .external [.fail])) (fun t => (t.life, t.txOpen, t.responses)) =
      some (.disposed, false, [.error .ioError]) := by decide

/-- L1.11, L2.10. -/
theorem test_accessors :
    after (exec .reqGetcontrast (running .m128x64 .switching [])) (·.responses) = some [.ok [0xCF]] ∧
    after (exec .reqGetactive (running .m128x64 .switching [])) (·.responses) = some [.ok [0x01]] ∧
    after (exec .reqGetgeom (running .m128x64 .switching [])) (·.responses) = some [.ok [0x80, 0x40, 0x08]] ∧
    after (exec .reqGetgeom (running .m96x16 .external [])) (·.responses) = some [.ok [0x60, 0x10, 0x02]] := by decide

/-- L2.11: UsageError is found before the other errors; an illegal code before UsageError. -/
theorem test_priority :
    after (exec (.reqGetpx 200 200) disposed) (·.responses) = some [.error .usageError] ∧
    after (exec (.reqConstruct 3 .external true 0x3C) disposed) (·.responses) = some [.error .usageError] ∧
    after (exec (.reqConstruct 3 .external false 0x3C) State.reset) (·.responses) = some [.error .configError] ∧
    after (exec (.illegal 0x0E) disposed) (·.responses) = some [.error .illegalRequest] := by decide

/-- PerCommand: the first row of L2.7 is one transaction. -/
theorem test_per_command_framing :
    after (exec (.reqSetcontrast 0x20) { running .m96x16 .external [.ack] with framing := .perCommand }) (·.busLog) =
      some [⟨⟨0x3C, 0x00, [0x81, 0x20]⟩, true⟩] := by decide

/-- A waiting request goes on when its answer comes, and stays as it is without one. -/
theorem test_waiting_request :
    after (step (waiting [.ack])) (fun t => (t.contrast, t.busy, t.responses)) = some (some 0x20, false, [.ok []]) ∧
    step (waiting []) = .next (waiting []) := ⟨by decide, rfl⟩

/-- Block reset while a request waits: nothing is answered and the instance is fresh. -/
theorem test_reset_while_waiting :
    after (step { waiting [.never] with hostIn := [.reset] }) (fun t => (t.life, t.busy, t.txOpen, t.responses, t.busLog.length)) =
      some (.uninitialized, false, false, [], 1) := by decide

/-- A reset between the last answer and the response (70_reset_and_hazards.md R180): the transaction was sent, nothing is
answered, and the instance is fresh. -/
theorem test_reset_before_the_response :
    after (step { waiting [.ack] with hostIn := [.resetAtResponse] })
      (fun t => (t.life, t.contrast, t.busy, t.responses, t.busLog.length)) = some (.uninitialized, none, false, [], 2) ∧
    after (step { running .m96x16 .external [.ack] with hostIn := [.request [0x07, 0x00], .resetAtResponse] })
      (fun t => (t.life, t.responses, t.busLog)) = some (.uninitialized, [], [⟨⟨0x3C, 0x00, [0xAE]⟩, true⟩]) :=
  ⟨by decide, by decide⟩

/-- The surface port changes between two LOADs (20_memory.md R47): the pixels are the new surface's (P4), and with no surface LOAD
answers InvalidArgument (R162). -/
theorem test_surface_changes :
    after (step { running .m96x16 .external [] with hostIn := [.surface (some p4Surface)] }) (fun t => (t.surface, t.hostIn)) =
      some (some p4Surface, []) ∧
    after (step { running .m96x16 .external [] with surface := some p4Surface, hostIn := [.surface none] })
      (fun t => after (exec (.reqLoad 2 3 1 2) t) (·.responses)) = some (some [.error .invalidArgument]) := by decide

/-- The bus log of SETCONTRAST 0xAE and a data transaction reads as one command; cut by a failed transaction, as a command whose
argument is missing (30_encoding.md R65, 60_exceptions.md R166). -/
theorem test_bus_log_reads_back :
    readBusLog [⟨⟨0x3C, 0x00, [0x81]⟩, true⟩, ⟨⟨0x3C, 0x00, [0xAE]⟩, true⟩, ⟨⟨0x3C, 0x40, [0xAF]⟩, true⟩] =
      .atOpcode [.cmdSetContrast 0xAE] ∧
    readBusLog [⟨⟨0x3C, 0x00, [0x81]⟩, true⟩, ⟨⟨0x3C, 0x00, [0xAE]⟩, false⟩] = .inCommand [] 0x81 [] 0 := by decide

/-! ### Wire commands as steps of a sequence -/

/-- The TurnOn of CONSTRUCT (step 15), and a Resume of its step 13. -/
theorem test_command_of_construct :
    after (exec .cmdTurnOn { running .m96x16 .external [.ack] with
      life := .inactive, busy := true, job := some .construct, seqPC := 15 }) (fun t => (t.life, t.busy, t.responses)) =
      some (.active, false, [.ok []]) ∧
    after (exec .cmdResume { running .m96x16 .external [.ack] with
      life := .uninitialized, busy := true, job := some .construct, seqPC := 13, script := [commandStep [0xA6]] })
      (fun t => (t.life, t.busy, t.seqPC)) = some (.uninitialized, true, 14) := by decide

/-- A data transaction is the last step of RENDER. -/
theorem test_data_of_render :
    after (exec (.displayData [0x01]) { running .m96x16 .external [.ack] with busy := true, job := some .render, seqPC := 2 })
      (fun t => (t.busLog, t.busy, t.responses)) = some ([⟨⟨0x3C, 0x40, [0x01]⟩, true⟩], false, [.ok []]) := by decide

/-- While the transport handle is closed nothing is sent (10_state.md R30). -/
theorem test_closed_handle :
    exec .cmdEntireDisplayOn disposed = .next disposed ∧ exec .cmdSetLowColumn disposed = .next disposed := ⟨rfl, rfl⟩

/-! ### Witnesses: for each obligation with hypotheses, a state and operands that meet them -/

theorem running_usable (d : DisplayModel) (p : PowerMode) (answers : List Answer) : Usable (running d p answers) := .inl rfl

theorem running_configured (answers : List Answer) : Configured (running .m96x16 .external answers) :=
  ⟨.m96x16, .external, 0x3C, [], rfl, rfl, rfl, rfl, rfl, by intro c h; cases h⟩

/-- The running machine meets the invariant, whatever stands at its ports. -/
theorem running_inv (answers : List Answer) (events : List HostEvent) :
    Inv { running .m96x16 .external answers with hostIn := events } where
  constructed_holds _ := ⟨rfl, rfl, running_configured answers, rfl⟩
  disposed_closed h := by cases h
  failed_dead h := by cases h
  fresh_closed _ h := by cases h
  idle _ := ⟨rfl, rfl, rfl, rfl⟩
  working h := by cases h
  fb_wf m h := by cases h; rfl

/-- The machine that waits in the middle of a SETCONTRAST meets the invariant. -/
theorem waiting_inv (answers : List Answer) : Inv (waiting answers) where
  constructed_holds _ := ⟨rfl, rfl, running_configured answers, rfl⟩
  disposed_closed h := by cases h
  failed_dead h := by cases h
  fresh_closed h := by cases h
  idle h := by cases h
  working _ := ⟨.setContrast 0x20, rfl, rfl, .inr ⟨by simp [waiting], rfl, commandStep [0x81, 0x20], 0x3C, rfl, rfl,
    ⟨[⟨0x3C, 0x00, [0x81]⟩], rfl⟩⟩⟩
  fb_wf m h := by cases h; rfl

/-- So does the one that waits in a SETACTIVE. -/
theorem switchingOff_inv (answers : List Answer) : Inv (switchingOff answers) where
  constructed_holds _ := ⟨rfl, rfl, running_configured answers, rfl⟩
  disposed_closed h := by cases h
  failed_dead h := by cases h
  fresh_closed h := by cases h
  idle h := by cases h
  working _ := ⟨.setActive false, rfl, rfl, .inr ⟨by simp [switchingOff], rfl, commandStep [0xAE], 0x3C, rfl, rfl,
    List.suffix_refl _⟩⟩
  fb_wf m h := by cases h; rfl

/-- And the one that waits in step 14 or in step 15 of a CONSTRUCT. -/
theorem constructing_inv {n : BitVec 5} {life : Life} (answers : List Answer)
    (h : n = 14 ∧ life = .uninitialized ∨ n = 15 ∧ life = .inactive) : Inv (constructing n life answers) := by
  obtain ⟨rfl, rfl⟩ | ⟨rfl, rfl⟩ := h
  · refine ⟨fun h => (by cases h), fun h => (by cases h), fun h => (by cases h), fun h => (by cases h), fun h => (by cases h),
      fun _ => ⟨.construct, rfl, ⟨rfl, rfl, running_configured answers, rfl, fun _ => rfl⟩,
        .inr ⟨List.cons_ne_nil _ _, rfl, commandStep [0xA6], 0x3C, rfl, rfl, List.suffix_refl _⟩⟩, fun m h => (by cases h; rfl)⟩
  · refine ⟨fun _ => ⟨rfl, rfl, running_configured answers, rfl⟩, fun h => (by cases h), fun h => (by cases h),
      fun h => (by cases h), fun h => (by cases h), fun _ => ⟨.construct, rfl, ⟨rfl, rfl, running_configured answers, rfl, fun _ => rfl⟩,
        .inr ⟨List.cons_ne_nil _ _, rfl, commandStep [0xAF], 0x3C, rfl, rfl, List.suffix_refl _⟩⟩, fun m h => (by cases h; rfl)⟩

/-- A fresh instance meets it. -/
theorem fresh_inv (answers : List Answer) (events : List HostEvent) : Inv (fresh answers events) where
  constructed_holds h := by cases h
  disposed_closed h := by cases h
  failed_dead h := by cases h
  fresh_closed _ _ _ := rfl
  idle _ := ⟨rfl, rfl, rfl, rfl⟩
  working h := by cases h
  fb_wf m h := by cases h

/-- A dead instance, about to be asked to DISPOSE, meets the invariant. -/
theorem dead_inv : Inv { dead with hostIn := [.request [0x0A]] } where
  constructed_holds h := by cases h
  disposed_closed h := by cases h
  failed_dead _ := ⟨rfl, rfl⟩
  fresh_closed _ _ h := by cases h
  idle _ := ⟨rfl, rfl, rfl, rfl⟩
  working h := by cases h
  fb_wf m h := by cases h

theorem witness_DecodeOfEncode :
    (Instr.illegal 0x0E).wellFormed = true ∧ (Instr.reqConstruct 3 .switching false 0x7F).wellFormed = true ∧
    (Instr.displayData (List.replicate 1024 0xFF)).wellFormed = true := by decide

theorem witness_EncodeOfDecode :
    decode .command [0x81, 0xFF] = .instr (.cmdSetContrast 0xFF) ∧
    decode .data (0x40 :: List.replicate 512 0) = .instr (.displayData (List.replicate 512 0)) ∧
    decode .host [0x01, 0xFF, 0xFF] = .instr (.reqConstruct 3 .switching true 0x7F) := by decide

theorem witness_ReservedBitsIgnoredIllegalCodesAnswered :
    ((0x00 : Byte) = 0x00) ∧ 0x0E ≤ (0x0E : Byte).toNat ∧ 0x0E ≤ (0xFF : Byte).toNat ∧ State.reset.busy = false ∧
    disposed.busy = false := by decide

theorem witness_ReaderReadsCommandStream :
    ∀ i ∈ ([.cmdSetContrast 0xAE, .cmdTurnOn] : List Instr), i.stream = .command := by decide

theorem witness_ReaderRefusesForeignByte :
    (∀ i ∈ ([.cmdTurnOn] : List Instr), i.stream = .command) ∧
    (0xA2 : Byte) ∉ ([0x81, 0xA4, 0xA5, 0xA6, 0xA7, 0xAE, 0xAF, 0xD3, 0xDA, 0xDB, 0xD5, 0xD9, 0xA8, 0x00, 0x10, 0x40, 0x20, 0x21,
      0x22, 0xC0, 0xC8, 0xA0, 0xA1, 0x8D] : List Byte) := by decide

/-- First clause at the last pixel; second at the first column outside, and at x = -1. -/
theorem witness_TranslatorFormula :
    (95 < width .m96x16 ∧ 15 < height .m96x16) ∧
    (let s := running .m96x16 .external []
     s.busy = false ∧ Usable s ∧ s.model = some .m96x16 ∧
     ¬ (0 ≤ (96 : Half).toInt ∧ (96 : Half).toInt < width .m96x16 ∧ 0 ≤ (0 : Half).toInt ∧ (0 : Half).toInt < height .m96x16) ∧
     ¬ (0 ≤ (0xFFFF : Half).toInt ∧ (0xFFFF : Half).toInt < width .m96x16 ∧ 0 ≤ (0 : Half).toInt ∧
       (0 : Half).toInt < height .m96x16)) :=
  ⟨by decide, rfl, running_usable .., rfl, by decide, by decide⟩

theorem witness_TranslatorBijection :
    127 < width .m128x64 ∧ 63 < height .m128x64 ∧ 8191 < width .m128x64 * height .m128x64 := by decide

theorem witness_PackedImageBytes : 191 < width .m96x16 * height .m96x16 / 8 ∧ 0 < width .m96x16 * height .m96x16 / 8 := by decide

theorem witness_DataByteHoldsColumn : 191 < width .m96x16 * height .m96x16 / 8 ∧ 7 < 8 ∧ 0 < 8 := by decide

theorem witness_GetpxAnswersPixel :
    let s := running .m128x32 .switching []
    s.busy = false ∧ Usable s ∧ s.model = some .m128x32 ∧ s.fb = some [] ∧ 127 < width .m128x32 ∧ 31 < height .m128x32 :=
  ⟨rfl, running_usable .., rfl, rfl, by decide, by decide⟩

theorem witness_SetpxWritesOnePixel :
    let s := showing .m96x16 [(191, 0x7F)] []
    s.busy = false ∧ Usable s ∧ s.model = some .m96x16 ∧ s.fb = some [(191, 0x7F)] ∧ Memory.wf [(191, 0x7F)] = true ∧
    95 < width .m96x16 ∧ 15 < height .m96x16 :=
  ⟨rfl, .inl rfl, rfl, rfl, by decide, by decide, by decide⟩

theorem witness_SetThenGetReturnsValue :
    let s := showing .m96x16 [(0, 0x01)] []
    s.busy = false ∧ Usable s ∧ s.model = some .m96x16 ∧ s.fb = some [(0, 0x01)] ∧ Memory.wf [(0, 0x01)] = true ∧
    95 < width .m96x16 ∧ 15 < height .m96x16 ∧ 0 < width .m96x16 ∧ 0 < height .m96x16 :=
  ⟨rfl, .inl rfl, rfl, rfl, by decide, by decide, by decide, by decide, by decide⟩

theorem witness_ClearZeroesFramebuffer :
    (let s := showing .m96x16 [(0, 0x01)] []; s.busy = false ∧ Usable s ∧ s.fb = some [(0, 0x01)]) ∧
    (disposed.busy = false ∧ ¬ Usable disposed) :=
  ⟨⟨rfl, .inl rfl, rfl⟩, rfl, by simp [Usable, disposed]⟩

theorem witness_PackAnswersImage :
    (let s := showing .m96x16 [(0, 0x01)] []; s.busy = false ∧ Usable s ∧ s.model = some .m96x16 ∧ s.fb = some [(0, 0x01)]) ∧
    191 < width .m96x16 * height .m96x16 / 8 ∧ (State.reset.busy = false ∧ ¬ Usable State.reset) :=
  ⟨⟨rfl, .inl rfl, rfl, rfl⟩, by decide, rfl, by simp [Usable, State.reset]⟩

/-- The window at offset (4, 4) of a 100 by 20 surface ends at its last pixel (L2.4). -/
theorem witness_LoadThresholdsWindow :
    let s := { running .m96x16 .external [] with surface := some p4Surface }
    s.busy = false ∧ Usable s ∧ s.model = some .m96x16 ∧ s.fb = some [] ∧ s.surface = some p4Surface ∧ (2 : Half) ≠ 0 ∧
    0 ≤ (4 : Half).toInt ∧ (4 : Half).toInt + width .m96x16 ≤ p4Surface.sw ∧ (4 : Half).toInt + height .m96x16 ≤ p4Surface.sh ∧
    95 < width .m96x16 ∧ 15 < height .m96x16 :=
  ⟨rfl, .inl rfl, rfl, rfl, rfl, by decide, by decide, by decide, by decide, by decide, by decide⟩

theorem witness_LoadChecksInOrder :
    let s := running .m96x16 .external []
    let t := { s with surface := some p4Surface }
    s.busy = false ∧ Usable s ∧ s.model = some .m96x16 ∧ s.surface = none ∧ t.surface = some p4Surface ∧ (0 : Half) = 0 ∧
    (2 : Half) ≠ 0 ∧ (5 : Half).toInt + width .m96x16 > p4Surface.sw ∧ (5 : Half).toInt + height .m96x16 > p4Surface.sh ∧
    (0xFFFF : Half).toInt < 0 :=
  ⟨rfl, .inl rfl, rfl, rfl, rfl, rfl, by decide, by decide, by decide, by decide⟩

theorem witness_LightingIsExactThreshold : (255 : Half) ≠ 0 := by decide

theorem witness_AdmissionTable :
    (State.reset.busy = false ∧ State.reset.life = .uninitialized ∧ State.reset.initFailed = false) ∧ Gated .reqRender ∧
    (¬ Usable dead ∧ ¬ (dead.life = .uninitialized ∧ dead.initFailed = false)) ∧ disposed.life = .disposed ∧
    (let s := running .m96x16 .external [.ack]
     Usable s ∧ ∃ t, exec .reqDispose s = .next t ∧ t.responses = [.ok []]) ∧
    (let s := running .m96x16 .external (acks 7)
     Usable s ∧ ∃ t, exec .reqRender s = .next t ∧ t.responses = [.ok []]) :=
  ⟨⟨rfl, rfl, rfl⟩, by simp [Gated], ⟨by simp [Usable, dead, State.reset], by simp [dead]⟩, rfl,
    ⟨.inl rfl, _, rfl, rfl⟩, .inl rfl, _, rfl, rfl⟩

theorem witness_FailedCheckHasNoEffect :
    ∃ t, Instr.stream .reqRender = .host ∧ Error.usageError ≠ .ioError ∧ exec .reqRender disposed = .next t ∧
      t.responses = disposed.responses ++ [.error .usageError] := ⟨_, rfl, by decide, rfl, rfl⟩

/-- A request that ends, one that waits, and one presented while the block is busy. -/
theorem witness_OneResponsePerRequest :
    (∃ t, exec .reqGetactive (running .m96x16 .external []) = .next t ∧ t.busy = false) ∧
    (∃ t, exec .reqDispose (running .m96x16 .external []) = .next t ∧ t.busy = true) ∧
    Instr.stream .reqGetactive = .host ∧ (waiting []).busy = true := ⟨⟨_, rfl, rfl⟩, ⟨_, rfl, rfl⟩, rfl, rfl⟩

theorem witness_ConfigErrorCause :
    (State.reset.busy = false ∧ State.reset.life = .uninitialized ∧ State.reset.initFailed = false) ∧
    ∃ t, exec (.reqConstruct 3 .external true 0x3C) State.reset = .next t ∧ t.responses = [.error .configError] :=
  ⟨⟨rfl, rfl, rfl⟩, _, rfl, rfl⟩

theorem witness_InvalidArgumentCauses :
    (State.reset.busy = false ∧ State.reset.life = .uninitialized ∧ State.reset.initFailed = false) ∧
    (let s := running .m96x16 .external []; s.busy = false ∧ Usable s ∧ s.surface = none) ∧
    (let s := { running .m96x16 .external [] with surface := some p4Surface }; s.busy = false ∧ Usable s ∧ (0 : Half) = 0) ∧
    (∃ t, exec (.reqConstruct 0 .external false 0x3C) State.reset = .next t ∧ t.responses = [.error .invalidArgument]) ∧
    ∃ t, exec (.reqLoad 0 0 1 0) (running .m96x16 .external []) = .next t ∧ t.responses = [.error .invalidArgument] :=
  ⟨⟨rfl, rfl, rfl⟩, ⟨rfl, .inl rfl, rfl⟩, ⟨rfl, .inl rfl, rfl⟩, ⟨_, rfl, rfl⟩, _, rfl, rfl⟩

theorem witness_OutOfRangeCauses :
    (let s := { running .m96x16 .external [] with surface := some p4Surface }
     s.busy = false ∧ Usable s ∧ s.model = some .m96x16 ∧ s.surface = some p4Surface ∧ (96 : Half).toInt ≥ width .m96x16 ∧
     (0xFFFF : Half).toInt < 0 ∧ (16 : Half).toInt ≥ height .m96x16 ∧ (1 : Half) ≠ 0 ∧
     (5 : Half).toInt + width .m96x16 > p4Surface.sw ∧ (5 : Half).toInt + height .m96x16 > p4Surface.sh) ∧
    (∃ t, exec (.reqGetpx 96 0) (running .m96x16 .external []) = .next t ∧ t.responses = [.error .outOfRange]) ∧
    (∃ t, exec (.reqSetpx 0 16 true) (running .m96x16 .external []) = .next t ∧ t.responses = [.error .outOfRange]) ∧
    ∃ t, exec (.reqLoad 5 0 1 2) { running .m96x16 .external [] with surface := some p4Surface } = .next t ∧
      t.responses = [.error .outOfRange] :=
  ⟨⟨rfl, .inl rfl, rfl, rfl, by decide, by decide, by decide, by decide, by decide, by decide⟩, ⟨_, rfl, rfl⟩, ⟨_, rfl, rfl⟩, _,
    rfl, rfl⟩

theorem witness_IoErrorCause :
    ∃ t, exec (.reqSetcontrast 0x55) (running .m96x16 .external [.ack, .fail]) = .next t ∧
      t.responses = [.error .ioError] := ⟨_, rfl, rfl⟩

theorem witness_ConstructBringsActive :
    (let s := freshWith (acks 25)
     let txns := commandTxns 0x3C (payloads s.framing (constructRow Config.memoryModeArg .m96x16 .switching))
     s.busy = false ∧ s.life = .uninitialized ∧ s.initFailed = false ∧ s.transportIn = acks txns.length ++ []) ∧
    (let s := { freshWith (acks 16) with framing := .perCommand }
     let txns := commandTxns 0x3C (payloads s.framing (constructRow Config.memoryModeArg .m128x64 .external))
     s.busy = false ∧ s.life = .uninitialized ∧ s.initFailed = false ∧ s.transportIn = acks txns.length ++ []) :=
  ⟨⟨rfl, rfl, rfl, rfl⟩, rfl, rfl, rfl, rfl⟩

/-- At the first and at the last of the 25 transactions. -/
theorem witness_ConstructFailureLeavesDead :
    let txns := commandTxns 0x3C (payloads .perByte (constructRow Config.memoryModeArg .m128x64 .external))
    (let s := freshWith (acks 0 ++ .fail :: [])
     s.busy = false ∧ s.life = .uninitialized ∧ s.initFailed = false ∧ s.framing = .perByte ∧ 0 < txns.length) ∧
    (let s := freshWith (acks 24 ++ .fail :: [])
     s.busy = false ∧ s.life = .uninitialized ∧ s.initFailed = false ∧ s.framing = .perByte ∧ 24 < txns.length) := by
  have h : (commandTxns 0x3C (payloads .perByte (constructRow Config.memoryModeArg .m128x64 .external))).length = 25 := rfl
  exact ⟨⟨rfl, rfl, rfl, rfl, by rw [h]; omega⟩, rfl, rfl, rfl, rfl, by rw [h]; omega⟩

theorem witness_SetactiveSwitchesLife :
    let s := running .m96x16 .external [.ack]
    s.busy = false ∧ Usable s ∧ s.txOpen = true ∧ s.busAddr = some 0x3C ∧ s.transportIn = .ack :: [] :=
  ⟨rfl, .inl rfl, rfl, rfl, rfl⟩

theorem witness_SetcontrastPersistsValue :
    let s := running .m96x16 .external (acks 2)
    s.busy = false ∧ Usable s ∧ s.txOpen = true ∧ s.busAddr = some 0x3C ∧
    s.transportIn = acks (commandTxns 0x3C (payloads s.framing [[0x81, 0xFF]])).length ++ [] :=
  ⟨rfl, .inl rfl, rfl, rfl, rfl⟩

theorem witness_RenderSendsFramebuffer :
    let s := running .m96x16 .external (acks 7)
    s.busy = false ∧ Usable s ∧ s.txOpen = true ∧ s.busAddr = some 0x3C ∧ s.model = some .m96x16 ∧ s.fb = some [] ∧
    s.transportIn = acks ((commandTxns 0x3C (payloads s.framing [[0x21, 0x00, 0x5F], [0x22, 0x00, 0x01]])).length + 1) ++ [] :=
  ⟨rfl, .inl rfl, rfl, rfl, rfl, rfl, rfl⟩

theorem witness_DisposeEndsInstance :
    (let s := running .m96x16 .external [.ack]
     s.busy = false ∧ Usable s ∧ s.txOpen = true ∧ s.busAddr = some 0x3C ∧ s.transportIn = .ack :: []) ∧
    (running .m96x16 .external [.fail]).transportIn = .fail :: [] ∧ (disposed.busy = false ∧ disposed.life = .disposed) ∧
    (dead.busy = false ∧ dead.life = .uninitialized) :=
  ⟨⟨rfl, .inl rfl, rfl, rfl, rfl⟩, rfl, ⟨rfl, rfl⟩, rfl, rfl⟩

/-- SETACTIVE fails at its only transaction, SETCONTRAST at its first and at its last, RENDER at its last. -/
theorem witness_IoErrorKeepsBlockState :
    (∃ t, exec (.reqSetactive false) (running .m96x16 .external [.fail]) = .next t ∧ t.responses = [.error .ioError]) ∧
    (∃ t, exec (.reqSetcontrast 0x55) (running .m96x16 .external [.ack, .fail]) = .next t ∧ t.responses = [.error .ioError]) ∧
    (∃ t, exec .reqRender (running .m96x16 .external (acks 6 ++ [.fail])) = .next t ∧ t.responses = [.error .ioError]) ∧
    ∀ e ∈ ([(.reqSetactive false, 0), (.reqSetcontrast 0x55, 0), (.reqSetcontrast 0x55, 1), (.reqRender, 6)] : List (Instr × Nat)),
      let s := running .m96x16 .external (acks e.2 ++ .fail :: [])
      s.busy = false ∧ Usable s ∧ s.txOpen = true ∧ s.busAddr = some 0x3C ∧ s.model = some .m96x16 ∧ s.fb = some [] ∧
      s.transportIn = acks e.2 ++ .fail :: [] ∧ e.2 < (requestTxns s.framing 0x3C .m96x16 [] e.1).length :=
  ⟨⟨_, rfl, rfl⟩, ⟨_, rfl, rfl⟩, ⟨_, rfl, rfl⟩, fun e he => ⟨rfl, .inl rfl, rfl, rfl, rfl, rfl, rfl, by revert e; decide⟩⟩

theorem witness_AccessorsAnswer :
    (let s := running .m128x64 .switching []
     s.busy = false ∧ Usable s ∧ s.contrast = some 0xCF ∧ s.model = some .m128x64) ∧
    (running .m128x32 .external []).model = some .m128x32 ∧ (running .m96x16 .external []).model = some .m96x16 ∧
    (disposed.busy = false ∧ ¬ Usable disposed) :=
  ⟨⟨rfl, .inl rfl, rfl, rfl⟩, rfl, rfl, rfl, by simp [Usable, disposed]⟩

/-- A last step and one that is not the last, with a request in progress and without. -/
theorem witness_WireCommandsSendTheirBytes :
    (let s := { running .m96x16 .external (acks 3) with job := some .render, script := [dataStep []] }
     s.txOpen = true ∧ s.busAddr = some 0x3C ∧ s.model = some .m96x16 ∧ s.power = some .external ∧ s.job ≠ some .dispose ∧
     s.transportIn = acks (commandTxns 0x3C (payloads s.framing [encode (.cmdSetPageAddressRange 0 1)])).length ++ [] ∧
     s.script ≠ []) ∧
    (let s := running .m96x16 .external (acks 1)
     s.job ≠ some .dispose ∧ s.script = [] ∧
     s.transportIn = acks (commandTxns 0x3C (payloads s.framing [encode .cmdSegmentRemapModeOff])).length ++ []) :=
  ⟨⟨rfl, rfl, rfl, rfl, by decide, rfl, by decide⟩, by decide, rfl, rfl⟩

theorem witness_DataTransactionIsOneWrite :
    (let s := { running .m96x16 .external [.ack] with job := some .render }
     s.job = some .render ∧ s.txOpen = true ∧ s.busAddr = some 0x3C ∧ s.transportIn = .ack :: [] ∧ s.script = []) ∧
    ({ running .m96x16 .external [.ack] with job := some .render, script := [commandStep [0xAE]] } : State).script ≠ [] :=
  ⟨⟨rfl, rfl, rfl, rfl, rfl⟩, by decide⟩

theorem witness_AcknowledgedCommandWrites :
    let s := running .m96x16 .external (acks 1)
    (s.txOpen = true ∧ s.busAddr = some 0x3C ∧ s.model = some .m96x16 ∧ s.power = some .external ∧
      s.transportIn = acks (payloads s.framing [encode .cmdTurnOff]).length ++ []) ∧
    s.job = none ∧ ({ s with job := some .dispose } : State).script = [] ∧
    ({ s with job := some .construct, seqPC := 10 } : State).seqPC = 10 ∧
    ({ s with job := some .construct, seqPC := 14 } : State).seqPC = 14 ∧
    ({ s with job := some .construct, seqPC := 15 } : State).seqPC = 15 := ⟨⟨rfl, rfl, rfl, rfl, rfl⟩, rfl, rfl, rfl, rfl, rfl⟩

/-- A command whose second transaction fails, and a data transaction that fails, with a request in progress and without. -/
theorem witness_FailedStepEndsSequence :
    (let s := running .m96x16 .external (acks 1 ++ .fail :: [])
     s.txOpen = true ∧ s.busAddr = some 0x3C ∧ s.transportIn = acks 1 ++ .fail :: [] ∧
     1 < (commandTxns 0x3C (payloads s.framing [encode (.cmdSetContrast 0x20)])).length ∧ s.job = none) ∧
    (let s := { running .m96x16 .external (acks 0 ++ .fail :: []) with job := some .render }
     s.transportIn = acks 0 ++ .fail :: [] ∧ 0 < [(⟨0x3C, 0x40, [0x00]⟩ : Txn)].length ∧ s.job ≠ none ∧
     s.job ≠ some .construct ∧ s.job ≠ some .dispose) :=
  ⟨⟨rfl, rfl, rfl, by decide, rfl⟩, rfl, by decide, by decide, by decide, by decide⟩

theorem witness_SilentTransportHangs :
    ((waiting []).busy = true ∧ (waiting []).inFlight ≠ [] ∧ NoAnswer (waiting []).transportIn ∧
      (∀ rest, (waiting []).hostIn ≠ .reset :: rest) ∧ ∀ f rest, (waiting []).hostIn ≠ .surface f :: rest) ∧
    NoAnswer (waiting [.never, .ack]).transportIn :=
  ⟨⟨rfl, by decide, .inl rfl, fun rest h => (by cases h), fun f rest h => (by cases h)⟩, .inr ⟨_, rfl⟩⟩

/-- RENDER waits at its last transaction and SETACTIVE at its only one; CONSTRUCT at its first, before and after the
acknowledgement of its step 10, and at its last. -/
theorem witness_UnansweredRequestWaits :
    (let s := running .m96x16 .external (acks 6)
     s.busy = false ∧ Usable s ∧ s.txOpen = true ∧ s.busAddr = some 0x3C ∧ s.model = some .m96x16 ∧
     s.power = some .external ∧ s.fb = some [] ∧ s.transportIn = acks 6 ++ [] ∧ NoAnswer [] ∧
     6 < (requestTxns s.framing 0x3C .m96x16 [] .reqRender).length) ∧
    ((running .m96x16 .external [.never]).transportIn = acks 0 ++ [.never] ∧ NoAnswer [.never] ∧
      0 < (requestTxns .perByte 0x3C .m96x16 [] (.reqSetactive true)).length) ∧
    (let txns := commandTxns 0x3C (payloads .perByte (constructRow Config.memoryModeArg .m128x64 .external))
     txns.length = 25 ∧ ∀ k ∈ [0, 17, 18, 24], let s := freshWith (acks k)
       s.busy = false ∧ s.life = .uninitialized ∧ s.initFailed = false ∧ s.framing = .perByte ∧
       s.transportIn = acks k ++ [] ∧ k < 25) := by
  refine ⟨⟨rfl, .inl rfl, rfl, rfl, rfl, rfl, rfl, rfl, .inl rfl, ?_⟩, ⟨rfl, .inr ⟨_, rfl⟩, by decide⟩, rfl, ?_⟩
  · simp [requestTxns, commandTxns, payloads, running, State.reset]
  · intro k hk
    exact ⟨rfl, rfl, rfl, rfl, (List.append_nil _).symm, by revert k; decide⟩

theorem witness_WaitingRequestCompletes :
    Inv (waiting (acks 25)) ∧ (waiting (acks 25)).busy = true ∧ Undisturbed (waiting (acks 25)) ∧
    (waiting (acks 25)).transportIn = acks 25 ++ [] ∧ 25 ≤ 25 :=
  ⟨waiting_inv _, rfl, .inl rfl, rfl, Nat.le_refl _⟩

/-- A reset while a request waits; a reset before the response of a request that ends in its step, and of one that waits; a reset
before the response of a request that goes on and ends, and of one that still waits. -/
theorem witness_BlockResetRestoresFresh :
    ({ waiting [] with hostIn := [.reset] } : State).hostIn = .reset :: [] ∧
    (∀ answers ∈ ([[.ack], []] : List (List Answer)),
      let s := { running .m96x16 .external answers with hostIn := [.request [0x07, 0x00], .resetAtResponse] }
      s.busy = false ∧ s.hostIn = .request [0x07, 0x00] :: .resetAtResponse :: [] ∧
      decode .host [0x07, 0x00] = .instr (.reqSetactive false) ∧
      ∃ u, exec (.reqSetactive false) { s with hostIn := .resetAtResponse :: [] } = .next u ∧ u.busy = answers.isEmpty) ∧
    ∀ answers ∈ ([[.ack], []] : List (List Answer)),
      let s := { waiting answers with hostIn := [.resetAtResponse] }
      s.hostIn = .resetAtResponse :: [] ∧ ∃ u, stepBlock s = .next u ∧ u.busy = answers.isEmpty := by
  refine ⟨rfl, ?_, ?_⟩ <;> intro answers h <;> obtain rfl | rfl := by simpa using h
  · exact ⟨rfl, rfl, rfl, _, rfl, rfl⟩
  · exact ⟨rfl, rfl, rfl, _, rfl, rfl⟩
  · exact ⟨rfl, _, rfl, rfl⟩
  · exact ⟨rfl, _, rfl, rfl⟩

theorem witness_StepRunsDecodedInstruction :
    (let s := { running .m96x16 .external [] with hostIn := [.request [0x0B]] }
     s.busy = false ∧ s.hostIn = .request [0x0B] :: [] ∧ (∀ r, ([] : List HostEvent) ≠ .resetAtResponse :: r) ∧
     decode .host [0x0B] = .instr .reqGetcontrast) ∧
    (let s := { running .m96x16 .external [] with busy := true, script := [commandStep [0xA4]] }
     s.busy = true ∧ s.inFlight = [] ∧ Undisturbed s ∧ s.script = ⟨0x00, [0xA4]⟩ :: [] ∧
     decode .command [0xA4] = .instr .cmdResume) ∧
    (let s := { running .m96x16 .external [] with busy := true, script := [dataStep (List.replicate 192 0)] }
     s.busy = true ∧ s.inFlight = [] ∧ Undisturbed s ∧ s.script = ⟨0x40, List.replicate 192 0⟩ :: [] ∧
     decode .data (0x40 :: List.replicate 192 0) = .instr (.displayData (List.replicate 192 0))) :=
  ⟨⟨rfl, rfl, fun r h => (by cases h), rfl⟩, ⟨rfl, rfl, .inl rfl, rfl, rfl⟩, rfl, rfl, .inl rfl, rfl, rfl⟩

theorem witness_StepKeepsInvariant :
    Inv (waiting (acks 25)) ∧ ∃ t, step (waiting (acks 25)) = .next t ∧ t.contrast = some 0x20 := ⟨waiting_inv _, _, rfl, rfl⟩

theorem witness_NoFaultFromInvariant : Inv (running .m96x16 .external (acks 7)) := running_inv ..

/-- Of the requests served, and of the steps: a reset, a request taken, and a waiting request that goes on. -/
theorem witness_LifeTransitionsListed :
    (∃ t, exec (.reqConstruct 0 .external true 0x3C) (freshWith (acks 25)) = .next t ∧ t.life ≠ .uninitialized) ∧
    (∃ t, exec (.reqSetactive false) (running .m96x16 .external [.ack]) = .next t ∧ t.life ≠ .active) ∧
    (∃ t, exec .reqDispose (running .m96x16 .external [.ack]) = .next t ∧ t.life ≠ .active) ∧
    (let s := { running .m96x16 .external [] with hostIn := [.reset] }
     Inv s ∧ ∃ t, step s = .next t ∧ t.life ≠ s.life) ∧
    (let s := { running .m96x16 .external [.ack] with hostIn := [.request [0x07, 0x00]] }
     Inv s ∧ ∃ t, step s = .next t ∧ t.life ≠ s.life) ∧
    (let s := switchingOff [.ack]
     Inv s ∧ ∃ t, step s = .next t ∧ t.life ≠ s.life) :=
  ⟨⟨_, rfl, by decide⟩, ⟨_, rfl, by decide⟩, ⟨_, rfl, by decide⟩, ⟨running_inv .., _, rfl, by decide⟩,
    ⟨running_inv .., _, rfl, by decide⟩, switchingOff_inv _, _, rfl, by decide⟩

/-- Of the requests served, and of the steps: a reset, and a CONSTRUCT taken. -/
theorem witness_ConfigurationWrittenByConstructOnly :
    (∃ t, exec (.reqConstruct 0 .external true 0x3C) (freshWith (acks 25)) = .next t ∧ t.model = some .m128x64 ∧
      (freshWith (acks 25)).model = none) ∧
    (let s := { running .m96x16 .external [] with hostIn := [.reset] }
     Inv s ∧ ∃ t, step s = .next t ∧ t.model = none ∧ s.model ≠ none) ∧
    (let s := fresh (acks 25) [.request [0x01, 0x08, 0x3C]]
     Inv s ∧ ∃ t, step s = .next t ∧ t.model = some .m128x64 ∧ s.model = none) :=
  ⟨⟨_, rfl, rfl, rfl⟩, ⟨running_inv .., _, rfl, rfl, by decide⟩, fresh_inv .., _, rfl, rfl, rfl⟩

theorem witness_InitFailedIsSticky :
    let s := { dead with hostIn := [.request [0x0A]] }
    Inv s ∧ s.initFailed = true ∧ ∃ t, step s = .next t ∧ ¬ ResetServed s t ∧ t.responses = [.error .usageError] :=
  ⟨dead_inv, rfl, _, rfl, by simp [ResetServed, dead], rfl⟩

theorem witness_ClosedHandleEmitsNothing :
    let s := { freshWith (acks 25) with hostIn := [.request [0x01, 0x08, 0x3C]] }
    s.txOpen = false ∧ ∃ t, step s = .next t ∧ t.busLog.length = 25 := ⟨rfl, _, rfl, rfl⟩

theorem witness_BusLogGrowsToBusaddr :
    Inv (waiting (acks 25)) ∧ ∃ t, step (waiting (acks 25)) = .next t ∧ t.busLog.length = 2 := ⟨waiting_inv _, _, rfl, rfl⟩

theorem witness_UnusedCommandsNeverEmitted :
    (Configured (running .m96x16 .external []) ∧
      commandStep [0xAE] ∈ jobSequence (running .m96x16 .external []) .dispose) ∧
    Inv (waiting [.ack]) ∧ logReading (waiting [.ack]) = .atOpcode [.cmdSetContrast 0x20] ∧
    (∀ i ∈ [.cmdSetContrast 0x20], i ∉ neverEmitted) ∧ ∃ t, step (waiting [.ack]) = .next t ∧ t.busLog.length = 2 :=
  ⟨⟨⟨.m96x16, .external, 0x3C, [], rfl, rfl, rfl, rfl, rfl, by intro c h; cases h⟩, by simp [jobSequence]⟩, waiting_inv _, rfl,
    by decide, _, rfl, rfl⟩

theorem witness_NonEmittingRequestsFrame :
    Instr.stream (.reqSetpx 95 15 true) = .host ∧ ¬ EmitsTransactions (.reqSetpx 95 15 true) ∧
    ∃ t, exec (.reqSetpx 95 15 true) (running .m96x16 .external []) = .next t ∧ t.fb ≠ some [] :=
  ⟨rfl, by simp [EmitsTransactions], _, rfl, by decide⟩

theorem witness_SequencerRequestsKeepFramebuffer :
    ∃ t, exec .reqRender (running .m96x16 .external (acks 7)) = .next t ∧ t.responses = [.ok []] := ⟨_, rfl, rfl⟩

/-- A request whose waiting transaction is acknowledged, fails, and gets no answer; a step that is not the last; and CONSTRUCT at
its last step. -/
theorem witness_WaitingRequestGoesOn :
    (∀ answers, let s := waiting answers
      Inv s ∧ s.busy = true ∧ s.inFlight ≠ [] ∧ Undisturbed s ∧ s.model = some .m96x16 ∧ s.power = some .external ∧
        s.job = some (.setContrast 0x20) ∧ s.script = []) ∧
    (waiting [.ack]).transportIn = acks (waiting [.ack]).inFlight.length ++ [] ∧
    ((waiting [.fail]).transportIn = acks 0 ++ .fail :: [] ∧ 0 < (waiting [.fail]).inFlight.length) ∧
    ((waiting []).transportIn = acks 0 ++ [] ∧ NoAnswer [] ∧ 0 < (waiting []).inFlight.length) ∧
    (let s := switchingOff [.ack]
     Inv s ∧ s.busy = true ∧ s.inFlight ≠ [] ∧ Undisturbed s ∧ s.job = some (.setActive false)) ∧
    (let s := constructing 15 .inactive (acks 1)
     Inv s ∧ s.busy = true ∧ s.inFlight ≠ [] ∧ Undisturbed s ∧ s.job = some .construct ∧ s.script = []) ∧
    (let s := constructing 14 .uninitialized (acks 1)
     Inv s ∧ s.busy = true ∧ s.inFlight ≠ [] ∧ Undisturbed s ∧ s.job = some .construct ∧ s.script ≠ []) :=
  ⟨fun _ => ⟨waiting_inv _, rfl, List.cons_ne_nil _ _, .inl rfl, rfl, rfl, rfl, rfl⟩, rfl, ⟨rfl, by decide⟩, ⟨rfl, .inl rfl, by decide⟩,
    ⟨switchingOff_inv _, rfl, by decide, .inl rfl, rfl⟩,
    ⟨constructing_inv _ (.inr ⟨rfl, rfl⟩), rfl, by decide, .inl rfl, rfl, rfl⟩,
    constructing_inv _ (.inl ⟨rfl, rfl⟩), rfl, by decide, .inl rfl, rfl, by decide⟩

/-- The last pixel of P4's surface, a pixel listed twice, and one not listed. -/
theorem witness_SurfacePort :
    (99 < p4Surface.sw ∧ 19 < p4Surface.sh ∧ 0 < p4Surface.sw ∧ 99 < p4Surface.sw) ∧
    (let f : Surface := ⟨2, 2, [(0, ⟨1, 1, 1⟩), (3, ⟨2, 2, 2⟩), (3, ⟨9, 9, 9⟩)]⟩
     1 < f.sw ∧ 1 < f.sh ∧ f.pixels = [(0, ⟨1, 1, 1⟩)] ++ (1 * f.sw + 1, ⟨2, 2, 2⟩) :: [(3, ⟨9, 9, 9⟩)] ∧
     ∀ e ∈ ([(0, ⟨1, 1, 1⟩)] : List (Nat × Rgb)), e.1 ≠ 1 * f.sw + 1) ∧
    (∀ e ∈ p4Surface.pixels, e.1 ≠ 19 * p4Surface.sw + 99) ∧
    ({ State.reset with hostIn := [.surface (some p4Surface)] } : State).hostIn = .surface (some p4Surface) :: [] := by
  decide

theorem witness_BusLogReadsBack :
    Inv (waiting [.ack]) ∧ logReading (waiting [.ack]) = .atOpcode [.cmdSetContrast 0x20] ∧
    ∃ t, step (waiting [.ack]) = .next t ∧ t.responses ≠ (waiting [.ack]).responses ++ [.error .ioError] ∧
      ¬ ResetServed (waiting [.ack]) t ∧ t.busy = false :=
  ⟨waiting_inv _, rfl, _, rfl, by decide, by simp [ResetServed, waiting, running, State.reset], rfl⟩

end Sys2Proof.Tests
end

section
/-! The memory family (20_memory.md R41 to R45): the address translator, the requests outside the rectangle, and the packed
image. -/

namespace Sys2Proof.Proofs

open Sys2Proof Sys2Proof.Machine Sys2Proof.Slice0

/-! ### Beginning and ending a request on a usable block -/

/-- The model's response and the obligations' are the same update. -/
theorem giveResponse_eq_answered (r : Response) (s : State) : giveResponse r s = answered r s := rfl

/-- On an idle usable block a gated request runs its body in the accepted state. -/
theorem accept_gate_of_usable {s : State} (hb : s.busy = false) (hu : Usable s)
    (body : State → Host.Outcome State Fault Refusal) :
    (accept s fun t => gate t body) = body (accepted s) := by
  have hopen : constructed (accepted s) = true := (constructed_iff (accepted s)).mpr hu
  rw [accept_ready hb, gate_open hopen]

/-- An error raised in the accepted state answers the request and leaves everything else as it was. -/
theorem raise_accepted (e : Error) (s : State) : raise e (accepted s) = .next (answered (.error e) s) := by
  rw [raise, giveResponse_accepted, giveResponse_eq_answered]

/-! ### GETPX and SETPX outside the rectangle -/

section Outside

variable {s : State} {d : DisplayModel} {x y : Half}
  (hb : s.busy = false) (hu : Usable s) (hm : s.model = some d) (hout : inBounds d x y = false)

include hb hu hm hout

theorem exec_getpx_outside : exec (.reqGetpx x y) s = .next (answered (.error .outOfRange) s) := by
  have hm' : (accepted s).model = some d := hm
  rw [exec, execGetpx, accept_gate_of_usable hb hu, withModel_some hm', hout, if_neg Bool.false_ne_true, raise_accepted]

theorem exec_setpx_outside (v : Bool) :
    exec (.reqSetpx x y v) s = .next (answered (.error .outOfRange) s) := by
  have hm' : (accepted s).model = some d := hm
  rw [exec, execSetpx, accept_gate_of_usable hb hu, withModel_some hm', hout, if_neg Bool.false_ne_true, raise_accepted]

end Outside

/-! ### Bytes and columns -/

/-- A byte's number is the sum of its bits' weights. -/
theorem dataByte_toNat_eq_sum (m : Memory) (k : Nat) :
    (dataByte m k).toNat = ((List.range 8).map fun j => (readBit m (8 * k + j)).toNat * 2 ^ j).sum := by
  rw [dataByte, byteOfBits_toNat]
  simp [List.range_succ, Nat.add_assoc]

/-- The translator sends pixel j of column k mod W on page k div W to linear index 8k + j. -/
theorem xlate_column (d : DisplayModel) (k : Nat) {j : Nat} (hj : j < 8) :
    xlate d (k % width d) (8 * (k / width d) + j) = 8 * k + j := by
  have hpage : (8 * (k / width d) + j) / 8 = k / width d := by omega
  have hrow : (8 * (k / width d) + j) % 8 = j := by omega
  calc xlate d (k % width d) (8 * (k / width d) + j)
      = k / width d * (8 * width d) + k % width d * 8 + j := by rw [xlate, hpage, hrow, bitsPerPage]
    _ = 8 * (width d * (k / width d) + k % width d) + j := by ring
    _ = 8 * k + j := by rw [Nat.div_add_mod]

/-! ### The obligations -/

/-- Settles O10: the formulas of R42 are `pixelX` and `pixelY`, which undo `xlate` on both sides and keep the bounds. -/
theorem translatorBijection : Obligations.TranslatorBijection := by
  intro d
  refine ⟨fun x y hx hy => ?_, fun i hi => ?_⟩
  · exact ⟨xlate_lt hx hy, pixelX_xlate hx y, pixelY_xlate hx y⟩
  · exact ⟨pixelX_lt d i, pixelY_lt hi, xlate_pixel d i⟩

/-- Settles O11: the byte at place 1 + k is data byte k, whose number is the sum of its bits. -/
theorem packedImageBytes : Obligations.PackedImageBytes := by
  intro d m
  refine ⟨packedImage_length d m, rfl, fun k hk => ?_⟩
  exact ⟨dataByte m k, packedImage_data d m hk, dataByte_toNat_eq_sum m k⟩

/-- Settles O12: bit j of data byte k is framebuffer bit 8k + j, which is where the translator puts the pixel. -/
theorem dataByteHoldsColumn : Obligations.DataByteHoldsColumn := by
  intro d m k j hk hj
  refine ⟨dataByte m k, packedImage_data d m hk, ?_⟩
  rw [xlate_column d k hj, dataByte_getLsbD m k hj]

/-- Settles O9: the formula is `xlate`'s definition, and outside the rectangle `inBounds` is false. -/
theorem translatorFormula : Obligations.TranslatorFormula := by
  refine ⟨fun d x y _ _ => rfl, fun s d x y v hb hu hm hxy => ?_⟩
  have hout : inBounds d x y = false := by rwa [← Bool.not_eq_true, inBounds_iff]
  exact ⟨exec_getpx_outside hb hu hm hout, exec_setpx_outside hb hu hm hout v⟩

end Sys2Proof.Proofs
end

section
/-! The encoding family (30_encoding.md R61, R62, R71): the command formats and the closed opcode set, the reserved bits of
request operands, and the illegal request codes. -/

namespace Sys2Proof.Proofs

open Sys2Proof Sys2Proof.Machine Sys2Proof.Slice0

/-! ### Command formats -/

/-! R61's three formats: an opcode of a format, with as many argument bytes, is the command it names. -/

theorem decode_command_c0 {op : Byte} {i : Instr} (h : commandFormat op = some (.c0 i)) :
    decode .command [op] = .instr i := by
  simp only [decode, decodeCommand, h]

theorem decode_command_c1 {op : Byte} {make : Byte → Instr} (h : commandFormat op = some (.c1 make)) (a : Byte) :
    decode .command [op, a] = .instr (make a) := by
  simp only [decode, decodeCommand, h]

theorem decode_command_c2 {op : Byte} {make : Byte → Byte → Instr} (h : commandFormat op = some (.c2 make)) (a b : Byte) :
    decode .command [op, a, b] = .instr (make a b) := by
  simp only [decode, decodeCommand, h]

/-- Bytes are a command exactly when their opcode is in the closed set and its count of argument bytes follows it. -/
theorem decode_command_instr_iff (op : Byte) (args : List Byte) :
    (∃ i, decode .command (op :: args) = .instr i) ↔ commandArgc op = some args.length := by
  cases hf : commandFormat op with
  | none => simp [decode, decodeCommand, commandArgc, hf]
  | some format =>
    cases format with
    | c0 i => rcases args with _ | ⟨a, rest⟩ <;> simp [decode, decodeCommand, commandArgc, hf]
    | c1 make => rcases args with _ | ⟨a, _ | ⟨b, rest⟩⟩ <;> simp [decode, decodeCommand, commandArgc, hf]
    | c2 make => rcases args with _ | ⟨a, _ | ⟨b, _ | ⟨c, rest⟩⟩⟩ <;> simp [decode, decodeCommand, commandArgc, hf]

/-- The opcode and argc columns of R62, in the rule's order. -/
def argcTable : List (Byte × Nat) :=
  [(0x81, 1), (0xA4, 0), (0xA5, 0), (0xA6, 0), (0xA7, 0), (0xAE, 0), (0xAF, 0), (0xD3, 1), (0xDA, 1), (0xDB, 1), (0xD5, 1),
    (0xD9, 1), (0xA8, 1), (0x00, 0), (0x10, 0), (0x40, 0), (0x20, 1), (0x21, 2), (0x22, 2), (0xC0, 0), (0xC8, 0), (0xA0, 0),
    (0xA1, 0), (0x8D, 1)]

/-- The model's argument counts are R62's, on each of the 256 bytes. -/
theorem commandArgc_eq_lookup : ∀ op : Byte, commandArgc op = argcTable.lookup op := by decide

/-! ### Reserved operand bits and illegal request codes -/

/-- A mask that is all 1 over a field keeps the field: how a request ignores its reserved bits (R71). -/
theorem extractLsb'_and_of_allOnes {w n : Nat} {q mask : BitVec w} {start : Nat}
    (h : mask.extractLsb' start n = BitVec.allOnes n) :
    (q &&& mask).extractLsb' start n = q.extractLsb' start n := by
  rw [BitVec.extractLsb'_and, h, BitVec.and_allOnes]

theorem getLsbD_and_of_true {w : Nat} {q mask : BitVec w} {k : Nat} (h : mask.getLsbD k = true) :
    (q &&& mask).getLsbD k = q.getLsbD k := by
  rw [BitVec.getLsbD_and, h, Bool.and_true]

theorem decode_host_construct (q1 q2 : Byte) :
    decode .host [0x01, q1, q2] =
      .instr (.reqConstruct (q1.extractLsb' 0 2) (powerOfBit (q1.getLsbD 2)) (q1.getLsbD 3) (q2.extractLsb' 0 7)) := rfl

theorem decode_host_setpx (q1 q2 q3 q4 q5 : Byte) :
    decode .host [0x03, q1, q2, q3, q4, q5] =
      .instr (.reqSetpx (halfOfBytes q1 q2) (halfOfBytes q3 q4) (q5.getLsbD 0)) := rfl

theorem decode_host_setactive (q1 : Byte) : decode .host [0x07, q1] = .instr (.reqSetactive (q1.getLsbD 0)) := rfl

theorem notMem_of_illegal : ∀ code : Byte, (code = 0x00 ∨ 0x0E ≤ code.toNat) →
    code ∉ ([1, 2, 3, 4, 5, 6, 7, 8, 9, 10, 11, 12, 13] : List Byte) := by decide

/-- R71: an illegal code is a request of one byte. -/
theorem decode_host_illegal {code : Byte} (h : code = 0x00 ∨ 0x0E ≤ code.toNat) :
    decode .host [code] = .instr (.illegal code) := by
  have hout := notMem_of_illegal code h
  simp only [List.mem_cons, List.not_mem_nil, or_false, not_or] at hout
  simp only [decode, decodeRequest, hout, if_false]

/-- R167: whatever the lifecycle state. -/
theorem exec_illegal {s : State} (hb : s.busy = false) (code : Byte) :
    exec (.illegal code) s = .next (answered (.error .illegalRequest) s) := by
  rw [exec, execIllegal, accept_ready hb, raise_accepted]

/-! ### The obligations -/

/-- Settles O5: an opcode's format fixes its count, and R62's table holds every opcode's format. -/
theorem commandFormats : Obligations.CommandFormats := by
  refine ⟨fun op args => ?_, fun a b => ?_⟩
  · exact commandArgc_eq_lookup op ▸ decode_command_instr_iff op args
  · exact ⟨decode_command_c1 rfl a, decode_command_c0 rfl, decode_command_c0 rfl, decode_command_c0 rfl,
      decode_command_c0 rfl, decode_command_c0 rfl, decode_command_c0 rfl, decode_command_c1 rfl a,
      decode_command_c1 rfl a, decode_command_c1 rfl a, decode_command_c1 rfl a, decode_command_c1 rfl a,
      decode_command_c1 rfl a, decode_command_c0 rfl, decode_command_c0 rfl, decode_command_c0 rfl,
      decode_command_c1 rfl a, decode_command_c2 rfl a b, decode_command_c2 rfl a b, decode_command_c0 rfl,
      decode_command_c0 rfl, decode_command_c0 rfl, decode_command_c0 rfl, decode_command_c1 rfl a⟩

/-- Settles O3: each masked operand keeps the fields its request reads, and an illegal code is answered on acceptance. -/
theorem reservedBitsIgnoredIllegalCodesAnswered : Obligations.ReservedBitsIgnoredIllegalCodesAnswered := by
  refine ⟨fun q1 q2 => ?construct, fun q1 q2 q3 q4 q5 => ?setpx, fun q1 => ?setactive, fun code hcode => ?illegal⟩
  case construct =>
    simp only [decode_host_construct]
    rw [extractLsb'_and_of_allOnes (by decide), getLsbD_and_of_true (by decide), getLsbD_and_of_true (by decide),
      extractLsb'_and_of_allOnes (by decide)]
  case setpx =>
    simp only [decode_host_setpx]
    rw [getLsbD_and_of_true (by decide)]
  case setactive =>
    simp only [decode_host_setactive]
    rw [getLsbD_and_of_true (by decide)]
  case illegal => exact ⟨decode_host_illegal hcode, fun s hb => exec_illegal hb code⟩

end Sys2Proof.Proofs
end

section
/-! The framebuffer family (40_framebuffer.md R86): the lighting function as an exact rational threshold. -/

namespace Sys2Proof.Proofs

open Sys2Proof Sys2Proof.Machine Sys2Proof.Slice0

/-! ### The lighting function -/

theorem rgb_eq_black_iff {r g b : Byte} : (⟨r, g, b⟩ : Rgb) = black ↔ r = 0 ∧ g = 0 ∧ b = 0 := by
  rw [black, Rgb.mk.injEq]

/-- R86: the two tests `Lit` makes. -/
theorem lit_eq_true_iff {p : Rgb} {num den : Half} :
    lit p num den = true ↔ p ≠ black ∧ 255 * num.toInt ≤ (brightest p : Int) * den.toNat := by
  unfold lit
  split
  · next hblack => simp [hblack]
  · next hcolour => simp [hcolour]

/-- A threshold of rationals is its cross-multiplication in integers, as both denominators are positive. -/
theorem div_le_div_255_iff (num : Int) (m : Nat) {den : Nat} (h : 0 < den) :
    (num : ℚ) / den ≤ (m : ℚ) / 255 ↔ 255 * num ≤ (m : Int) * den := by
  rw [div_le_div_iff₀ (Nat.cast_pos.mpr h) (by norm_num), mul_comm]
  norm_cast

/-! ### The obligations -/

/-- Settles O20: the integer test of `Lit` is the rational threshold multiplied by `255 * den`, which is positive. -/
theorem lightingIsExactThreshold : Obligations.LightingIsExactThreshold := by
  intro r g b num den hden
  rw [lit_eq_true_iff, ne_eq, rgb_eq_black_iff, div_le_div_255_iff _ _ (BitVec.toNat_pos_of_ne_zero hden),
    brightest]

end Sys2Proof.Proofs
end

section
/-! The sequencer family (41_sequencer.md R101 to R103, R108 to R110): a CONSTRUCT whose every transaction is acknowledged, and
the accessors. -/

namespace Sys2Proof.Proofs

open Sys2Proof Sys2Proof.Machine Sys2Proof.Slice0

/-! ### A sequence of commands, acknowledged -/

/-- The model's bus log entries and the obligations' are the same list. -/
theorem ackedEvents_eq_allAcked (ts : List Txn) : ackedEvents ts = allAcked ts := rfl

/-- R64: a command step goes out as the obligations frame its bytes. -/
theorem transactions_commandStep (f : Framing) (a : BusAddr) (command : List Byte) :
    transactions f a (commandStep command) = commandTxns a (payloads f [command]) := by
  cases f <;> simp [transactions, commandStep, commandTxns, payloads]

theorem payloads_cons (f : Framing) (command : List Byte) (commands : List (List Byte)) :
    payloads f (command :: commands) = payloads f [command] ++ payloads f commands := by
  cases f <;> simp [payloads]

theorem allTransactions_commandSteps (f : Framing) (a : BusAddr) (commands : List (List Byte)) :
    allTransactions f a (commands.map commandStep) = commandTxns a (payloads f commands) := by
  induction commands with
  | nil => cases f <;> rfl
  | cons command commands ih =>
    rw [List.map_cons, allTransactions_cons, ih, transactions_commandStep, payloads_cons f command commands]
    exact List.map_append.symm

/-- R100: a request whose sequence is acknowledged throughout is done, with the registers its steps write. -/
theorem runJob_acked {j : Job} {steps : List SeqStep} {s : State} {a : BusAddr} {rest : List Answer} (hb : s.busy = true)
    (ho : s.txOpen = true) (ha : s.busAddr = some a) (hl : Latched { s with job := some j }) (hne : steps ≠ [])
    (h : s.transportIn = acks (allTransactions s.framing a steps).length ++ rest) :
    runJob j steps s =
      .next (sequenceDone (afterSteps a { s with job := some j, script := steps, inFlight := [] } steps [] rest)) :=
  runScript_acked (s := { s with job := some j, script := steps, inFlight := [] }) hb ho ha hl hne h

/-! ### CONSTRUCT -/

/-- R103: the rows are the initialization sequence at each model's and power mode's constants. -/
theorem initSequence_eq_constructRow (d : DisplayModel) (p : PowerMode) :
    initSequence d p = (constructRow Config.memoryModeArg d p).map commandStep := by
  cases d <;> cases p <;> rfl

theorem constructTxns_length (f : Framing) (a : BusAddr) (mm : Byte) (d : DisplayModel) (p : PowerMode) :
    (commandTxns a (payloads f (constructRow mm d p))).length =
      match f with | .perByte => 25 | .perCommand => 16 := by
  cases f <;> cases d <;> cases p <;> rfl

theorem modelOfCode_codeOf (d : DisplayModel) : modelOfCode (codeOf d) = some d := by cases d <;> rfl

theorem defaultContrast_eq_defcon (d : DisplayModel) (p : PowerMode) : defaultContrast d p = defcon d p := by
  cases d <;> cases p <;> rfl

/-- What CONSTRUCT writes before its sequence (R101): the configuration, the handle and a framebuffer with every bit 0. -/
def latch (d : DisplayModel) (p : PowerMode) (a : BusAddr) (s : State) : State :=
  { s with model := some d, power := some p, busAddr := some a, txOpen := true, fb := some clearMemory }

/-- On a fresh idle instance a CONSTRUCT of a known model, with a transport, latches its configuration and runs the
initialization sequence. -/
theorem exec_construct_fresh {s : State} (hb : s.busy = false) (hlife : s.life = .uninitialized) (hinit : s.initFailed = false)
    (d : DisplayModel) (p : PowerMode) (a : BusAddr) :
    exec (.reqConstruct (codeOf d) p true a) s = runJob .construct (initSequence d p) (latch d p a (accepted s)) := by
  have hfresh : fresh (accepted s) = true := (fresh_iff (accepted s)).mpr ⟨hlife, hinit⟩
  rw [exec, execConstruct, accept_ready hb, if_pos hfresh, modelOfCode_codeOf]
  rfl

theorem sequenceDone_construct {s : State} (h : s.job = some .construct) : sequenceDone s = answered (.ok []) s := by
  rw [sequenceDone, h]
  rfl

/-- R101: an initialization sequence whose every transaction is acknowledged ends with OK, `life` Active and `contrast` the
default. -/
theorem runJob_construct_acked {s : State} {rest : List Answer} (hlife : s.life = .uninitialized)
    (d : DisplayModel) (p : PowerMode) (a : BusAddr)
    (h : s.transportIn = acks (allTransactions s.framing a (initSequence d p)).length ++ rest) :
    runJob .construct (initSequence d p) (latch d p a (accepted s)) =
      .next (answered (.ok []) { latch d p a s with
        life := .active, contrast := some (defaultContrast d p), transportIn := rest,
        busLog := s.busLog ++ ackedEvents (allTransactions s.framing a (initSequence d p)) }) := by
  have hlifeEnd : lifeAfterSteps (some .construct) 16 0 s.life = .active := by
    rw [hlife, lifeAfterSteps_construct 16 le_rfl]; rfl
  have hcontrastEnd : contrastAfterSteps d p (some .construct) 16 0 s.contrast = some (defaultContrast d p) := by
    rw [contrastAfterSteps_construct d p s.contrast 16 le_rfl]; rfl
  have hne : initSequence d p ≠ [] := List.cons_ne_nil _ _
  rw [runJob_acked (s := latch d p a (accepted s)) (a := a) rfl rfl rfl (fun _ => ⟨rfl, rfl⟩) hne h,
    sequenceDone_construct rfl, afterSteps, initSequence_length, ← hlifeEnd, ← hcontrastEnd]
  rfl

/-! ### The accessors -/

/-- An answer given in the accepted state leaves everything else as it was. -/
theorem respond_accepted (data : List Byte) (s : State) : respond data (accepted s) = .next (answered (.ok data) s) := by
  rw [respond, giveResponse_accepted, giveResponse_eq_answered]

/-- On an idle block that is not usable a gated request answers UsageError, whatever its body. -/
theorem accept_gate_of_not_usable {s : State} (hb : s.busy = false) (hu : ¬ Usable s)
    (body : State → Host.Outcome State Fault Refusal) :
    (accept s fun t => gate t body) = .next (answered (.error .usageError) s) := by
  have hclosed : constructed (accepted s) = false := by
    rw [← Bool.not_eq_true, constructed_iff]
    exact hu
  rw [accept_ready hb, gate_closed hclosed, raise_accepted]

section Accessors

variable {s : State} (hb : s.busy = false) (hu : Usable s)

include hb hu

theorem exec_getcontrast_usable {c : Byte} (hc : s.contrast = some c) :
    exec .reqGetcontrast s = .next (answered (.ok [c]) s) := by
  have hc' : (accepted s).contrast = some c := hc
  rw [exec, execGetcontrast, accept_gate_of_usable hb hu, withContrast_some hc', respond_accepted]

theorem exec_getactive_usable :
    exec .reqGetactive s = .next (answered (.ok [if s.life = .active then 0x01 else 0x00]) s) := by
  rw [exec, execGetactive, accept_gate_of_usable hb hu, respond_accepted, bitByte]
  simp only [accepted_life, beq_iff_eq]

theorem exec_getgeom_usable {d : DisplayModel} (hd : s.model = some d) :
    exec .reqGetgeom s = .next (answered (.ok (geometryBytes d)) s) := by
  have hd' : (accepted s).model = some d := hd
  rw [exec, execGetgeom, accept_gate_of_usable hb hu, withModel_some hd', respond_accepted]

end Accessors

/-! ### The obligations -/

/-- Settles O29: CONSTRUCT latches and runs the initialization sequence, whose steps are the commands of R103's row, and the
acknowledged sequence ends Active with the default contrast. -/
theorem constructBringsActive : Obligations.ConstructBringsActive := by
  intro s d p a rest hb hlife hinit txns hacks
  have hall : allTransactions s.framing a (initSequence d p) = txns := by
    rw [initSequence_eq_constructRow, allTransactions_commandSteps]
  refine ⟨constructTxns_length s.framing a _ d p, clearMemory, readBit_clearMemory, ?_⟩
  rw [exec_construct_fresh hb hlife hinit, runJob_construct_acked hlife d p a (hall ▸ hacks), hall,
    ackedEvents_eq_allAcked, defaultContrast_eq_defcon]
  rfl

/-- Settles O36: behind the open gate each accessor answers from its register; behind the closed one all three answer
UsageError. -/
theorem accessorsAnswer : Obligations.AccessorsAnswer := by
  refine ⟨rfl, rfl, rfl, fun s hb => ⟨fun hu => ?usable, fun hu i hi => ?notUsable⟩⟩
  case usable =>
    exact ⟨fun c => exec_getcontrast_usable hb hu, exec_getactive_usable hb hu, exec_getgeom_usable hb hu,
      exec_getgeom_usable hb hu, exec_getgeom_usable hb hu⟩
  case notUsable =>
    simp only [List.mem_cons, List.not_mem_nil, or_false] at hi
    rcases hi with rfl | rfl | rfl
    · exact accept_gate_of_not_usable hb hu _
    · exact accept_gate_of_not_usable hb hu _
    · exact accept_gate_of_not_usable hb hu _

end Sys2Proof.Proofs
end

section
/-! The exceptions family (60_exceptions.md R161 to R163, R165, R178): the admission table, the causes of ConfigError,
InvalidArgument and OutOfRange, and the transport that never answers. -/

namespace Sys2Proof.Proofs

open Sys2Proof Sys2Proof.Machine Sys2Proof.Slice0

/-! ### The conditions of the checks -/

theorem not_usable_of_closed {s : State} (h : constructed s = false) : ¬ Usable s :=
  (constructed_iff s).not.mp (Bool.not_eq_true _ ▸ h)

theorem not_fresh_iff (s : State) : fresh s = false ↔ ¬ (s.life = .uninitialized ∧ s.initFailed = false) := by
  rw [← fresh_iff, Bool.not_eq_true]

theorem modelOfCode_eq_none_iff : ∀ code : BitVec 2, modelOfCode code = none ↔ code = 3 := by decide

/-- A coordinate pair is outside the rectangle on one of its four sides. -/
theorem inBounds_eq_false_iff (d : DisplayModel) (x y : Half) :
    inBounds d x y = false ↔ x.toInt < 0 ∨ x.toInt ≥ width d ∨ y.toInt < 0 ∨ y.toInt ≥ height d := by
  rw [← Bool.not_eq_true, inBounds_iff]
  omega

/-- A window leaves the surface on one of its four sides. -/
theorem windowOutside_iff (d : DisplayModel) (f : Surface) (ox oy : Half) :
    windowOutside d f ox oy = true ↔
      ox.toInt < 0 ∨ oy.toInt < 0 ∨ ox.toInt + width d > f.sw ∨ oy.toInt + height d > f.sh := by
  simp only [windowOutside, Bool.or_eq_true, decide_eq_true_eq, or_assoc]

/-! ### A failed check answers its error -/

section FailedCheck

variable {s : State} (hb : s.busy = false)

include hb

/-- R165, third row: the gate is the first check of each of the eleven requests. -/
theorem exec_gated_of_not_usable {i : Instr} (hi : Gated i) (hu : ¬ Usable s) :
    exec i s = .next (answered (.error .usageError) s) := by
  rcases hi with ⟨x, y, rfl⟩ | ⟨x, y, v, rfl⟩ | rfl | rfl | ⟨ox, oy, num, den, rfl⟩ | ⟨b, rfl⟩ | ⟨c, rfl⟩ | rfl | rfl |
    rfl | rfl
  all_goals exact accept_gate_of_not_usable hb hu _

theorem exec_construct_of_not_fresh (hf : ¬ (s.life = .uninitialized ∧ s.initFailed = false)) (model : BitVec 2)
    (power : PowerMode) (tp : Bool) (addr : BusAddr) :
    exec (.reqConstruct model power tp addr) s = .next (answered (.error .usageError) s) := by
  have hstale : ¬ fresh (accepted s) = true := (fresh_iff (accepted s)).not.mpr hf
  rw [exec, execConstruct, accept_ready hb, if_neg hstale, raise_accepted]

theorem exec_dispose_uninitialized (hl : s.life = .uninitialized) :
    exec .reqDispose s = .next (answered (.error .usageError) s) := by
  simp only [exec, execDispose, accept_ready hb, accepted_life, hl, raise_accepted]

theorem exec_dispose_disposed (hl : s.life = .disposed) : exec .reqDispose s = .next (answered (.ok []) s) := by
  simp only [exec, execDispose, accept_ready hb, accepted_life, hl, respond_accepted]

section Fresh

variable (hlife : s.life = .uninitialized) (hinit : s.initFailed = false)

include hlife hinit

/-- The model is checked before the transport: `tp` is not read. -/
theorem exec_construct_unknownModel (power : PowerMode) (tp : Bool) (addr : BusAddr) :
    exec (.reqConstruct 3 power tp addr) s = .next (answered (.error .configError) s) := by
  have hfresh : fresh (accepted s) = true := (fresh_iff (accepted s)).mpr ⟨hlife, hinit⟩
  rw [exec, execConstruct, accept_ready hb, if_pos hfresh, (modelOfCode_eq_none_iff 3).mpr rfl, raise_accepted]

theorem exec_construct_noTransport (d : DisplayModel) (power : PowerMode) (addr : BusAddr) :
    exec (.reqConstruct (codeOf d) power false addr) s = .next (answered (.error .invalidArgument) s) := by
  have hfresh : fresh (accepted s) = true := (fresh_iff (accepted s)).mpr ⟨hlife, hinit⟩
  simp only [exec, execConstruct, accept_ready hb, hfresh, modelOfCode_codeOf, if_true, Bool.false_eq_true, if_false,
    raise_accepted]

end Fresh

/-- LOAD checks the surface, then den, before it reads MODEL. -/
theorem exec_load_invalid (hu : Usable s) {ox oy num den : Half} (h : s.surface = none ∨ den = 0) :
    exec (.reqLoad ox oy num den) s = .next (answered (.error .invalidArgument) s) := by
  rw [exec, execLoad, accept_gate_of_usable hb hu, accepted_surface]
  cases hs : s.surface with
  | none => exact raise_accepted _ s
  | some f =>
    have hden : den = 0 := h.resolve_left (by simp [hs])
    simp only [hden, if_true, raise_accepted]

theorem exec_load_outside (hu : Usable s) {d : DisplayModel} {f : Surface} {ox oy num den : Half} (hm : s.model = some d)
    (hs : s.surface = some f) (hden : den ≠ 0) (hout : windowOutside d f ox oy = true) :
    exec (.reqLoad ox oy num den) s = .next (answered (.error .outOfRange) s) := by
  have hm' : (accepted s).model = some d := hm
  rw [exec, execLoad, accept_gate_of_usable hb hu, accepted_surface, hs]
  simp only [hden, if_false, withModel_some hm', hout, if_true, raise_accepted]

end FailedCheck

/-! ### An error answered tells which check failed -/

/-- What a request and the state it is presented in are like when it answers an error (60_exceptions.md R161 to R167). -/
def ErrorCause (s : State) (i : Instr) : Error → Prop
  | .configError => ∃ power tp addr, i = .reqConstruct 3 power tp addr
  | .invalidArgument =>
    (∃ model power addr, i = .reqConstruct model power false addr) ∨
      (∃ ox oy num den, i = .reqLoad ox oy num den ∧ (s.surface = none ∨ den = 0))
  | .outOfRange =>
    ∃ d, s.model = some d ∧
      ((∃ x y, ((i = .reqGetpx x y) ∨ (∃ v, i = .reqSetpx x y v)) ∧
          (x.toInt < 0 ∨ x.toInt ≥ width d ∨ y.toInt < 0 ∨ y.toInt ≥ height d)) ∨
        (∃ ox oy num den f, i = .reqLoad ox oy num den ∧ s.surface = some f ∧
          (ox.toInt < 0 ∨ oy.toInt < 0 ∨ ox.toInt + width d > f.sw ∨ oy.toInt + height d > f.sh)))
  | .ioError => EmitsTransactions i
  | .usageError =>
    (Gated i ∧ ¬ Usable s) ∨
      ((∃ model power tp addr, i = .reqConstruct model power tp addr) ∧
        ¬ (s.life = .uninitialized ∧ s.initFailed = false)) ∨
      (i = .reqDispose ∧ s.life = .uninitialized)
  | .illegalRequest => ∃ code, i = .illegal code

/-- A sequence, once begun, answers no error but IoError. -/
theorem runJob_error {j : Job} {steps : List SeqStep} {s t : State} {e : Error} (hb : s.busy = true)
    (h : runJob j steps s = .next t) (ht : t.responses = s.responses ++ [.error e]) : e = .ioError := by
  obtain ⟨u, n, sent, hp, -, hend⟩ := runScript_next (s := { s with job := some j, script := steps, inFlight := [] }) hb h
  have hresp : u.responses = s.responses := hp.responses
  have hjob : u.job = some j := hp.job
  rcases hend with ⟨rfl, -⟩ | ⟨-, x, rest, -, -, rfl⟩ | ⟨rfl, -⟩
  case inl => cases j <;> simp [sequenceDone, hjob, hresp] at ht
  case inr.inl => cases j <;> simpa [sequenceFailed, hjob, hresp, eq_comm] using ht
  case inr.inr => simp [hresp] at ht

/-- The response a request gives is the one found at the end of the list. -/
theorem response_eq_of_responses {r r' : Response} {s s' : State} (hs : s'.responses = s.responses)
    (h : (giveResponse r s').responses = s.responses ++ [r']) : r = r' := by
  rw [giveResponse_responses, hs] at h
  exact List.singleton_injective (List.append_cancel_left h)

/-- R161 to R168: an error is answered only for its cause, and every error but IoError changes nothing besides. -/
theorem exec_error {i : Instr} {s t : State} {e : Error} (hi : i.stream = .host) (h : exec i s = .next t)
    (ht : t.responses = s.responses ++ [.error e]) :
    ErrorCause s i e ∧ (e ≠ .ioError → t = answered (.error e) s) := by
  obtain ⟨-, hr⟩ := exec_request hi h
  cases hr
  case gateClosed hc hg =>
    cases response_eq_of_responses rfl ht
    exact ⟨.inl ⟨hg, not_usable_of_closed hc⟩, fun _ => rfl⟩
  case constructNotFresh hf =>
    cases response_eq_of_responses rfl ht
    exact ⟨.inr (.inl ⟨⟨_, _, _, _, rfl⟩, (not_fresh_iff s).mp hf⟩), fun _ => rfl⟩
  case disposeUninitialized hl =>
    cases response_eq_of_responses rfl ht
    exact ⟨.inr (.inr ⟨rfl, hl⟩), fun _ => rfl⟩
  case illegal =>
    cases response_eq_of_responses rfl ht
    exact ⟨⟨_, rfl⟩, fun _ => rfl⟩
  case constructBadModel hm =>
    cases response_eq_of_responses rfl ht
    obtain rfl := (modelOfCode_eq_none_iff _).mp hm
    exact ⟨⟨_, _, _, rfl⟩, fun _ => rfl⟩
  case constructNoTransport =>
    cases response_eq_of_responses rfl ht
    exact ⟨.inl ⟨_, _, _, rfl⟩, fun _ => rfl⟩
  case loadInvalid hinvalid =>
    cases response_eq_of_responses rfl ht
    exact ⟨.inr ⟨_, _, _, _, rfl, hinvalid⟩, fun _ => rfl⟩
  case loadOutside hs _ hm hout =>
    cases response_eq_of_responses rfl ht
    exact ⟨⟨_, hm, .inr ⟨_, _, _, _, _, rfl, hs, (windowOutside_iff _ _ _ _).mp hout⟩⟩, fun _ => rfl⟩
  case getpxOutside hm hout =>
    cases response_eq_of_responses rfl ht
    exact ⟨⟨_, hm, .inl ⟨_, _, .inl rfl, (inBounds_eq_false_iff _ _ _).mp hout⟩⟩, fun _ => rfl⟩
  case setpxOutside hm hout =>
    cases response_eq_of_responses rfl ht
    exact ⟨⟨_, hm, .inl ⟨_, _, .inr ⟨_, rfl⟩, (inBounds_eq_false_iff _ _ _).mp hout⟩⟩, fun _ => rfl⟩
  case construct hj =>
    obtain rfl := runJob_error rfl hj ht
    exact ⟨.inl ⟨_, _, _, _, rfl⟩, fun hne => absurd rfl hne⟩
  case setactive hj =>
    obtain rfl := runJob_error rfl hj ht
    exact ⟨.inr (.inl ⟨_, rfl⟩), fun hne => absurd rfl hne⟩
  case setcontrast hj =>
    obtain rfl := runJob_error rfl hj ht
    exact ⟨.inr (.inr (.inl ⟨_, rfl⟩)), fun hne => absurd rfl hne⟩
  case render hj =>
    obtain rfl := runJob_error rfl hj ht
    exact ⟨.inr (.inr (.inr (.inl rfl))), fun hne => absurd rfl hne⟩
  case dispose hj =>
    obtain rfl := runJob_error rfl hj ht
    exact ⟨.inr (.inr (.inr (.inr rfl))), fun hne => absurd rfl hne⟩
  -- The other ways answer OK.
  all_goals cases response_eq_of_responses rfl ht

/-! ### The admission table -/

/-- The eleven gated requests are no CONSTRUCT and no DISPOSE, so an open gate rules out the causes of UsageError. -/
theorem host_and_not_usageError_of_gated {i : Instr} {s : State} (hi : Gated i) (hu : Usable s) :
    i.stream = .host ∧ ¬ ErrorCause s i .usageError := by
  rcases hi with ⟨x, y, rfl⟩ | ⟨x, y, v, rfl⟩ | rfl | rfl | ⟨ox, oy, num, den, rfl⟩ | ⟨b, rfl⟩ | ⟨c, rfl⟩ | rfl | rfl |
    rfl | rfl
  all_goals exact ⟨rfl, by simp [ErrorCause, hu]⟩

theorem not_usageError_of_fresh {s : State} (hf : s.life = .uninitialized ∧ s.initFailed = false) (model : BitVec 2)
    (power : PowerMode) (tp : Bool) (addr : BusAddr) :
    ¬ ErrorCause s (.reqConstruct model power tp addr) .usageError := by
  simp [ErrorCause, Gated, hf]

theorem not_usageError_of_dispose {s : State} (hu : Usable s) : ¬ ErrorCause s .reqDispose .usageError := by
  have hl : s.life ≠ .uninitialized := by rcases hu with h | h <;> simp [h]
  simp [ErrorCause, Gated, hl]

/-! ### A transport that never answers -/

/-- R178: a busy block whose transaction gets no answer steps to the state it is in. -/
theorem step_silent {s : State} (hb : s.busy = true) (hw : s.inFlight ≠ []) (hs : Silent s.transportIn)
    (hreset : ∀ rest, s.hostIn ≠ .reset :: rest) (hsurface : ∀ f rest, s.hostIn ≠ .surface f :: rest) :
    step s = .next s := by
  have hmove : stepBlock s = .next s := by
    rw [stepBlock, if_pos hb]
    cases hf : s.inFlight with
    | nil => exact absurd hf hw
    | cons t ts => exact resume_silent hw hb hs
  rw [step_move hreset hsurface, hmove, andThen]
  rcases serveResetAtResponse_cases s s with ⟨hsame, -⟩ | ⟨rest, -, hidle, -⟩
  · rw [hsame]
  · rw [hb] at hidle
    cases hidle

/-! ### The obligations -/

/-- Settles O21: the UsageError cells are the first check of each request, and in the ok cells no cause of UsageError is
present. -/
theorem admissionTable : Obligations.AdmissionTable := by
  refine fun s hb => ⟨fun i hi => ⟨exec_gated_of_not_usable hb hi, fun hu t h ht => ?gated⟩,
    fun model power tp addr => ⟨fun hf => exec_construct_of_not_fresh hb hf model power tp addr, fun hf t h ht => ?construct⟩,
    exec_dispose_uninitialized hb, exec_dispose_disposed hb, fun hu t h ht => ?dispose⟩
  case gated =>
    obtain ⟨hhost, hno⟩ := host_and_not_usageError_of_gated hi hu
    exact hno (exec_error hhost h ht).1
  case construct => exact not_usageError_of_fresh hf model power tp addr (exec_error rfl h ht).1
  case dispose => exact not_usageError_of_dispose hu (exec_error rfl h ht).1

/-- Settles O25: the model check comes before the transport's, and code 3 is the only code that fails it. -/
theorem configErrorCause : Obligations.ConfigErrorCause := by
  refine ⟨fun s power tp addr hb hlife hinit => exec_construct_unknownModel hb hlife hinit power tp addr,
    fun i s t hi h ht => ?_⟩
  obtain ⟨hcause, hframe⟩ := exec_error hi h ht
  exact ⟨hcause, hframe (by decide)⟩

/-- Settles O26: each cause reaches its check, and `ErrorCause` leaves no other. -/
theorem invalidArgumentCauses : Obligations.InvalidArgumentCauses := by
  refine ⟨fun s d power addr hb hlife hinit => exec_construct_noTransport hb hlife hinit d power addr,
    fun s ox oy num den hb hu hinvalid => exec_load_invalid hb hu hinvalid, fun i s t hi h ht => ?_⟩
  obtain ⟨hcause, hframe⟩ := exec_error hi h ht
  exact ⟨hcause, hframe (by decide)⟩

/-- Settles O27: a coordinate or window outside on one of its four sides fails its check, and `ErrorCause` leaves no other
cause. -/
theorem outOfRangeCauses : Obligations.OutOfRangeCauses := by
  refine ⟨fun s d x y v hb hu hm hxy => ?pixel, fun s d f ox oy num den hb hu hm hs hden hwindow => ?load,
    fun i s t hi h ht => ?only⟩
  case pixel =>
    have hout : inBounds d x y = false := (inBounds_eq_false_iff d x y).mpr hxy
    exact ⟨exec_getpx_outside hb hu hm hout, exec_setpx_outside hb hu hm hout v⟩
  case load => exact exec_load_outside hb hu hm hs hden ((windowOutside_iff d f ox oy).mpr hwindow)
  case only =>
    obtain ⟨hcause, hframe⟩ := exec_error hi h ht
    exact ⟨hcause, hframe (by decide)⟩

/-- Settles O41, by induction on the number of steps, each of which leads back to the same state. -/
theorem silentTransportHangs : Obligations.SilentTransportHangs := by
  intro s hb hw hs hreset hsurface n
  induction n with
  | zero => rfl
  | succ n ih => exact (run_next (M := core) n (step_silent hb hw hs hreset hsurface)).trans ih

end Sys2Proof.Proofs
end

section
/-! The reset family (70_reset_and_hazards.md R180): a reset before anything else, and a reset before the response of the
request that a step takes or goes on with. -/

namespace Sys2Proof.Proofs

open Sys2Proof Sys2Proof.Machine Sys2Proof.Slice0

/-! ### What a reset leaves -/

theorem afterReset_blockReset (s : State) : AfterReset (blockReset s) := by
  simp [AfterReset]

theorem afterReset_withholdResponse (s u : State) : AfterReset (withholdResponse s u) :=
  afterReset_blockReset _

/-! ### The block's move under a reset asserted before the response -/

/-- An idle block's move is the request at the head of the host port. -/
theorem stepBlock_request {s : State} {q : List Byte} {rest : List HostEvent} {i : Instr} (hb : s.busy = false)
    (hin : s.hostIn = .request q :: rest) (hi : decode .host q = .instr i) :
    stepBlock s = exec i { s with hostIn := rest } := by
  simp [stepBlock, stepHost, hb, hin, hi]

/-- A move that takes no request leaves the events at the ports as they are. -/
theorem stepBlock_hostIn {s u : State} (hq : ∀ q rest, s.hostIn ≠ .request q :: rest) (h : stepBlock s = .next u) :
    u.hostIn = s.hostIn := by
  cases hb : s.busy with
  | true => exact stepBlock_busy_hostIn hb h
  | false =>
    rcases stepBlock_idle hb h with ⟨-, rfl⟩ | ⟨q, rest, -, hin, -⟩
    · rfl
    · exact absurd hin (hq q rest)

/-- A reset stands at the head of the host port once the block has moved to `u`: if `u` is idle the step serves it and gives no
response, else the request goes on first. -/
theorem step_of_resetAtResponse {s u : State} {rest : List HostEvent} (hr : ∀ r, s.hostIn ≠ .reset :: r)
    (hs : ∀ f r, s.hostIn ≠ .surface f :: r) (hmove : stepBlock s = .next u) (hu : u.hostIn = .resetAtResponse :: rest) :
    (u.busy = false → step s = .next (withholdResponse s { u with hostIn := rest })) ∧
    (u.busy = true → step s = .next u) := by
  have hstep : step s = .next (serveResetAtResponse s u) := by rw [step_move hr hs, hmove, andThen]
  rw [hstep]
  refine ⟨fun hb => ?idle, fun hb => ?busy⟩
  all_goals simp [serveResetAtResponse, hu, hb]

/-! ### The obligation -/

/-- Settles O44: a reset at the head of the host port is served before the block moves; one before a response meets the block's
move, which leaves it at the head of the host port. -/
theorem blockResetRestoresFresh : Obligations.BlockResetRestoresFresh := by
  refine ⟨fun s rest hin => ?reset, fun s u i q rest hb hin hi hexec => ?request, fun s u rest hin hmove => ?inProgress⟩
  case reset =>
    have hstep : step s = .next (blockReset { s with hostIn := rest }) := by simp [step, serveNext, hin]
    exact ⟨_, hstep, afterReset_blockReset _, rfl, rfl, rfl, rfl, rfl⟩
  case request =>
    have hmove : stepBlock s = .next u := (stepBlock_request hb hin hi).trans hexec
    obtain ⟨hu, hsurface, hframing⟩ := exec_request_ports (decodeRequest_instr hi).1 hexec
    obtain ⟨hidle, hbusy⟩ := step_of_resetAtResponse (by simp [hin]) (by simp [hin]) hmove hu
    exact ⟨fun hub => ⟨_, hidle hub, afterReset_withholdResponse _ _, rfl, rfl, rfl, hsurface, hframing⟩, hbusy⟩
  case inProgress =>
    have hu : u.hostIn = .resetAtResponse :: rest := (stepBlock_hostIn (by simp [hin]) hmove).trans hin
    obtain ⟨hidle, hbusy⟩ := step_of_resetAtResponse (by simp [hin]) (by simp [hin]) hmove hu
    exact ⟨fun hub => ⟨_, hidle hub, afterReset_withholdResponse _ _, rfl, rfl, rfl, rfl, rfl⟩, hbusy⟩

end Sys2Proof.Proofs
end

section
/-! The encoding of the three streams (30_encoding.md R61 to R71): decoding undoes encoding, what decodes has its encoding, and
the reader of a command stream. -/

namespace Sys2Proof.Proofs

open Sys2Proof Sys2Proof.Machine Sys2Proof.Slice0

/-! ### Decoding an encoding, stream by stream -/

theorem decode_encode_command {i : Instr} (hi : i.stream = .command) : decode .command (encode i) = .instr i := by
  cases i with
  | cmdResume | cmdEntireDisplayOn | cmdDisplayModeNormal | cmdDisplayModeInvert | cmdTurnOff | cmdTurnOn | cmdSetLowColumn
  | cmdSetHighColumn | cmdSetStartLine | cmdScanDirectionModeIncrement | cmdScanDirectionModeDecrement
  | cmdSegmentRemapModeOff | cmdSegmentRemapModeOn => exact decode_command_c0 rfl
  | cmdSetContrast a | cmdSetDisplayOffset a | cmdSetComPins a | cmdSetVoltageOutput a | cmdSetClockDivider a
  | cmdSetPrechargeMode a | cmdSetMultiplexer a | cmdSetMemoryMode a | cmdSetChargePumpMode a =>
    exact decode_command_c1 rfl a
  | cmdSetColumnAddressRange a b | cmdSetPageAddressRange a b => exact decode_command_c2 rfl a b
  | _ => cases hi

theorem isIllegalCode_iff (code : Byte) : isIllegalCode code = true ↔ code = 0x00 ∨ 0x0E ≤ code.toNat := by
  simp [isIllegalCode]

theorem decode_encode_host {i : Instr} (hi : i.stream = .host) (hw : i.wellFormed = true) :
    decode .host (encode i) = .instr i := by
  cases i with
  | reqConstruct model power tp addr =>
    obtain ⟨hmodel, hpower, htp⟩ := constructByte_fields model (powerBit power) tp
    rw [encode, decode_host_construct, hmodel, hpower, htp, addrByte_field, powerOfBit_powerBit]
  | reqGetpx x y =>
    show Decoded.instr (.reqGetpx (halfOfBytes (loByte x) (hiByte x)) (halfOfBytes (loByte y) (hiByte y))) = _
    rw [halfOfBytes_lo_hi, halfOfBytes_lo_hi]
  | reqSetpx x y v =>
    rw [encode, decode_host_setpx, halfOfBytes_lo_hi, halfOfBytes_lo_hi, bitByte_field]
  | reqLoad ox oy num den =>
    show Decoded.instr (.reqLoad (halfOfBytes (loByte ox) (hiByte ox)) (halfOfBytes (loByte oy) (hiByte oy))
      (halfOfBytes (loByte num) (hiByte num)) (halfOfBytes (loByte den) (hiByte den))) = _
    simp only [halfOfBytes_lo_hi]
  | reqSetactive b => rw [encode, decode_host_setactive, bitByte_field]
  | illegal code => exact decode_host_illegal ((isIllegalCode_iff code).mp hw)
  | reqSetcontrast _ | reqClear | reqPack | reqRender | reqDispose | reqGetcontrast | reqGetactive | reqGetgeom => rfl
  | _ => cases hi

/-- The bytes of a data transaction are the control byte 0x40 and as many data bytes as some model has (R64). -/
theorem decode_data_eq_instr_iff (bytes : List Byte) (i : Instr) :
    decode .data bytes = .instr i ↔
      ∃ data, bytes = 0x40 :: data ∧ isDataLength data.length = true ∧ i = .displayData data := by
  rcases bytes with _ | ⟨ctrl, data⟩
  · simp [decode, decodeData]
  · rw [decode, decodeData]
    constructor
    · intro h
      split at h
      · next hc => cases h; exact ⟨data, by rw [hc.1], hc.2, rfl⟩
      · cases h
    · rintro ⟨_, hb, hlen, rfl⟩
      obtain ⟨rfl, rfl⟩ := List.cons.inj hb
      rw [if_pos ⟨rfl, hlen⟩]

/-! ### What decodes has its encoding -/

/-- What a format says of its opcode's commands: their bytes are the opcode and the arguments, as given. -/
def FormatEncodes (op : Byte) : CommandFormat → Prop
  | .c0 i => encode i = [op] ∧ i.stream = .command ∧ i.wellFormed = true
  | .c1 make => ∀ a, encode (make a) = [op, a] ∧ (make a).stream = .command ∧ (make a).wellFormed = true
  | .c2 make => ∀ a b, encode (make a b) = [op, a, b] ∧ (make a b).stream = .command ∧ (make a b).wellFormed = true

theorem commandFormat_encodes {op : Byte} {format : CommandFormat} (h : commandFormat op = some format) :
    FormatEncodes op format := by
  unfold commandFormat at h
  repeat' rcases some_of_ite h with ⟨rfl, rfl⟩ | h
  all_goals simp [FormatEncodes, encode, Instr.stream, Instr.wellFormed] at h ⊢

/-- The three shapes of a command's bytes, by its opcode's format (R61). -/
theorem decode_command_eq_instr {bytes : List Byte} {i : Instr} (h : decode .command bytes = .instr i) :
    (∃ op, bytes = [op] ∧ commandFormat op = some (.c0 i)) ∨
    (∃ op make a, bytes = [op, a] ∧ commandFormat op = some (.c1 make) ∧ i = make a) ∨
    (∃ op make a b, bytes = [op, a, b] ∧ commandFormat op = some (.c2 make) ∧ i = make a b) := by
  rcases bytes with _ | ⟨op, args⟩
  · cases h
  · rw [decode, decodeCommand] at h
    cases hf : commandFormat op with
    | none => simp [hf] at h
    | some format =>
      cases format with
      | c0 j =>
        simp only [hf] at h
        split at h <;> cases h
        exact .inl ⟨op, rfl, hf⟩
      | c1 make =>
        simp only [hf] at h
        split at h <;> cases h
        exact .inr (.inl ⟨op, make, _, rfl, hf, rfl⟩)
      | c2 make =>
        simp only [hf] at h
        split at h <;> cases h
        exact .inr (.inr ⟨op, make, _, _, rfl, hf, rfl⟩)

theorem encode_of_decode_command {bytes : List Byte} {i : Instr} (h : decode .command bytes = .instr i) :
    encode i = bytes ∧ i.stream = .command ∧ i.wellFormed = true := by
  rcases decode_command_eq_instr h with ⟨op, rfl, hf⟩ | ⟨op, make, a, rfl, hf, rfl⟩ | ⟨op, make, a, b, rfl, hf, rfl⟩
  · exact commandFormat_encodes hf
  · exact commandFormat_encodes hf a
  · exact commandFormat_encodes hf a b

/-! ### The lengths of requests -/

/-- Bytes are a request exactly when their number is the one the code map gives their code (R68). -/
theorem decode_host_instr_iff (code : Byte) (ops : List Byte) :
    (∃ i, decode .host (code :: ops) = .instr i) ↔ (code :: ops).length = requestLength code := by
  unfold requestLength decode decodeRequest
  by_cases h1 : code = 0x01
  · rcases ops with _ | ⟨a, _ | ⟨b, _ | ⟨c, ops⟩⟩⟩ <;> simp [h1]
  by_cases h2 : code = 0x02
  · rcases ops with _ | ⟨a, _ | ⟨b, _ | ⟨c, _ | ⟨d, _ | ⟨e, ops⟩⟩⟩⟩⟩ <;> simp [h2]
  by_cases h3 : code = 0x03
  · rcases ops with _ | ⟨a, _ | ⟨b, _ | ⟨c, _ | ⟨d, _ | ⟨e, _ | ⟨f, ops⟩⟩⟩⟩⟩⟩ <;> simp [h3]
  by_cases h6 : code = 0x06
  · rcases ops with _ | ⟨a, _ | ⟨b, _ | ⟨c, _ | ⟨d, _ | ⟨e, _ | ⟨f, _ | ⟨g, _ | ⟨h, _ | ⟨k, ops⟩⟩⟩⟩⟩⟩⟩⟩⟩ <;> simp [h6]
  by_cases h7 : code = 0x07
  · rcases ops with _ | ⟨a, _ | ⟨b, ops⟩⟩ <;> simp [h7]
  by_cases h8 : code = 0x08
  · rcases ops with _ | ⟨a, _ | ⟨b, ops⟩⟩ <;> simp [h8]
  · simp only [h1, h2, h3, h6, h7, h8, if_false]
    rcases ops with _ | ⟨a, ops⟩
    · refine iff_of_true ?_ rfl
      repeat' split
      all_goals exact ⟨_, rfl⟩
    · simp

/-- The bytes column of R69, on each of the 256 codes. -/
theorem requestLength_eq_lookup : ∀ code : Byte, requestLength code =
    (([(0x01, 3), (0x02, 5), (0x03, 6), (0x06, 9), (0x07, 2), (0x08, 2)] : List (Byte × Nat)).lookup code).getD 1 := by
  decide

/-! ### The reader of a command stream -/

/-- The reader takes the bytes of one command from one opcode position to the next (R65). -/
theorem reader_reads_command {bytes : List Byte} {i : Instr} (h : decode .command bytes = .instr i) (done : List Instr) :
    bytes.foldl Reader.next (.atOpcode done) = .atOpcode (done ++ [i]) := by
  rcases decode_command_eq_instr h with ⟨op, rfl, hf⟩ | ⟨op, make, a, rfl, hf, rfl⟩ | ⟨op, make, a, b, rfl, hf, rfl⟩
  all_goals simp [Reader.next, Reader.finish, commandArgc, decodeCommand, hf]

theorem reader_reads_commands {commands : List Instr} (h : ∀ i ∈ commands, i.stream = .command) (done : List Instr) :
    (commands.flatMap encode).foldl Reader.next (.atOpcode done) = .atOpcode (done ++ commands) := by
  induction commands generalizing done with
  | nil => simp
  | cons i commands ih =>
    obtain ⟨hi, hrest⟩ := List.forall_mem_cons.mp h
    rw [List.flatMap_cons, List.foldl_append, reader_reads_command (decode_encode_command hi), ih hrest,
      List.append_assoc, List.singleton_append]

/-- A reader that has refused a byte reads nothing more (R66). -/
theorem reader_refused (done : List Instr) (b : Byte) (rest : List Byte) :
    rest.foldl Reader.next (.refused done b) = .refused done b := by
  induction rest with
  | nil => rfl
  | cons c rest ih => exact ih

theorem commandArgc_of_notMem : ∀ b : Byte, b ∉ argcTable.map Prod.fst → commandArgc b = none := by decide

/-! ### The obligations -/

/-- Settles O1, stream by stream: the fields of each operand byte are the ones its decoder reads. -/
theorem decodeOfEncode : Obligations.DecodeOfEncode := by
  intro i hw
  cases hs : i.stream with
  | command => exact decode_encode_command hs
  | host => exact decode_encode_host hs hw
  | data =>
    cases i with
    | displayData data => exact (decode_data_eq_instr_iff _ _).mpr ⟨data, rfl, hw, rfl⟩
    | _ => cases hs

/-- Settles O2: a command's format and the data transaction's form fix the bytes, and a request's canonical bytes decode to it. -/
theorem encodeOfDecode : Obligations.EncodeOfDecode := by
  refine ⟨fun bytes i h => encode_of_decode_command h, fun bytes i h => ?data, fun bytes i h => ?host⟩
  case data =>
    obtain ⟨data, rfl, hlen, rfl⟩ := (decode_data_eq_instr_iff bytes i).mp h
    exact ⟨rfl, rfl, hlen⟩
  case host =>
    obtain ⟨hs, hw, hlen⟩ := decodeRequest_instr h
    exact ⟨hs, hw, hlen, decode_encode_host hs hw⟩

/-- Settles O4: the decoder asks for the length that the code map gives, which is R69's column. -/
theorem requestLengthsExact : Obligations.RequestLengthsExact := by
  intro code ops
  rw [← requestLength_eq_lookup]
  exact decode_host_instr_iff code ops

/-- Settles O6, by induction on the commands: each is read from one opcode position to the next. -/
theorem readerReadsCommandStream : Obligations.ReaderReadsCommandStream :=
  fun _ h => reader_reads_commands h []

/-- Settles O7: after whole commands the reader is at an opcode position, where it refuses the byte, and then for good. -/
theorem readerRefusesForeignByte : Obligations.ReaderRefusesForeignByte := by
  intro commands b rest h hb
  have hnext : Reader.next (.atOpcode commands) b = .refused commands b := by
    simp only [Reader.next, commandArgc_of_notMem b hb]
  rw [readCommands_append, readerReadsCommandStream commands h, List.foldl_cons, hnext, reader_refused]

/-- Settles O8: each word is the encoding of its instruction. -/
theorem writtenOutWordsDecode : Obligations.WrittenOutWordsDecode := by
  unfold Obligations.WrittenOutWordsDecode
  decide

end Sys2Proof.Proofs
end

section
/-! The framebuffer requests on a usable block (40_framebuffer.md R80 to R86), and the surface port (20_memory.md R47). -/

namespace Sys2Proof.Proofs

open Sys2Proof Sys2Proof.Machine Sys2Proof.Slice0

/-! ### Coordinates -/

/-- A coordinate inside a model is its own 16-bit operand, read as a signed number (30_encoding.md R70). -/
theorem toInt_ofNat_of_lt {n : Nat} (h : n < 32768) : (BitVec.ofNat 16 n).toInt = n := by
  rw [BitVec.toInt_ofNat', Int.bmod_eq_of_le] <;> omega

theorem width_le (d : DisplayModel) : width d ≤ 128 := by cases d <;> decide

theorem height_le (d : DisplayModel) : height d ≤ 64 := by cases d <;> decide

section Coordinates

variable {d : DisplayModel} {x y : Nat} (hx : x < width d) (hy : y < height d)

include hx hy

theorem toInt_coordinates : (BitVec.ofNat 16 x).toInt = x ∧ (BitVec.ofNat 16 y).toInt = y := by
  have hw := width_le d
  have hh := height_le d
  exact ⟨toInt_ofNat_of_lt (by omega), toInt_ofNat_of_lt (by omega)⟩

theorem inBounds_ofNat : inBounds d (BitVec.ofNat 16 x) (BitVec.ofNat 16 y) = true := by
  obtain ⟨hxi, hyi⟩ := toInt_coordinates hx hy
  rw [inBounds_iff, hxi, hyi]
  omega

theorem pixelIndex_ofNat : pixelIndex d (BitVec.ofNat 16 x) (BitVec.ofNat 16 y) = xlate d x y := by
  obtain ⟨hxi, hyi⟩ := toInt_coordinates hx hy
  rw [pixelIndex, hxi, hyi, Int.toNat_natCast, Int.toNat_natCast]

end Coordinates

/-- Two coordinate pairs inside the model with one linear index are the same (20_memory.md R42). -/
theorem xlate_inj {d : DisplayModel} {x y x' y' : Nat} (hx : x < width d) (hx' : x' < width d)
    (h : xlate d x' y' = xlate d x y) : x' = x ∧ y' = y :=
  ⟨by rw [← pixelX_xlate hx' y', h, pixelX_xlate hx y], by rw [← pixelY_xlate hx' y', h, pixelY_xlate hx y]⟩

/-! ### The requests, their checks passed -/

section Usable

variable {s : State} (hb : s.busy = false) (hu : Usable s)

include hb hu

theorem exec_getpx_inside {d : DisplayModel} {m : Memory} {x y : Half} (hd : s.model = some d) (hm : s.fb = some m)
    (hin : inBounds d x y = true) :
    exec (.reqGetpx x y) s = .next (answered (.ok [bitByte (readBit m (pixelIndex d x y))]) s) := by
  have hd' : (accepted s).model = some d := hd
  have hm' : (accepted s).fb = some m := hm
  rw [exec, execGetpx, accept_gate_of_usable hb hu, withModel_some hd', if_pos hin, withFb_some hm', respond_accepted]

theorem exec_setpx_inside {d : DisplayModel} {m : Memory} {x y : Half} (hd : s.model = some d) (hm : s.fb = some m)
    (hin : inBounds d x y = true) (v : Bool) :
    exec (.reqSetpx x y v) s =
      .next (answered (.ok []) { s with fb := some (writeBit m (pixelIndex d x y) v) }) := by
  have hd' : (accepted s).model = some d := hd
  have hm' : (accepted s).fb = some m := hm
  rw [exec, execSetpx, accept_gate_of_usable hb hu, withModel_some hd', if_pos hin, withFb_some hm']
  rfl

theorem exec_clear_usable : exec .reqClear s = .next (answered (.ok []) { s with fb := some clearMemory }) := by
  rw [exec, execClear, accept_gate_of_usable hb hu]
  rfl

theorem exec_pack_usable {d : DisplayModel} {m : Memory} (hd : s.model = some d) (hm : s.fb = some m) :
    exec .reqPack s = .next (answered (.ok (packedImage d m)) s) := by
  have hd' : (accepted s).model = some d := hd
  have hm' : (accepted s).fb = some m := hm
  rw [exec, execPack, accept_gate_of_usable hb hu, withModel_some hd', withFb_some hm', memRead_all, respond_accepted]

theorem exec_load_inside {d : DisplayModel} {f : Surface} {ox oy num den : Half} (hd : s.model = some d)
    (hs : s.surface = some f) (hden : den ≠ 0) (hin : windowOutside d f ox oy = false) :
    exec (.reqLoad ox oy num den) s =
      .next (answered (.ok []) { s with fb := some (memoryOfBits (dataLength d) (loadBit d f ox oy num den)) }) := by
  have hd' : (accepted s).model = some d := hd
  rw [exec, execLoad, accept_gate_of_usable hb hu, accepted_surface, hs]
  simp only [hden, if_false, withModel_some hd', hin, Bool.false_eq_true]
  rfl

end Usable

theorem windowOutside_eq_false_iff (d : DisplayModel) (f : Surface) (ox oy : Half) :
    windowOutside d f ox oy = false ↔
      0 ≤ ox.toInt ∧ 0 ≤ oy.toInt ∧ ox.toInt + width d ≤ f.sw ∧ oy.toInt + height d ≤ f.sh := by
  rw [← Bool.not_eq_true, windowOutside_iff]
  omega

/-- LOAD gives pixel (px, py) of the framebuffer its window pixel, lit or not (R85): `xlate` is undone in `loadBit`. -/
theorem readBit_loaded {d : DisplayModel} {px py : Nat} (hx : px < width d) (hy : py < height d) (f : Surface)
    (ox oy num den : Half) :
    readBit (memoryOfBits (dataLength d) (loadBit d f ox oy num den)) (xlate d px py) =
      lit (surfRead f (ox.toInt.toNat + px) (oy.toInt.toNat + py)) num den := by
  rw [readBit_memoryOfBits _ _ (by rw [eight_dataLength]; exact xlate_lt hx hy), loadBit, pixelX_xlate hx, pixelY_xlate hx]

/-! ### The surface port -/

/-- R47: the rows of a surface do not overlap, so an index tells its coordinates. -/
theorem surface_index_inj {sw sx sy sx' sy' : Nat} (hx : sx < sw) (hx' : sx' < sw) (h : sy' * sw + sx' = sy * sw + sx) :
    sx' = sx ∧ sy' = sy := by
  have hmod (x y : Nat) (hx : x < sw) : (y * sw + x) % sw = x := by
    rw [Nat.mul_add_mod_self_right, Nat.mod_eq_of_lt hx]
  have hx0 : sx' = sx := by rw [← hmod sx' sy' hx', h, hmod sx sy hx]
  subst hx0
  exact ⟨rfl, Nat.eq_of_mul_eq_mul_right (Nat.zero_lt_of_lt hx) (Nat.add_right_cancel h)⟩

/-- Of the pixels listed at an index the first counts. -/
theorem surfRead_first {f : Surface} {sx sy : Nat} {before rest : List (Nat × Rgb)} {pixel : Rgb}
    (h : f.pixels = before ++ (sy * f.sw + sx, pixel) :: rest) (hb : ∀ e ∈ before, e.1 ≠ sy * f.sw + sx) :
    surfRead f sx sy = pixel := by
  have hnone : before.find? (fun p => p.1 == sy * f.sw + sx) = none := by
    rw [List.find?_eq_none]
    exact fun e he => by simpa using hb e he
  rw [surfRead, h, List.find?_append, hnone]
  simp

theorem surfRead_unlisted {f : Surface} {sx sy : Nat} (h : ∀ e ∈ f.pixels, e.1 ≠ sy * f.sw + sx) : surfRead f sx sy = black := by
  have hnone : f.pixels.find? (fun p => p.1 == sy * f.sw + sx) = none := by
    rw [List.find?_eq_none]
    exact fun e he => by simpa using h e he
  rw [surfRead, hnone]
  rfl

/-! ### The obligations -/

/-- Settles O13: inside the model GETPX reads the bit at the pixel's linear index. -/
theorem getpxAnswersPixel : Obligations.GetpxAnswersPixel := by
  intro s d m x y hb hu hd hm hx hy
  rw [exec_getpx_inside hb hu hd hm (inBounds_ofNat hx hy), pixelIndex_ofNat hx hy, bitByte]

/-- Settles O14: inside the model SETPX writes the bit at the pixel's linear index, and a write keeps the other bits. -/
theorem setpxWritesOnePixel : Obligations.SetpxWritesOnePixel := by
  intro s d m x y v hb hu hd hm hwf hx hy
  refine ⟨writeBit m (xlate d x y) v, ?_, writeBit_wf hwf _ _, ?_, fun i hi => ?_⟩
  · rw [exec_setpx_inside hb hu hd hm (inBounds_ofNat hx hy), pixelIndex_ofNat hx hy]
  · rw [readBit_writeBit hwf, if_pos rfl]
  · rw [readBit_writeBit hwf, if_neg hi]

/-- Settles O15: SETPX then GETPX is a read after a write, and different pixels have different indexes. -/
theorem setThenGetReturnsValue : Obligations.SetThenGetReturnsValue := by
  intro s d m x y x' y' v hb hu hd hm hwf hx hy hx' hy'
  obtain ⟨m', hset, -, hsame, hother⟩ := setpxWritesOnePixel s d m x y v hb hu hd hm hwf hx hy
  have hread : readBit m' (xlate d x' y') = if x' = x ∧ y' = y then v else readBit m (xlate d x' y') := by
    split
    · next heq => rw [heq.1, heq.2, hsame]
    · next hne => exact hother _ fun h => hne (xlate_inj hx hx' h)
  refine ⟨_, hset, ?_⟩
  rw [← hread]
  exact getpxAnswersPixel _ d m' x' y' rfl hu hd rfl hx' hy'

/-- Settles O16: behind the open gate CLEAR writes the framebuffer whose every bit is 0. -/
theorem clearZeroesFramebuffer : Obligations.ClearZeroesFramebuffer := by
  refine ⟨rfl, fun s hb => ⟨fun hu => ?_, fun hu => exec_gated_of_not_usable hb (.inr (.inr (.inl rfl))) hu⟩⟩
  exact ⟨clearMemory, exec_clear_usable hb hu, clearMemory_wf, readBit_clearMemory⟩

/-- Settles O17: behind the open gate PACK answers the packed image. -/
theorem packAnswersImage : Obligations.PackAnswersImage := by
  refine ⟨rfl, fun s hb => ⟨fun d m hu hd hm => ?_, fun hu => exec_gated_of_not_usable hb (.inr (.inr (.inr (.inl rfl)))) hu⟩⟩
  exact ⟨packedImage d m, exec_pack_usable hb hu hd hm, packedImage_length d m, rfl, fun k hk => packedImage_data d m hk⟩

/-- Settles O18: with its checks passed LOAD writes each pixel's bit from the window pixel that `xlate` maps there. -/
theorem loadThresholdsWindow : Obligations.LoadThresholdsWindow := by
  intro s d f ox oy num den hb hu hd hs hden hox hoy hw hh
  have hin : windowOutside d f ox oy = false := (windowOutside_eq_false_iff d f ox oy).mpr ⟨hox, hoy, hw, hh⟩
  exact ⟨_, exec_load_inside hb hu hd hs hden hin, memoryOfBits_wf _ _,
    fun px py hx hy => readBit_loaded hx hy f ox oy num den⟩

/-- Settles O19: each check answers its error before the next is made. -/
theorem loadChecksInOrder : Obligations.LoadChecksInOrder := by
  intro s d ox oy num den hb hu hd
  refine ⟨fun hs => exec_load_invalid hb hu (.inl hs), fun f _ hden => exec_load_invalid hb hu (.inr hden),
    fun f hs hden hwindow => ?_⟩
  exact exec_load_outside hb hu hd hs hden ((windowOutside_iff d f ox oy).mpr hwindow)

/-- Settles O59: the index inside a row, the first listed pixel, and a step that serves a change of the port. -/
theorem surfacePort : Obligations.SurfacePort := by
  refine ⟨fun f sx sy hx _ => ⟨fun sx' sy' hx' h => surface_index_inj hx hx' h, fun before after pixel h hb => surfRead_first h hb,
    surfRead_unlisted⟩, fun s f rest h => ?_⟩
  simp [step, serveNext, h]

end Sys2Proof.Proofs
end

section
/-! The requests and the ends of their sequences (60_exceptions.md R160, R164, R168; 20_memory.md R53): a request answers at once,
or begins a sequence. -/

namespace Sys2Proof.Proofs

open Sys2Proof Sys2Proof.Machine Sys2Proof.Slice0

/-! ### The end of a sequence -/

/-- What a request writes after its last acknowledgement: DISPOSE ends the life of the block (41_sequencer.md R107). -/
def afterLast : Job → State → State
  | .dispose, s => { s with life := .disposed, txOpen := false }
  | _, s => s

/-- What a request writes when a transaction fails (60_exceptions.md R166). -/
def afterFailure : Job → State → State
  | .construct, s => constructFailed s
  | .dispose, s => { s with life := .disposed, txOpen := false }
  | _, s => s

theorem sequenceDone_eq {s : State} {j : Job} (h : s.job = some j) :
    sequenceDone s = giveResponse (.ok []) (afterLast j s) := by
  rw [sequenceDone, h]
  cases j <;> rfl

theorem sequenceFailed_eq {s : State} {j : Job} (h : s.job = some j) :
    sequenceFailed s = giveResponse (.error .ioError) (afterFailure j s) := by
  rw [sequenceFailed, h]
  cases j <;> rfl

@[simp] theorem afterLast_responses (j : Job) (s : State) : (afterLast j s).responses = s.responses := by cases j <;> rfl
@[simp] theorem afterLast_busLog (j : Job) (s : State) : (afterLast j s).busLog = s.busLog := by cases j <;> rfl
@[simp] theorem afterLast_transportIn (j : Job) (s : State) : (afterLast j s).transportIn = s.transportIn := by cases j <;> rfl
@[simp] theorem afterLast_initFailed (j : Job) (s : State) : (afterLast j s).initFailed = s.initFailed := by cases j <;> rfl
@[simp] theorem afterLast_model (j : Job) (s : State) : (afterLast j s).model = s.model := by cases j <;> rfl
@[simp] theorem afterLast_power (j : Job) (s : State) : (afterLast j s).power = s.power := by cases j <;> rfl
@[simp] theorem afterLast_busAddr (j : Job) (s : State) : (afterLast j s).busAddr = s.busAddr := by cases j <;> rfl
@[simp] theorem afterLast_contrast (j : Job) (s : State) : (afterLast j s).contrast = s.contrast := by cases j <;> rfl
@[simp] theorem afterLast_fb (j : Job) (s : State) : (afterLast j s).fb = s.fb := by cases j <;> rfl
@[simp] theorem afterLast_hostIn (j : Job) (s : State) : (afterLast j s).hostIn = s.hostIn := by cases j <;> rfl
@[simp] theorem afterLast_surface (j : Job) (s : State) : (afterLast j s).surface = s.surface := by cases j <;> rfl
@[simp] theorem afterLast_framing (j : Job) (s : State) : (afterLast j s).framing = s.framing := by cases j <;> rfl
@[simp] theorem afterLast_draws (j : Job) (s : State) : (afterLast j s).draws = s.draws := by cases j <;> rfl

@[simp] theorem afterFailure_responses (j : Job) (s : State) : (afterFailure j s).responses = s.responses := by cases j <;> rfl
@[simp] theorem afterFailure_busLog (j : Job) (s : State) : (afterFailure j s).busLog = s.busLog := by cases j <;> rfl
@[simp] theorem afterFailure_transportIn (j : Job) (s : State) : (afterFailure j s).transportIn = s.transportIn := by
  cases j <;> rfl
@[simp] theorem afterFailure_hostIn (j : Job) (s : State) : (afterFailure j s).hostIn = s.hostIn := by cases j <;> rfl
@[simp] theorem afterFailure_surface (j : Job) (s : State) : (afterFailure j s).surface = s.surface := by cases j <;> rfl
@[simp] theorem afterFailure_framing (j : Job) (s : State) : (afterFailure j s).framing = s.framing := by cases j <;> rfl

theorem afterLast_of_ne {j : Job} (h : j ≠ .dispose) (s : State) : afterLast j s = s := by
  cases j with
  | dispose => exact absurd rfl h
  | construct | setActive | setContrast | render => rfl

theorem afterFailure_of_ne {j : Job} (hc : j ≠ .construct) (hd : j ≠ .dispose) (s : State) : afterFailure j s = s := by
  cases j with
  | construct => exact absurd rfl hc
  | dispose => exact absurd rfl hd
  | setActive | setContrast | render => rfl

/-! ### What a request does -/

/-- The requests that write FB (40_framebuffer.md R82, R83, R85). -/
def WritesFb (i : Instr) : Prop :=
  (∃ x y v, i = .reqSetpx x y v) ∨ i = .reqClear ∨ ∃ ox oy num den, i = .reqLoad ox oy num den

/-- Request i, presented in s, passes its checks and begins the sequence of job j in the state `base`: CONSTRUCT has then latched
its configuration (41_sequencer.md R101), the others have written nothing. -/
inductive Begins (s : State) : Instr → Job → State → Prop
  | construct {m p a d} : fresh s = true → modelOfCode m = some d →
      Begins s (.reqConstruct m p true a) .construct (latch d p a (accepted s))
  | setactive {b} : constructed s = true → Begins s (.reqSetactive b) (.setActive b) (accepted s)
  | setcontrast {c} : constructed s = true → Begins s (.reqSetcontrast c) (.setContrast c) (accepted s)
  | render : constructed s = true → Begins s .reqRender .render (accepted s)
  | dispose : constructed s = true → Begins s .reqDispose .dispose (accepted s)

/-- The state in which a sequence begins. -/
def begun (j : Job) (base : State) : State := { base with job := some j, script := jobSequence base j, inFlight := [] }

theorem runJob_eq (j : Job) (base : State) : runJob j (jobSequence base j) base = runScript (begun j base).script (begun j base) :=
  rfl

theorem jobSequence_render {s : State} {d : DisplayModel} {m : Memory} (hd : s.model = some d) (hm : s.fb = some m) :
    jobSequence s .render = renderSequence d (memRead d m 1 (dataLength d)) := by
  simp only [jobSequence, hd, hm]

/-- A request answers at once, with another error than IoError, if any, and but for FB changes nothing; or it begins its
sequence, and runs it as far as the transport answers. -/
theorem requestStep_cases {s t : State} {i : Instr} (h : RequestStep s i t) :
    (∃ r, r ≠ .error .ioError ∧ t = giveResponse r { s with fb := t.fb } ∧ (t.fb ≠ s.fb → WritesFb i)) ∨
    (∃ j base, Begins s i j base ∧ runScript (begun j base).script (begun j base) = .next t) := by
  cases h
  case construct hf hm hj => exact .inr ⟨_, _, .construct hf hm, hj⟩
  case setactive hc hj => exact .inr ⟨_, _, .setactive hc, hj⟩
  case setcontrast hc hj => exact .inr ⟨_, _, .setcontrast hc, hj⟩
  case render hc hd hm hj =>
    refine .inr ⟨_, _, .render hc, ?_⟩
    rw [← runJob_eq, jobSequence_render (s := accepted s) hd hm]
    exact hj
  case dispose hc hj => exact .inr ⟨_, _, .dispose hc, hj⟩
  case load => exact .inl ⟨_, by simp, rfl, fun _ => .inr (.inr ⟨_, _, _, _, rfl⟩)⟩
  case setpx => exact .inl ⟨_, by simp, rfl, fun _ => .inl ⟨_, _, _, rfl⟩⟩
  case clear => exact .inl ⟨_, by simp, rfl, fun _ => .inr (.inl rfl)⟩
  -- The others answer and write nothing.
  all_goals exact .inl ⟨_, by simp, rfl, fun hfb => absurd rfl hfb⟩

theorem emits_of_begins {s base : State} {i : Instr} {j : Job} (h : Begins s i j base) : EmitsTransactions i := by
  cases h <;> simp [EmitsTransactions]

theorem begun_busy {s base : State} {i : Instr} {j : Job} (h : Begins s i j base) : (begun j base).busy = true := by
  cases h <;> rfl

/-- A request begins its sequence with the ports as they were. -/
theorem begins_frame {s base : State} {i : Instr} {j : Job} (h : Begins s i j base) :
    base.responses = s.responses ∧ base.busLog = s.busLog ∧ base.transportIn = s.transportIn ∧ base.framing = s.framing ∧
      base.life = s.life ∧ base.initFailed = s.initFailed ∧ base.contrast = s.contrast := by
  cases h <;> exact ⟨rfl, rfl, rfl, rfl, rfl, rfl, rfl⟩

/-- But for a CONSTRUCT a request begins its sequence in the state that has accepted it. -/
theorem begins_base {s base : State} {i : Instr} {j : Job} (h : Begins s i j base) (hj : j ≠ .construct) :
    constructed s = true ∧ base = accepted s := by
  cases h
  case construct => exact absurd rfl hj
  all_goals exact ⟨‹_›, rfl⟩

/-- How a request that has begun its sequence can stand after the step that took it (R160): done with OK, failed with IoError, or
waiting. -/
theorem begins_cases {s base t : State} {i : Instr} {j : Job} (hi : Begins s i j base)
    (h : runScript (begun j base).script (begun j base) = .next t) :
    ∃ u n sent, Progress (begun j base) u n sent ∧
      ((t = giveResponse (.ok []) (afterLast j u) ∧ n = (jobSequence base j).length) ∨
       (n < (jobSequence base j).length ∧ ∃ x rest, u.transportIn = .fail :: rest ∧
         t = giveResponse (.error .ioError)
           (afterFailure j { u with transportIn := rest, busLog := u.busLog ++ [⟨x, false⟩] })) ∨
       (t = u ∧ (n < (jobSequence base j).length ∨ n = 0))) := by
  obtain ⟨u, n, sent, hp, -, hend⟩ := runScript_next (begun_busy hi) h
  have hjob : u.job = some j := hp.job
  refine ⟨u, n, sent, hp, ?_⟩
  rcases hend with ⟨rfl, hn⟩ | ⟨hn, x, rest, -, hfail, rfl⟩ | hwait
  · exact .inl ⟨sequenceDone_eq hjob, hn⟩
  · exact .inr (.inl ⟨hn, x, rest, hfail, sequenceFailed_eq (s := { u with transportIn := rest, busLog := _ }) hjob⟩)
  · exact .inr (.inr hwait)

/-! ### The obligations -/

/-- Settles O22: an error tells which check failed, and the checks come before every write. -/
theorem failedCheckHasNoEffect : Obligations.FailedCheckHasNoEffect :=
  fun _ _ _ _ hi he h ht => (exec_error hi h ht).2 he

theorem exec_busy {i : Instr} {s : State} (hi : i.stream = .host) (hb : s.busy = true) : exec i s = .refused .hostPortBusy := by
  cases i with
  | reqConstruct | reqGetpx | reqSetpx | reqClear | reqPack | reqLoad | reqSetactive | reqSetcontrast | reqRender | reqDispose
  | reqGetcontrast | reqGetactive | reqGetgeom | illegal =>
    rw [exec]
    exact accept_busy hb _
  | _ => cases hi

/-- Settles O23: a request answers at once, or its sequence ends with one response, or waits. -/
theorem oneResponsePerRequest : Obligations.OneResponsePerRequest := by
  refine ⟨fun i s t hi h => ?_, fun i s hi hb => exec_busy hi hb⟩
  rcases requestStep_cases (exec_request hi h).2 with ⟨r, -, ht, -⟩ | ⟨j, base, hbegins, hrun⟩
  · exact .inl ⟨by rw [ht]; rfl, r, by rw [ht]; rfl⟩
  · obtain ⟨hresp, -⟩ := begins_frame hbegins
    obtain ⟨u, n, sent, hp, hend⟩ := begins_cases hbegins hrun
    have hu : u.responses = s.responses := hp.responses.trans hresp
    rcases hend with ⟨rfl, -⟩ | ⟨-, x, rest, -, rfl⟩ | ⟨rfl, -⟩
    · exact .inl ⟨rfl, .ok [], by simp [hu]⟩
    · exact .inl ⟨rfl, .error .ioError, by simp [hu]⟩
    · exact .inr ⟨hp.busy.trans (begun_busy hbegins), hu⟩

/-- Settles O28: only a sequence answers IoError, at the failed transaction, which is the last one whose answer was taken. -/
theorem ioErrorCause : Obligations.IoErrorCause := by
  intro i s t hi h ht
  rcases requestStep_cases (exec_request hi h).2 with ⟨r, hr, heq, -⟩ | ⟨j, base, hbegins, hrun⟩
  · rw [heq] at ht
    exact absurd (response_eq_of_responses rfl ht) hr
  · obtain ⟨hresp, hlog, hanswers, -⟩ := begins_frame hbegins
    obtain ⟨u, n, sent, hp, hend⟩ := begins_cases hbegins hrun
    have hu : u.responses = s.responses := hp.responses.trans hresp
    rcases hend with ⟨rfl, -⟩ | ⟨-, x, rest, hfail, rfl⟩ | ⟨rfl, -⟩
    · simp [hu] at ht
    · refine ⟨emits_of_begins hbegins, sent, x, ?_, ?_⟩
      · simp only [giveResponse_busLog, afterFailure_busLog, hp.busLog, begun, hlog, ackedEvents_eq_allAcked]
      · have := hp.answers
        simp only [begun, hanswers, hfail] at this
        simpa [acks] using this
    · simp [hu] at ht

/-- Settles O56: a request that begins no sequence answers at once. -/
theorem nonEmittingRequestsFrame : Obligations.NonEmittingRequestsFrame := by
  intro i s t hi hno h
  rcases requestStep_cases (exec_request hi h).2 with ⟨r, -, ht, hfb⟩ | ⟨j, base, hbegins, -⟩
  · exact ⟨r, ht, hfb⟩
  · exact absurd (emits_of_begins hbegins) hno

/-- Settles O57: a request that fails its check changes nothing, and the sequences of the four write none of these, however they
end. -/
theorem sequencerRequestsKeepFramebuffer : Obligations.SequencerRequestsKeepFramebuffer := by
  intro i s t hfour h
  have hi : i.stream = .host := by rcases hfour with ⟨b, rfl⟩ | ⟨c, rfl⟩ | rfl | rfl <;> rfl
  rcases requestStep_cases (exec_request hi h).2 with ⟨r, -, ht, hfb⟩ | ⟨j, base, hbegins, hrun⟩
  · have hkeep : t.fb = s.fb := by
      by_contra hne
      have := hfb hne
      rcases hfour with ⟨b, rfl⟩ | ⟨c, rfl⟩ | rfl | rfl <;> simp [WritesFb] at this
    rw [ht]
    exact ⟨hkeep, rfl, rfl, rfl, rfl, rfl, rfl, rfl, rfl⟩
  · have hj : j ≠ .construct := by
      rintro rfl
      cases hbegins
      simp at hfour
    obtain ⟨-, rfl⟩ := begins_base hbegins hj
    obtain ⟨u, n, sent, hp, hend⟩ := begins_cases hbegins hrun
    have hu : u.fb = s.fb ∧ u.model = s.model ∧ u.power = s.power ∧ u.busAddr = s.busAddr ∧ u.initFailed = s.initFailed ∧
        u.surface = s.surface ∧ u.framing = s.framing ∧ u.hostIn = s.hostIn ∧ u.draws = s.draws :=
      ⟨hp.fb, hp.model, hp.power, hp.busAddr, hp.initFailed, hp.surface, hp.framing, hp.hostIn, hp.draws⟩
    rcases hend with ⟨rfl, -⟩ | ⟨-, x, rest, -, rfl⟩ | ⟨rfl, -⟩
    · simpa using hu
    · cases j with
      | construct => exact absurd rfl hj
      | setActive | setContrast | render | dispose => exact hu
    · exact hu

/-- Settles O24: the status codes are the table of R160. -/
theorem responseBytes_table : Obligations.ResponseBytes :=
  ⟨fun _ => rfl, rfl, rfl, rfl, rfl, rfl, rfl⟩

end Sys2Proof.Proofs
end

section
/-! The invariant (10_state.md R32): what a busy block presents next, every move it can make, and that each keeps the invariant;
and a request that an idle block takes. -/

namespace Sys2Proof.Proofs

open Sys2Proof Sys2Proof.Machine Sys2Proof.Slice0

/-! ### What is sound between requests -/

/-- The clauses of R32 about a block with no request in progress. -/
structure Settled (s : State) : Prop where
  constructed_holds : constructed s = true →
    s.initFailed = false ∧ s.txOpen = true ∧ Configured s ∧ s.contrast.isSome = true
  disposed_closed : s.life = .disposed → s.txOpen = false
  failed_dead : s.initFailed = true → s.life = .uninitialized ∧ s.txOpen = false
  fresh_closed : s.life = .uninitialized → s.initFailed = false → s.txOpen = false
  fb_wf : ∀ m, s.fb = some m → m.wf = true

theorem settled_of_idle {s : State} (hs : Inv s) (hb : s.busy = false) : Settled s :=
  ⟨hs.constructed_holds, hs.disposed_closed, hs.failed_dead, hs.fresh_closed hb, hs.fb_wf⟩

/-- A response ends the request, so nothing of R32 is left to say but what is sound between requests. -/
theorem inv_giveResponse {s : State} (h : Settled s) (r : Response) : Inv (giveResponse r s) where
  constructed_holds := h.constructed_holds
  disposed_closed := h.disposed_closed
  failed_dead := h.failed_dead
  fresh_closed _ := h.fresh_closed
  idle _ := ⟨rfl, rfl, rfl, rfl⟩
  working hb := by cases hb
  fb_wf := h.fb_wf

theorem configured_fb_wf {s : State} (h : Configured s) : ∀ m, s.fb = some m → m.wf = true := by
  obtain ⟨d, p, a, m, -, -, -, hm, hwf, -⟩ := h
  intro m' hm'
  rw [hm] at hm'
  cases hm'
  exact hwf

theorem life_of_constructed {s : State} (h : constructed s = true) : s.life ≠ .uninitialized ∧ s.life ≠ .disposed := by
  rcases (constructed_iff s).mp h with h | h <;> simp [h]

theorem settled_of_constructed {s : State} (hl : constructed s = true) (hi : s.initFailed = false) (ho : s.txOpen = true)
    (hc : Configured s) (hk : s.contrast.isSome = true) : Settled s where
  constructed_holds _ := ⟨hi, ho, hc, hk⟩
  disposed_closed h := absurd h (life_of_constructed hl).2
  failed_dead h := absurd (hi.symm.trans h) (by simp)
  fresh_closed h := absurd h (life_of_constructed hl).1
  fb_wf := configured_fb_wf hc

theorem settled_of_closed {s : State} (hl : constructed s = false) (ho : s.txOpen = false)
    (hi : s.initFailed = false ∨ s.life = .uninitialized) (hw : ∀ m, s.fb = some m → m.wf = true) : Settled s where
  constructed_holds h := absurd (hl.symm.trans h) (by simp)
  disposed_closed _ := ho
  failed_dead h := ⟨hi.resolve_left (by simp [h]), ho⟩
  fresh_closed _ _ := ho
  fb_wf := hw

theorem inv_blockReset (s : State) : Inv (blockReset s) where
  constructed_holds h := by cases h
  disposed_closed h := by cases h
  failed_dead h := by cases h
  fresh_closed _ _ _ := rfl
  idle _ := ⟨rfl, rfl, rfl, rfl⟩
  working h := by cases h
  fb_wf m h := by cases h

/-! ### What a busy block presents -/

/-- Every step of every sequence decodes, to a command that some request emits or to the data transaction (30_encoding.md R67). -/
theorem decodeStep_of_mem {s : State} {j : Job} {st : SeqStep} (hc : Configured s) (hst : st ∈ jobSequence s j) :
    ∃ i, decodeStep st = .instr i ∧ i ∉ neverEmitted := by
  obtain ⟨d, p, a, m, hd, hp, -, hm, -⟩ := hc
  cases j with
  | construct =>
    simp only [jobSequence, hd, hp, initSequence, List.cons_append, List.nil_append, List.mem_cons, List.not_mem_nil,
      or_false] at hst
    rcases hst with rfl | rfl | rfl | rfl | rfl | rfl | rfl | rfl | rfl | rfl | rfl | rfl | rfl | rfl | rfl | rfl
    all_goals exact ⟨_, rfl, by simp [neverEmitted]⟩
  | setActive b =>
    obtain rfl := List.mem_singleton.mp hst
    cases b
    all_goals exact ⟨_, rfl, by simp [neverEmitted]⟩
  | setContrast c =>
    obtain rfl := List.mem_singleton.mp hst
    exact ⟨_, rfl, by simp [neverEmitted]⟩
  | render =>
    simp only [jobSequence, hd, hm, renderSequence, List.mem_cons, List.not_mem_nil, or_false] at hst
    rcases hst with rfl | rfl | rfl
    · exact ⟨_, rfl, by simp [neverEmitted]⟩
    · exact ⟨_, rfl, by simp [neverEmitted]⟩
    · have hlen : isDataLength (memRead d m 1 (dataLength d)).length = true := by
        rw [memRead_data, List.length_map, List.length_range]
        cases d <;> rfl
      exact ⟨_, (decode_data_eq_instr_iff _ _).mpr ⟨_, rfl, hlen, rfl⟩, by simp [neverEmitted]⟩
  | dispose =>
    obtain rfl := List.mem_singleton.mp hst
    exact ⟨_, rfl, by simp [neverEmitted]⟩

/-- The state in which the transactions of the present step of job j are presented: the step is taken from the sequence. -/
def presenting (s : State) (j : Job) : State := { s with script := (jobSequence s j).drop (s.seqPC.toNat + 1) }

/-- A busy block presents the transactions `ts` of step `st` of job j to address a: the whole step, or what of it is still
unanswered. -/
structure Presents (s : State) (j : Job) (st : SeqStep) (a : BusAddr) (ts : List Txn) : Prop where
  inv : Inv s
  busy : s.busy = true
  job : s.job = some j
  jobState : JobState s j
  step : (jobSequence s j)[s.seqPC.toNat]? = some st
  busAddr : s.busAddr = some a
  unanswered : ts <:+ transactions s.framing a st

/-- A request in progress was admitted, and holds the configuration and the handle (R32). -/
theorem jobState_holds {s : State} {j : Job} (hs : Inv s) (hj : JobState s j) :
    s.initFailed = false ∧ s.txOpen = true ∧ Configured s := by
  cases j with
  | construct => exact ⟨hj.1, hj.2.1, hj.2.2.1⟩
  | setActive | setContrast | render | dispose =>
    obtain ⟨hi, ho, hc, -⟩ := hs.constructed_holds hj
    exact ⟨hi, ho, hc⟩

section Presents

variable {s : State} {j : Job} {st : SeqStep} {a : BusAddr} {ts : List Txn} (h : Presents s j st a ts)

include h

theorem Presents.initFailed : s.initFailed = false := (jobState_holds h.inv h.jobState).1

theorem Presents.txOpen : s.txOpen = true := (jobState_holds h.inv h.jobState).2.1

theorem Presents.configured : Configured s := (jobState_holds h.inv h.jobState).2.2

theorem Presents.latched : Latched (presenting s j) := by
  obtain ⟨d, p, a, m, hd, hp, -⟩ := h.configured
  intro _
  exact ⟨by simp [presenting, hd], by simp [presenting, hp]⟩

theorem Presents.mem : st ∈ jobSequence s j := List.mem_of_getElem? h.step

theorem Presents.lt : s.seqPC.toNat < (jobSequence s j).length := (List.getElem?_eq_some_iff.mp h.step).1

/-- `seqPC` counts at most 16 steps, so it does not wrap (10_state.md R27). -/
theorem Presents.seqPC_succ : (s.seqPC + 1).toNat = s.seqPC.toNat + 1 := by
  have hlt := h.lt
  have hlen : (jobSequence s j).length ≤ 16 := by
    rw [jobSequence_length h.configured]
    cases j <;> simp
  rw [BitVec.toNat_add]
  simp
  omega

end Presents

/-- A busy block with no transaction waiting runs the next step of its sequence. -/
theorem stepBlock_of_decodeStep {s : State} {st : SeqStep} {rest : List SeqStep} {i : Instr} (hb : s.busy = true)
    (hf : s.inFlight = []) (hscript : s.script = st :: rest) (hi : decodeStep st = .instr i) :
    stepBlock s = exec i { s with script := rest } := by
  simp only [stepBlock, hb, if_true, hf, stepSequencer, hscript, hi]

/-- A busy block's move is to present the transactions of its step: all of them where the step is new, else those still in
flight. -/
theorem stepBlock_presents {s : State} (hs : Inv s) (hb : s.busy = true) :
    ∃ j st a ts, Presents s j st a ts ∧ stepBlock s = transmit ts (presenting s j) ∧
      ((s.inFlight = [] ∧ ts = transactions s.framing a st ∧ s.script = st :: (presenting s j).script) ∨
        (s.inFlight ≠ [] ∧ ts = s.inFlight ∧ presenting s j = s)) := by
  obtain ⟨j, hj, hjs, hpos⟩ := hs.working hb
  obtain ⟨-, ho, hc⟩ := jobState_holds hs hjs
  rcases hpos with ⟨hf, hlt, hscript⟩ | ⟨hf, hscript, st, a, hst, ha, hsuffix⟩
  · obtain ⟨-, -, a, -, -, -, ha, -⟩ := id hc
    have hget := List.getElem?_eq_getElem hlt
    have hcons : s.script = (jobSequence s j)[s.seqPC.toNat] :: (presenting s j).script := by
      rw [hscript, List.drop_eq_getElem_cons hlt]; rfl
    obtain ⟨i, hi, -⟩ := decodeStep_of_mem hc (List.mem_of_getElem? hget)
    refine ⟨j, _, a, _, ⟨hs, hb, hj, hjs, hget, ha, List.suffix_rfl⟩, ?_, .inl ⟨hf, rfl, hcons⟩⟩
    rw [stepBlock_of_decodeStep hb hf hcons hi, exec_of_decodeStep hi]
    exact emit_open (s := presenting s j) ho ha _
  · have hsame : presenting s j = s := by rw [presenting, ← hscript]
    refine ⟨j, st, a, _, ⟨hs, hb, hj, hjs, hst, ha, hsuffix⟩, ?_, .inr ⟨hf, rfl, hsame⟩⟩
    rw [hsame, stepBlock, if_pos hb]
    split
    · next he => exact absurd he hf
    · rfl

/-- Presenting transactions with the configuration latched is no fault. -/
theorem transmit_total {s : State} (hl : Latched s) (ts : List Txn) : ∃ t, transmit ts s = .next t := by
  unfold transmit
  split
  · rcases present_cases ts s with ⟨rest, -, hp⟩ | ⟨pre, x, post, rest, -, -, hp⟩ | ⟨pre, x, post, rest, -, -, -, hp⟩
    · rw [hp]
      exact ⟨_, stepAcked_eq hl⟩
    · rw [hp]
      exact ⟨_, rfl⟩
    · rw [hp]
      exact ⟨_, rfl⟩
  · exact ⟨_, rfl⟩

/-! ### Each way a busy block's move can end keeps the invariant -/

/-- A state with a request in progress is sound if the request is where it should be. -/
theorem inv_of_working {s : State} {j : Job} (hb : s.busy = true) (hj : s.job = some j) (hjs : JobState s j)
    (hpos : Position s (jobSequence s j))
    (hc : constructed s = true → s.initFailed = false ∧ s.txOpen = true ∧ Configured s ∧ s.contrast.isSome = true) :
    Inv s := by
  have hall : s.life ≠ .disposed ∧ s.initFailed = false ∧ Configured s := by
    cases j with
    | construct =>
      obtain ⟨hi, -, hconf, hlife, -⟩ := hjs
      refine ⟨?_, hi, hconf⟩
      rw [hlife]
      split <;> simp
    | setActive | setContrast | render | dispose =>
      obtain ⟨hi, -, hconf, -⟩ := hc hjs
      exact ⟨(life_of_constructed hjs).2, hi, hconf⟩
  obtain ⟨hlife, hi, hconf⟩ := hall
  exact {
    constructed_holds := hc
    disposed_closed := fun h => absurd h hlife
    failed_dead := fun h => absurd (hi.symm.trans h) (by simp)
    fresh_closed := fun h => absurd (hb.symm.trans h) (by simp)
    idle := fun h => absurd (hb.symm.trans h) (by simp)
    working := fun _ => ⟨j, hj, hjs, hpos⟩
    fb_wf := configured_fb_wf hconf }

section Moves

variable {s : State} {j : Job} {st : SeqStep} {a : BusAddr} {ts : List Txn} (h : Presents s j st a ts)

include h

/-- What a CONSTRUCT in progress holds. -/
theorem Presents.construct (hj : j = .construct) :
    (s.life = if s.seqPC.toNat < 15 then .uninitialized else .inactive) ∧
      (10 < s.seqPC.toNat → s.contrast.isSome = true) ∧ s.seqPC.toNat < 16 := by
  subst hj
  have hlt := h.lt
  rw [jobSequence_length h.configured] at hlt
  obtain ⟨-, -, -, hlife, hcontrast⟩ := h.jobState
  exact ⟨hlife, hcontrast, hlt⟩

/-- Any other request holds what R32 says of a constructed block. -/
theorem Presents.constructed (hj : j ≠ .construct) : constructed s = true ∧ s.contrast.isSome = true := by
  have hc : Machine.constructed s = true := by
    cases j with
    | construct => exact absurd rfl hj
    | setActive | setContrast | render | dispose => exact h.jobState
  exact ⟨hc, (h.inv.constructed_holds hc).2.2.2⟩

/-- The last step, acknowledged. -/
theorem inv_sequenceDone (hlast : (presenting s j).script = []) (rest : List Answer) :
    Inv (sequenceDone (stepped (presenting s j) ts rest)) := by
  have hjob : (stepped (presenting s j) ts rest).job = some j := h.job
  have hi : s.initFailed = false := h.initFailed
  have ho : s.txOpen = true := h.txOpen
  have hc : Configured s := h.configured
  rw [sequenceDone_eq hjob]
  apply inv_giveResponse
  have hlen : (jobSequence s j).length ≤ s.seqPC.toNat + 1 := by simpa [presenting] using hlast
  cases hj : j with
  | construct =>
    subst hj
    obtain ⟨-, hcontrast, hlt⟩ := h.construct rfl
    have hlength : (jobSequence s .construct).length = 16 := jobSequence_length hc .construct
    have h15 : s.seqPC = 15 := by apply BitVec.eq_of_toNat_eq; simp; omega
    have hk : s.contrast.isSome = true := hcontrast (by simp [h15])
    refine settled_of_constructed ?_ hi ho hc ?_
    · simp [constructed, afterLast, stepped, presenting, h.job, lifeAfter, h15]
    · simpa [afterLast, stepped, presenting, h.job, contrastAfter, h15] using hk
  | setActive b =>
    subst hj
    obtain ⟨-, hk⟩ := h.constructed (by simp)
    refine settled_of_constructed ?_ hi ho hc ?_
    · cases b <;> simp [constructed, afterLast, stepped, presenting, h.job, lifeAfter]
    · simpa [afterLast, stepped, presenting, h.job, contrastAfter] using hk
  | setContrast c =>
    subst hj
    obtain ⟨hl, -⟩ := h.constructed (by simp)
    refine settled_of_constructed ?_ hi ho hc ?_
    · simpa [constructed, afterLast, stepped, presenting, h.job, lifeAfter] using hl
    · simp [afterLast, stepped, presenting, h.job, contrastAfter]
  | render =>
    subst hj
    obtain ⟨hl, hk⟩ := h.constructed (by simp)
    refine settled_of_constructed ?_ hi ho hc ?_
    · simpa [constructed, afterLast, stepped, presenting, h.job, lifeAfter] using hl
    · simpa [afterLast, stepped, presenting, h.job, contrastAfter] using hk
  | dispose => exact settled_of_closed rfl rfl (.inl hi) (configured_fb_wf hc)

omit h in
/-- `life` is Uninitialized up to step 14 of a CONSTRUCT, and the internal Inactive before step 15 (41_sequencer.md R101). -/
theorem lifeAfter_construct : ∀ k : BitVec 5, k.toNat + 1 < 16 →
    lifeAfter (some .construct) k (if k.toNat < 15 then .uninitialized else .inactive) =
      if k.toNat + 1 < 15 then .uninitialized else .inactive := by decide

/-- A step that is not the last, acknowledged: only CONSTRUCT and RENDER have one. -/
theorem inv_stepped (hnext : (presenting s j).script ≠ []) (rest : List Answer) :
    Inv (stepped (presenting s j) ts rest) := by
  have hi : s.initFailed = false := h.initFailed
  have ho : s.txOpen = true := h.txOpen
  have hc : Configured s := h.configured
  have hlen : s.seqPC.toNat + 1 < (jobSequence s j).length := by simpa [presenting] using hnext
  have hshort := jobSequence_length hc j
  have hpc := h.seqPC_succ
  have hpos : Position (stepped (presenting s j) ts rest) (jobSequence (stepped (presenting s j) ts rest) j) := by
    have hseq : jobSequence (stepped (presenting s j) ts rest) j = jobSequence s j := jobSequence_congr j rfl rfl rfl
    rw [hseq]
    refine .inl ⟨rfl, ?_, ?_⟩
    · show (s.seqPC + 1).toNat < _
      omega
    · show (jobSequence s j).drop (s.seqPC.toNat + 1) = (jobSequence s j).drop (s.seqPC + 1).toNat
      rw [hpc]
  cases hj : j with
  | construct =>
    subst hj
    obtain ⟨hlife, hcontrast, hlt⟩ := h.construct rfl
    have hlife' : (stepped (presenting s .construct) ts rest).life =
        if s.seqPC.toNat + 1 < 15 then .uninitialized else .inactive := by
      rw [← lifeAfter_construct s.seqPC (by simp only at hshort; omega), ← hlife]
      simp [stepped, presenting, h.job]
    have hcontrast' : 10 < s.seqPC.toNat + 1 → (stepped (presenting s .construct) ts rest).contrast.isSome = true := by
      intro hlt10
      simp only [stepped, presenting, h.job, contrastAfter]
      split
      · rfl
      · next hne => exact hcontrast (by have : s.seqPC.toNat ≠ 10 := fun e => hne (BitVec.eq_of_toNat_eq e); omega)
    refine inv_of_working h.busy h.job ⟨hi, ho, hc, ?_, ?_⟩ hpos ?_
    · show _ = if (s.seqPC + 1).toNat < 15 then _ else _
      rw [hpc, hlife']
    · show 10 < (s.seqPC + 1).toNat → _
      rwa [hpc]
    · intro hcons
      refine ⟨hi, ho, hc, hcontrast' ?_⟩
      by_contra hsmall
      exact (life_of_constructed hcons).1 (by rw [hlife', if_pos (by omega)])
  | render =>
    subst hj
    obtain ⟨hl, hk⟩ := h.constructed (by simp)
    have hlife' : (stepped (presenting s .render) ts rest).life = s.life := by
      simp [stepped, presenting, h.job, lifeAfter]
    have hl' : constructed (stepped (presenting s .render) ts rest) = true := by
      rw [constructed_iff, hlife', ← constructed_iff]
      exact hl
    refine inv_of_working h.busy h.job hl' hpos fun _ => ⟨hi, ho, hc, ?_⟩
    simpa [stepped, presenting, h.job, contrastAfter] using hk
  | setActive | setContrast | dispose =>
    subst hj
    simp only at hshort
    omega

/-- A failed transaction. -/
theorem inv_sequenceFailed (rest : List Answer) (log : List BusEvent) :
    Inv (sequenceFailed { presenting s j with transportIn := rest, busLog := log }) := by
  have hjob : ({ presenting s j with transportIn := rest, busLog := log } : State).job = some j := h.job
  have hi : s.initFailed = false := h.initFailed
  have ho : s.txOpen = true := h.txOpen
  have hc : Configured s := h.configured
  rw [sequenceFailed_eq hjob]
  apply inv_giveResponse
  cases hj : j with
  | construct =>
    refine settled_of_closed rfl rfl (.inr rfl) fun m hm => ?_
    have hm' : unspecifiedFb s.draws = some m := hm
    unfold unspecifiedFb at hm'
    split at hm' <;> cases hm'
    exact memoryOfBits_wf _ _
  | dispose => exact settled_of_closed rfl rfl (.inl hi) (configured_fb_wf hc)
  | setActive | setContrast | render =>
    subst hj
    obtain ⟨hl, hk⟩ := h.constructed (by simp)
    exact settled_of_constructed hl hi ho hc hk

/-- A transaction that gets no answer. -/
theorem inv_waiting {x : Txn} {pre post : List Txn} (hts : ts = pre ++ x :: post) (rest : List Answer) (log : List BusEvent) :
    Inv { presenting s j with busy := true, inFlight := x :: post, transportIn := rest, busLog := log } := by
  have hpos : Position { presenting s j with busy := true, inFlight := x :: post, transportIn := rest, busLog := log }
      (jobSequence { presenting s j with busy := true, inFlight := x :: post, transportIn := rest, busLog := log } j) := by
    have hseq : jobSequence { presenting s j with busy := true, inFlight := x :: post, transportIn := rest, busLog := log } j =
        jobSequence s j := jobSequence_congr j rfl rfl rfl
    rw [hseq]
    have hrest : x :: post <:+ ts := ⟨pre, hts.symm⟩
    exact .inr ⟨List.cons_ne_nil _ _, rfl, st, a, h.step, h.busAddr, hrest.trans h.unanswered⟩
  refine inv_of_working rfl h.job ?_ hpos h.inv.constructed_holds
  have hjs := h.jobState
  cases j <;> exact hjs

end Moves

/-- A busy block always has a move, and it keeps the invariant. -/
theorem stepBlock_busy_inv {s : State} (hs : Inv s) (hb : s.busy = true) : ∃ t, stepBlock s = .next t ∧ Inv t := by
  obtain ⟨j, st, a, ts, h, heq, -⟩ := stepBlock_presents hs hb
  obtain ⟨t, ht⟩ := transmit_total h.latched ts
  refine ⟨t, heq.trans ht, ?_⟩
  rcases transmit_cases ht with ⟨hclosed, -⟩ | ⟨-, ⟨rest, -, rfl⟩ | ⟨pre, x, post, rest, -, -, rfl⟩ |
    ⟨pre, x, post, rest, hts, -, -, rfl⟩⟩
  · exact absurd (h.txOpen.symm.trans hclosed) (by simp)
  · split
    · next hlast => exact inv_sequenceDone h (List.isEmpty_iff.mp hlast) rest
    · next hnext => exact inv_stepped h (by simpa using hnext) rest
  · exact inv_sequenceFailed h _ _
  · exact inv_waiting h hts _ _

/-! ### A sequence is a run of moves -/

/-- A busy block with no transaction waiting emits the next step of its sequence. -/
theorem stepBlock_eq_emit {s : State} {st : SeqStep} {rest : List SeqStep} (hs : Inv s) (hb : s.busy = true)
    (hf : s.inFlight = []) (hscript : s.script = st :: rest) : stepBlock s = emit st { s with script := rest } := by
  obtain ⟨j, st', a, ts, h, heq, hpos⟩ := stepBlock_presents hs hb
  rcases hpos with ⟨-, rfl, hcons⟩ | ⟨hne, -⟩
  · obtain ⟨rfl, rfl⟩ := List.cons.inj (hscript.symm.trans hcons)
    exact heq.trans (emit_open (s := presenting s j) h.txOpen h.busAddr st).symm
  · exact absurd hf hne

/-- A move that leaves the block busy with nothing in flight has taken the step it presented, and no other. -/
theorem transmit_script {ts : List Txn} {s t : State} (h : transmit ts s = .next t) (hb : t.busy = true) (hf : t.inFlight = []) :
    t.script = s.script := by
  rcases transmit_cases h with ⟨-, rfl⟩ | ⟨-, ⟨rest, -, rfl⟩ | ⟨pre, x, post, rest, -, -, rfl⟩ |
    ⟨pre, x, post, rest, -, -, -, rfl⟩⟩
  · rfl
  · split at hb
    · rw [sequenceDone_busy] at hb
      cases hb
    · next hne => rw [if_neg hne]; rfl
  · rw [sequenceFailed_busy] at hb
    cases hb
  · cases hf

/-- What every move of a busy block keeps, a whole sequence keeps: running the steps of a script is making the moves one by one,
until one ends the request or waits. -/
theorem runScript_induction {P : State → Prop}
    (hP : ∀ u v : State, Inv u → u.busy = true → stepBlock u = .next v → P u → P v) {s : State} (hs : Inv s) (hb : s.busy = true)
    (hf : s.inFlight = []) (h : P s) : ∃ t, runScript s.script s = .next t ∧ Inv t ∧ P t := by
  generalize hscript : s.script = steps
  induction steps generalizing s with
  | nil => exact ⟨s, rfl, hs, h⟩
  | cons st rest ih =>
    obtain ⟨v, hv, hinv⟩ := stepBlock_busy_inv hs hb
    have hPv := hP s v hs hb hv h
    rw [stepBlock_eq_emit hs hb hf hscript] at hv
    rw [runScript, hv, andThen]
    cases hgo : v.busy && v.inFlight.isEmpty with
    | false => exact ⟨v, rfl, hinv, hPv⟩
    | true =>
      obtain ⟨hvb, hvf⟩ := Bool.and_eq_true_iff.mp hgo
      have hvf : v.inFlight = [] := List.isEmpty_iff.mp hvf
      have hvs : v.script = rest := by
        rcases emit_next hv with ⟨-, rfl⟩ | ⟨-, a, -, ht⟩
        · rfl
        · exact transmit_script ht hvb hvf
      exact ih hinv hvb hvf hPv hvs

/-! ### A request taken by an idle block -/

theorem clearMemory_inside (d : DisplayModel) : insideModel d clearMemory := by simp [insideModel, clearMemory]

/-- A request that passes its checks begins its sequence in a sound state. -/
theorem inv_begun {s base : State} {i : Instr} {j : Job} (hs : Inv s) (h : Begins s i j base) : Inv (begun j base) := by
  have hlen (hc : Configured base) : 0 < (jobSequence base j).length := by
    rw [jobSequence_length hc]
    cases j <;> simp
  have hpos (hc : Configured base) (hpc : base.seqPC = 0) : Position (begun j base) (jobSequence (begun j base) j) := by
    have hseq : jobSequence (begun j base) j = jobSequence base j := jobSequence_congr j rfl rfl rfl
    have hpc' : (begun j base).seqPC = 0 := hpc
    rw [hseq]
    exact .inl ⟨rfl, by rw [hpc']; exact hlen hc, by rw [hpc']; rfl⟩
  cases h
  case construct m p a d hf hm =>
    obtain ⟨hl, hi⟩ := (fresh_iff s).mp hf
    have hc : Configured (latch d p a (accepted s)) :=
      ⟨d, p, a, clearMemory, rfl, rfl, rfl, rfl, clearMemory_wf, clearMemory_inside d⟩
    refine inv_of_working rfl rfl ⟨hi, rfl, hc, hl, fun h => absurd h (by simp [begun, latch])⟩ (hpos hc rfl) fun hcons => ?_
    exact absurd hl (life_of_constructed hcons).1
  all_goals
    next hcons =>
      have hc : Configured s := (hs.constructed_holds hcons).2.2.1
      exact inv_of_working rfl rfl hcons (hpos hc rfl) hs.constructed_holds

/-- A request that begins its sequence answers a sound next state, with all that every move keeps. -/
theorem begins_induction {P : State → Prop} {s base : State} {i : Instr} {j : Job}
    (hP : ∀ u v : State, Inv u → u.busy = true → stepBlock u = .next v → P u → P v) (hs : Inv s) (h : Begins s i j base)
    (h0 : P (begun j base)) : ∃ t, runScript (begun j base).script (begun j base) = .next t ∧ Inv t ∧ P t :=
  runScript_induction hP (inv_begun hs h) (begun_busy h) rfl h0

theorem begins_inv {s base : State} {i : Instr} {j : Job} (hs : Inv s) (h : Begins s i j base) :
    ∃ t, runScript (begun j base).script (begun j base) = .next t ∧ Inv t := by
  obtain ⟨t, ht, hinv, -⟩ := begins_induction (P := fun _ => True) (fun _ _ _ _ _ _ => trivial) hs h trivial
  exact ⟨t, ht, hinv⟩

/-- A framebuffer request writes FB in canonical form, inside the model. -/
theorem inv_of_writtenFb {s : State} {d : DisplayModel} {m : Memory} {r : Response} (hs : Inv s)
    (hc : constructed s = true) (hd : s.model = some d) (hwf : m.wf = true) (hin : insideModel d m) :
    Inv (giveResponse r { s with fb := some m }) := by
  obtain ⟨hi, ho, ⟨d', p, a, m', hd', hp, ha, -⟩, hk⟩ := hs.constructed_holds hc
  have hconf : Configured { s with fb := some m } := ⟨d, p, a, m, hd, hp, ha, rfl, hwf, hin⟩
  exact inv_giveResponse (settled_of_constructed (s := { s with fb := some m }) hc hi ho hconf hk) r

/-- Every request that an idle block takes keeps the invariant. -/
theorem requestStep_inv {s t : State} {i : Instr} (hs : Inv s) (hb : s.busy = false) (h : RequestStep s i t) : Inv t := by
  have hsettled := settled_of_idle hs hb
  rcases requestStep_cases h with ⟨r, -, ht, hfb⟩ | ⟨j, base, hbegins, hrun⟩
  · by_cases hsame : t.fb = s.fb
    · rw [ht, hsame]
      exact inv_giveResponse hsettled r
    · rcases hfb hsame with ⟨x, y, v, rfl⟩ | rfl | ⟨ox, oy, num, den, rfl⟩
      · cases h with
        | setpx hc hd hin hm =>
          obtain ⟨-, -, ⟨d', -, -, m', hd', -, -, hm', -, hinside⟩, -⟩ := hs.constructed_holds hc
          cases hd.symm.trans hd'
          cases hm.symm.trans hm'
          have hlt := eight_dataLength _ ▸ pixelIndex_lt hin
          exact inv_of_writtenFb hs hc hd (writeBit_wf (hs.fb_wf _ hm) _ _) (writeBit_inside hlt hinside)
        | gateClosed | setpxOutside => exact absurd rfl hsame
      · cases h with
        | clear hc =>
          obtain ⟨-, -, ⟨d, -, -, -, hd, -⟩, -⟩ := hs.constructed_holds hc
          exact inv_of_writtenFb hs hc hd clearMemory_wf (clearMemory_inside d)
        | gateClosed => exact absurd rfl hsame
      · cases h with
        | load hc _ _ hd _ => exact inv_of_writtenFb hs hc hd (memoryOfBits_wf _ _) (memoryOfBits_inside _ _)
        | gateClosed | loadInvalid | loadOutside => exact absurd rfl hsame
  · obtain ⟨t', ht', hinv⟩ := begins_inv hs hbegins
    cases hrun.symm.trans ht'
    exact hinv

/-- A CONSTRUCT of a known model without a transport fails its last check. -/
theorem exec_construct_withoutTransport {s : State} {model : BitVec 2} {d : DisplayModel} (hb : s.busy = false)
    (hf : fresh s = true) (hm : modelOfCode model = some d) (power : PowerMode) (addr : BusAddr) :
    exec (.reqConstruct model power false addr) s = .next (answered (.error .invalidArgument) s) := by
  have hf' : fresh (accepted s) = true := hf
  rw [exec, execConstruct, accept_ready hb, if_pos hf', hm]
  exact raise_accepted _ s

/-- A request whose checks pass begins its sequence; RENDER reads MODEL and FB before. -/
theorem exec_begins {s base : State} {i : Instr} {j : Job} (hb : s.busy = false) (h : Begins s i j base)
    (hread : j = .render → s.model.isSome = true ∧ s.fb.isSome = true) :
    exec i s = runScript (begun j base).script (begun j base) := by
  cases h with
  | construct hf hm =>
    have hf' : fresh (accepted s) = true := hf
    rw [exec, execConstruct, accept_ready hb, if_pos hf', hm]
    rfl
  | setactive hc => exact accept_gate_of_usable hb ((constructed_iff s).mp hc) _
  | setcontrast hc => exact accept_gate_of_usable hb ((constructed_iff s).mp hc) _
  | render hc =>
    obtain ⟨hd, hm⟩ := hread rfl
    obtain ⟨d, hd⟩ := Option.isSome_iff_exists.mp hd
    obtain ⟨m, hm⟩ := Option.isSome_iff_exists.mp hm
    have hd' : (accepted s).model = some d := hd
    have hm' : (accepted s).fb = some m := hm
    rw [exec, execRender, accept_gate_of_usable hb ((constructed_iff s).mp hc), withModel_some hd', withFb_some hm',
      ← runJob_eq, jobSequence_render hd' hm']
  | dispose hc =>
    rw [exec, execDispose, accept_ready hb, accepted_life]
    rcases (constructed_iff s).mp hc with hl | hl
    all_goals rw [hl]; rfl

/-- From a sound state every request answers a next state: the registers it reads hold values once its gate is open. -/
theorem exec_total {s : State} {i : Instr} (hs : Inv s) (hb : s.busy = false) (hi : i.stream = .host) :
    ∃ t, exec i s = .next t := by
  have hbegins {j : Job} {base : State} (h : Begins s i j base) : ∃ t, exec i s = .next t := by
    obtain ⟨t, ht, -⟩ := begins_inv hs h
    refine ⟨t, (exec_begins hb h fun hj => ?_).trans ht⟩
    obtain ⟨hc, -⟩ := begins_base h (by simp [hj])
    obtain ⟨-, -, ⟨d, -, -, m, hd, -, -, hm, -⟩, -⟩ := hs.constructed_holds hc
    exact ⟨by simp [hd], by simp [hm]⟩
  by_cases hg : Gated i
  · by_cases hu : Usable s
    · have hc : constructed s = true := (constructed_iff s).mpr hu
      obtain ⟨-, -, ⟨d, -, -, m, hd, -, -, hm, -⟩, hk⟩ := hs.constructed_holds hc
      rcases hg with ⟨x, y, rfl⟩ | ⟨x, y, v, rfl⟩ | rfl | rfl | ⟨ox, oy, num, den, rfl⟩ | ⟨b, rfl⟩ | ⟨c, rfl⟩ | rfl | rfl |
        rfl | rfl
      · cases hin : inBounds d x y with
        | true => exact ⟨_, exec_getpx_inside hb hu hd hm hin⟩
        | false => exact ⟨_, exec_getpx_outside hb hu hd hin⟩
      · cases hin : inBounds d x y with
        | true => exact ⟨_, exec_setpx_inside hb hu hd hm hin v⟩
        | false => exact ⟨_, exec_setpx_outside hb hu hd hin v⟩
      · exact ⟨_, exec_clear_usable hb hu⟩
      · exact ⟨_, exec_pack_usable hb hu hd hm⟩
      · by_cases hinvalid : s.surface = none ∨ den = 0
        · exact ⟨_, exec_load_invalid hb hu hinvalid⟩
        · obtain ⟨hsurface, hden⟩ := not_or.mp hinvalid
          obtain ⟨f, hf⟩ := Option.ne_none_iff_exists'.mp hsurface
          cases hwindow : windowOutside d f ox oy with
          | true => exact ⟨_, exec_load_outside hb hu hd hf hden hwindow⟩
          | false => exact ⟨_, exec_load_inside hb hu hd hf hden hwindow⟩
      · exact hbegins (.setactive hc)
      · exact hbegins (.setcontrast hc)
      · exact hbegins (.render hc)
      · obtain ⟨c, hk⟩ := Option.isSome_iff_exists.mp hk
        exact ⟨_, exec_getcontrast_usable hb hu hk⟩
      · exact ⟨_, exec_getactive_usable hb hu⟩
      · exact ⟨_, exec_getgeom_usable hb hu hd⟩
    · exact ⟨_, exec_gated_of_not_usable hb hg hu⟩
  · cases i with
    | reqConstruct model power tp addr =>
      by_cases hf : s.life = .uninitialized ∧ s.initFailed = false
      · have hfresh := (fresh_iff s).mpr hf
        cases hm : modelOfCode model with
        | none =>
          obtain rfl := (modelOfCode_eq_none_iff model).mp hm
          exact ⟨_, exec_construct_unknownModel hb hf.1 hf.2 power tp addr⟩
        | some d =>
          cases tp with
          | true => exact hbegins (.construct hfresh hm)
          | false => exact ⟨_, exec_construct_withoutTransport hb hfresh hm power addr⟩
      · exact ⟨_, exec_construct_of_not_fresh hb hf model power tp addr⟩
    | reqDispose =>
      cases hl : s.life with
      | uninitialized => exact ⟨_, exec_dispose_uninitialized hb hl⟩
      | disposed => exact ⟨_, exec_dispose_disposed hb hl⟩
      | active => exact hbegins (.dispose ((constructed_iff s).mpr (.inl hl)))
      | inactive => exact hbegins (.dispose ((constructed_iff s).mpr (.inr hl)))
    | illegal code => exact ⟨_, exec_illegal hb code⟩
    | reqGetpx | reqSetpx | reqClear | reqPack | reqLoad | reqSetactive | reqSetcontrast | reqRender | reqGetcontrast
    | reqGetactive | reqGetgeom => exact absurd (by simp [Gated]) hg
    | _ => cases hi

/-! ### The step -/

/-- The ports are no part of R32. -/
theorem inv_of_ports {s : State} (hs : Inv s) (events : List HostEvent) (f : Option Surface) :
    Inv { s with hostIn := events, surface := f } where
  constructed_holds := hs.constructed_holds
  disposed_closed := hs.disposed_closed
  failed_dead := hs.failed_dead
  fresh_closed := hs.fresh_closed
  idle := hs.idle
  working hb := by
    obtain ⟨j, hj, hjs, hpos⟩ := hs.working hb
    have hseq : jobSequence { s with hostIn := events, surface := f } j = jobSequence s j := jobSequence_congr j rfl rfl rfl
    refine ⟨j, hj, by cases j <;> exact hjs, ?_⟩
    rw [hseq]
    exact hpos
  fb_wf := hs.fb_wf

/-- Every move of the block keeps the invariant. -/
theorem stepBlock_inv {s u : State} (hs : Inv s) (h : stepBlock s = .next u) : Inv u := by
  cases hb : s.busy with
  | true =>
    obtain ⟨t, ht, hinv⟩ := stepBlock_busy_inv hs hb
    cases h.symm.trans ht
    exact hinv
  | false =>
    rcases stepBlock_idle hb h with ⟨-, rfl⟩ | ⟨q, rest, i, -, -, hi, -, hexec⟩
    · exact hs
    · exact requestStep_inv (inv_of_ports hs rest s.surface) hb (exec_request hi hexec).2

/-- A sound block's move is never a fault. -/
theorem stepBlock_ne_fault {s : State} (hs : Inv s) (r : Fault) : stepBlock s ≠ .fault r := by
  cases hb : s.busy with
  | true =>
    obtain ⟨t, ht, -⟩ := stepBlock_busy_inv hs hb
    rw [ht]
    simp
  | false =>
    rw [stepBlock, if_neg (by simp [hb])]
    unfold stepHost
    split
    · next q rest hq =>
      split
      · next i hi =>
        obtain ⟨t, ht⟩ := exec_total (inv_of_ports hs rest s.surface) hb (decodeRequest_instr hi).1
        intro hfault
        cases ht.symm.trans hfault
      · simp
    all_goals simp

/-! ### The obligations -/

/-- Settles O48: a reset and the ports' events leave a sound state, and so does each way a busy block's move can end, and every
request, whose sequence is a run of such moves. -/
theorem stepKeepsInvariant : Obligations.StepKeepsInvariant := by
  intro s t hs h
  rcases step_cases h with ⟨rest, -, rfl⟩ | ⟨f, rest, -, rfl⟩ | ⟨u, hu, ⟨rfl, -⟩ | ⟨rest, -, -, rfl⟩⟩
  · exact inv_blockReset _
  · exact inv_of_ports hs rest f
  · exact stepBlock_inv hs hu
  · exact inv_blockReset _

/-- Settles O49: a step faults only where the block's move does, and from a sound state that move answers a next state. -/
theorem noFaultFromInvariant : Obligations.NoFaultFromInvariant := by
  intro s r hs
  have hmove : andThen (stepBlock s) (fun t => .next (serveResetAtResponse s t)) ≠ .fault r := by
    cases hu : stepBlock s with
    | next u => simp [andThen]
    | fault r' => exact absurd hu (stepBlock_ne_fault hs r')
    | refused r' => simp [andThen]
  unfold step serveNext
  split
  · simp
  · simp
  all_goals exact hmove

/-- Settles O45: each line is the table's. -/
theorem resetColumn : Obligations.ResetColumn :=
  ⟨rfl, rfl, rfl, rfl, rfl, rfl, rfl, rfl, rfl, rfl⟩

/-- Settles O47: the state after reset is one that a block reset leaves. -/
theorem invariantAtReset : Obligations.InvariantAtReset := inv_blockReset State.reset

/-- Settles O46: an undisturbed step is the block's move, and the move runs what it fetches. -/
theorem stepRunsDecodedInstruction : Obligations.StepRunsDecodedInstruction := by
  refine ⟨fun s i q rest hb hin hnoreset hi => ?request, fun s i bytes rest hb hf hq hscript hi => ?command,
    fun s i data rest hb hf hq hscript hi => ?data⟩
  case request =>
    rw [step_move (by simp [hin]) (by simp [hin]), stepBlock_request hb hin hi]
    cases hu : exec i { s with hostIn := rest } with
    | fault r => rfl
    | refused r => rfl
    | next u =>
      have hport : u.hostIn = rest := (exec_request_ports (decodeRequest_instr hi).1 hu).hostIn
      rcases serveResetAtResponse_cases s u with ⟨hsame, -⟩ | ⟨r, hr, -⟩
      · rw [andThen, hsame]
      · exact absurd (hport.symm.trans hr) (hnoreset r)
  case command => exact (step_busy hq hb).trans (stepBlock_of_decodeStep hb hf hscript hi)
  case data => exact (step_busy hq hb).trans (stepBlock_of_decodeStep hb hf hscript hi)

end Sys2Proof.Proofs
end

section
/-! The sequencer requests (41_sequencer.md R100 to R107): what each sends, writes and answers when its transactions are
acknowledged, when one fails, and when one gets no answer. -/

namespace Sys2Proof.Proofs

open Sys2Proof Sys2Proof.Machine Sys2Proof.Slice0

/-! ### A sequence, under each way the transport can answer -/

section Begun

variable {j : Job} {base : State} {a : BusAddr} {txns : List Txn} {rest : List Answer} (hb : base.busy = true)
  (ho : base.txOpen = true) (ha : base.busAddr = some a) (hl : Latched (begun j base))
  (htxns : allTransactions base.framing a (jobSequence base j) = txns)

include hb ho ha hl htxns

theorem runScript_begun_acked (hne : jobSequence base j ≠ []) (h : base.transportIn = acks txns.length ++ rest) :
    runScript (begun j base).script (begun j base) = .next (answered (.ok []) (afterLast j { base with
      life := lifeAfterSteps (some j) (jobSequence base j).length base.seqPC base.life
      contrast := contrastAfterSteps (modelOf base) (powerOf base) (some j) (jobSequence base j).length base.seqPC base.contrast
      transportIn := rest
      busLog := base.busLog ++ allAcked txns })) := by
  subst htxns
  have hrun := runScript_acked (s := begun j base) (steps := (begun j base).script) hb ho ha hl hne h
  rw [sequenceDone_eq (j := j) rfl] at hrun
  rw [hrun]
  cases j <;> rfl

theorem runScript_begun_failed {k : Nat} (hk : k < txns.length) (h : base.transportIn = acks k ++ .fail :: rest) :
    ∃ n, n < (jobSequence base j).length ∧
      runScript (begun j base).script (begun j base) = .next (answered (.error .ioError) (afterFailure j { base with
        life := lifeAfterSteps (some j) n base.seqPC base.life
        contrast := contrastAfterSteps (modelOf base) (powerOf base) (some j) n base.seqPC base.contrast
        transportIn := rest
        busLog := base.busLog ++ allAcked (txns.take k) ++ [⟨txns[k], false⟩] })) := by
  subst htxns
  obtain ⟨n, left, flight, hn, hrun⟩ :=
    runScript_failed (s := begun j base) (steps := (begun j base).script) hb ho ha hl hk h
  refine ⟨n, hn, ?_⟩
  rw [sequenceFailed_eq (j := j) rfl] at hrun
  rw [hrun, List.append_assoc]
  cases j <;> rfl

theorem runScript_begun_waiting {k : Nat} (hk : k < txns.length) (h : base.transportIn = acks k ++ rest)
    (hs : NoAnswer rest) :
    ∃ n left flight, n < (jobSequence base j).length ∧
      (allTransactions base.framing a ((jobSequence base j).take n)).length ≤ k ∧
      k < (allTransactions base.framing a ((jobSequence base j).take (n + 1))).length ∧
      runScript (begun j base).script (begun j base) = .next { begun j base with
        life := lifeAfterSteps (some j) n base.seqPC base.life
        contrast := contrastAfterSteps (modelOf base) (powerOf base) (some j) n base.seqPC base.contrast
        seqPC := base.seqPC + BitVec.ofNat 5 n
        script := left
        inFlight := txns[k] :: flight
        transportIn := rest
        busLog := base.busLog ++ allAcked (txns.take k) } := by
  subst htxns
  exact runScript_waiting (s := begun j base) (steps := (begun j base).script) hb ho ha hl hk h hs

end Begun

/-! ### The requests of a constructed block -/

/-- RENDER writes no register (R106). -/
theorem render_registers (d : DisplayModel) (p : PowerMode) (l : Life) (c : Option Byte) (n : Nat) (k : BitVec 5) :
    lifeAfterSteps (some .render) n k l = l ∧ contrastAfterSteps d p (some .render) n k c = c := by
  induction n generalizing k with
  | zero => exact ⟨rfl, rfl⟩
  | succ n ih => exact ih (k + 1)

/-- Only the last step of a SETACTIVE, SETCONTRAST, RENDER or DISPOSE writes a register. -/
theorem registers_before_last {j : Job} {s : State} {n : Nat} (hj : j ≠ .construct) (hn : n < (jobSequence s j).length)
    (d : DisplayModel) (p : PowerMode) (k : BitVec 5) (l : Life) (c : Option Byte) :
    lifeAfterSteps (some j) n k l = l ∧ contrastAfterSteps d p (some j) n k c = c := by
  cases j with
  | construct => exact absurd rfl hj
  | setActive | setContrast | dispose =>
    obtain rfl : n = 0 := Nat.lt_one_iff.mp hn
    exact ⟨rfl, rfl⟩
  | render => exact render_registers d p l c n k

/-- R106: RENDER sends the two ranges and the data. -/
theorem allTransactions_render {s : State} {d : DisplayModel} {m : Memory} (hd : s.model = some d) (hm : s.fb = some m)
    (f : Framing) (a : BusAddr) :
    allTransactions f a (jobSequence s .render) = requestTxns f a d m .reqRender := by
  have hsplit (data : List Byte) : renderSequence d data =
      [[0x21, 0x00, BitVec.ofNat 8 (width d - 1)], [0x22, 0x00, BitVec.ofNat 8 (height d / 8 - 1)]].map commandStep ++
        [dataStep data] := rfl
  have hdata (data : List Byte) : allTransactions f a [dataStep data] = [⟨a, 0x40, data⟩] := by
    simp [transactions, dataStep]
  rw [jobSequence_render hd hm, memRead_data, hsplit, allTransactions, List.flatMap_append]
  exact congrArg₂ _ (allTransactions_commandSteps f a _) (hdata _)

/-- The four requests of a constructed block that begin a sequence, and what it sends. -/
theorem begins_of_usable {i : Instr} {s : State} (hu : Usable s)
    (hi : (∃ b, i = .reqSetactive b) ∨ (∃ c, i = .reqSetcontrast c) ∨ i = .reqRender ∨ i = .reqDispose) :
    ∃ j, j ≠ .construct ∧ (i ≠ .reqDispose → j ≠ .dispose) ∧ Begins s i j (accepted s) ∧
      ∀ f a d m, s.model = some d → s.fb = some m →
        allTransactions f a (jobSequence (accepted s) j) = requestTxns f a d m i := by
  have hc : constructed s = true := (constructed_iff s).mpr hu
  rcases hi with ⟨b, rfl⟩ | ⟨c, rfl⟩ | rfl | rfl
  · exact ⟨_, by simp, by simp, .setactive hc, fun f a _ _ _ _ => allTransactions_commandSteps f a [_]⟩
  · exact ⟨_, by simp, by simp, .setcontrast hc, fun f a _ _ _ _ => allTransactions_commandSteps f a [_]⟩
  · exact ⟨_, by simp, by simp, .render hc, fun f a d m hd hm => allTransactions_render (s := accepted s) hd hm f a⟩
  · exact ⟨_, by simp, by simp, .dispose hc, fun f a _ _ _ _ => allTransactions_commandSteps f a [_]⟩

theorem latched_of_ne_construct {j : Job} (hj : j ≠ .construct) (base : State) : Latched (begun j base) :=
  fun h => absurd (Option.some.inj h) hj

/-- A command of one byte is one transaction under both framings. -/
theorem transactions_oneByte (f : Framing) (a : BusAddr) (b : Byte) :
    allTransactions f a [commandStep [b]] = [⟨a, 0x00, [b]⟩] := by
  cases f <;> rfl

section Usable

variable {s : State} {i : Instr} {j : Job} {a : BusAddr} {txns : List Txn} {rest : List Answer} (hb : s.busy = false)
  (ho : s.txOpen = true) (ha : s.busAddr = some a) (hi : Begins s i j (accepted s)) (hj : j ≠ .construct)
  (hread : j = .render → s.model.isSome = true ∧ s.fb.isSome = true)
  (htxns : allTransactions s.framing a (jobSequence (accepted s) j) = txns)

include hb ho ha hi hj hread htxns

/-- A request of a constructed block, acknowledged throughout. -/
theorem exec_begins_acked (hne : jobSequence (accepted s) j ≠ []) (h : s.transportIn = acks txns.length ++ rest) :
    exec i s = .next (answered (.ok []) (afterLast j { s with
      life := lifeAfterSteps (some j) (jobSequence (accepted s) j).length 0 s.life
      contrast :=
        contrastAfterSteps (modelOf s) (powerOf s) (some j) (jobSequence (accepted s) j).length 0 s.contrast
      transportIn := rest
      busLog := s.busLog ++ allAcked txns })) := by
  rw [exec_begins hb hi hread,
    runScript_begun_acked (base := accepted s) rfl ho ha (latched_of_ne_construct hj _) htxns hne h]
  cases j <;> rfl

/-- Its transaction k fails: but for DISPOSE no register is written (60_exceptions.md R166). -/
theorem exec_begins_failed {k : Nat} (hk : k < txns.length) (h : s.transportIn = acks k ++ .fail :: rest) :
    exec i s = .next (answered (.error .ioError) (afterFailure j { s with
      transportIn := rest, busLog := s.busLog ++ allAcked (txns.take k) ++ [⟨txns[k], false⟩] })) := by
  obtain ⟨n, hn, hrun⟩ :=
    runScript_begun_failed (base := accepted s) rfl ho ha (latched_of_ne_construct hj _) htxns hk h
  obtain ⟨hlife, hcontrast⟩ :=
    registers_before_last hj hn (modelOf (accepted s)) (powerOf (accepted s)) (accepted s).seqPC s.life s.contrast
  rw [exec_begins hb hi hread, hrun, accepted_life, accepted_contrast, hlife, hcontrast]
  cases j with
  | construct => exact absurd rfl hj
  | setActive | setContrast | render | dispose => rfl

/-- Its transaction k gets no answer: it waits, and has written no register. -/
theorem exec_begins_waiting {k : Nat} (hk : k < txns.length) (h : s.transportIn = acks k ++ rest) (hs : NoAnswer rest) :
    ∃ pc left flight, exec i s = .next { s with
      busy := true, seqPC := pc, job := some j, script := left, inFlight := txns[k] :: flight, transportIn := rest,
      busLog := s.busLog ++ allAcked (txns.take k) } := by
  obtain ⟨n, left, flight, hn, -, -, hrun⟩ :=
    runScript_begun_waiting (base := accepted s) rfl ho ha (latched_of_ne_construct hj _) htxns hk h hs
  obtain ⟨hlife, hcontrast⟩ :=
    registers_before_last hj hn (modelOf (accepted s)) (powerOf (accepted s)) (accepted s).seqPC s.life s.contrast
  refine ⟨0 + BitVec.ofNat 5 n, left, flight, ?_⟩
  rw [exec_begins hb hi hread, hrun, accepted_life, accepted_contrast, hlife, hcontrast]
  rfl

end Usable

/-! ### CONSTRUCT -/

theorem begins_construct {s : State} (hlife : s.life = .uninitialized) (hinit : s.initFailed = false) (d : DisplayModel)
    (p : PowerMode) (a : BusAddr) :
    Begins s (.reqConstruct (codeOf d) p true a) .construct (latch d p a (accepted s)) :=
  .construct ((fresh_iff s).mpr ⟨hlife, hinit⟩) (modelOfCode_codeOf d)

theorem latched_latch (d : DisplayModel) (p : PowerMode) (a : BusAddr) (s : State) :
    Latched (begun .construct (latch d p a s)) :=
  fun _ => ⟨rfl, rfl⟩

theorem allTransactions_construct (f : Framing) (d : DisplayModel) (p : PowerMode) (a : BusAddr) :
    allTransactions f a (initSequence d p) = commandTxns a (payloads f (constructRow Config.memoryModeArg d p)) := by
  rw [initSequence_eq_constructRow, allTransactions_commandSteps]

/-- How many transactions the first n steps of R102 have, under each framing. -/
def constructSent : Framing → Nat → Nat
  | .perByte, n => ([1, 2, 2, 2, 1, 2, 2, 1, 1, 2, 2, 2, 2, 1, 1, 1].take n).sum
  | .perCommand, n => min n 16

theorem constructSent_eq (f : Framing) (d : DisplayModel) (p : PowerMode) (a : BusAddr) (n : Nat) :
    (allTransactions f a ((initSequence d p).take n)).length = constructSent f n := by
  have hlengths : (initSequence d p).map (fun st => (transactions f a st).length) =
      match f with
      | .perByte => [1, 2, 2, 2, 1, 2, 2, 1, 1, 2, 2, 2, 2, 1, 1, 1]
      | .perCommand => List.replicate 16 1 := by
    cases f <;> rfl
  rw [allTransactions, List.length_flatMap, List.map_take, hlengths]
  cases f with
  | perByte => rfl
  | perCommand =>
    show ((List.replicate 16 1).take n).sum = min n 16
    rw [List.take_replicate, List.sum_replicate, smul_eq_mul, mul_one]

/-- Where a CONSTRUCT stands that has sent k of its transactions, n whole steps: past step 10 if it has sent all of its
transactions, and past step 14 if it has sent all but the last of the sequence. -/
theorem construct_position {f : Framing} {k n : Nat} (hn : n < 16) (hlo : constructSent f n ≤ k)
    (hhi : k < constructSent f (n + 1)) :
    (n < 11 ↔ ¬ constructSent f 11 ≤ k) ∧ (n < 15 ↔ k + 1 ≠ constructSent f 16) := by
  cases f with
  | perByte => interval_cases n <;> simp [constructSent] at hlo hhi ⊢ <;> omega
  | perCommand => simp only [constructSent] at hlo hhi ⊢; omega

/-! ### The obligations -/

/-- Settles O30: the sequence ends at the failed transaction in the dead state. -/
theorem constructFailureLeavesDead : Obligations.ConstructFailureLeavesDead := by
  intro s d p a k rest hb hlife hinit txns h hk
  obtain ⟨n, -, hrun⟩ := runScript_begun_failed (base := latch d p a (accepted s)) rfl rfl rfl (latched_latch d p a _)
    (allTransactions_construct s.framing d p a) hk h
  exact ⟨_, (exec_begins hb (begins_construct hlife hinit d p a) (by simp)).trans hrun, rfl, rfl, rfl, rfl⟩

/-- Settles O31: the one transaction of SETACTIVE, acknowledged. -/
theorem setactiveSwitchesLife : Obligations.SetactiveSwitchesLife := by
  intro s a b rest hb hu ho ha h
  exact exec_begins_acked hb ho ha (.setactive ((constructed_iff s).mpr hu)) (by simp) (by simp)
    (transactions_oneByte s.framing a _) (List.cons_ne_nil _ _) h

/-- Settles O32: the transactions of SETCONTRAST, acknowledged. -/
theorem setcontrastPersistsValue : Obligations.SetcontrastPersistsValue := by
  intro s a c rest hb hu ho ha txns h
  refine ⟨by cases hf : s.framing <;> simp [txns, hf, commandTxns, payloads], ?_⟩
  exact exec_begins_acked hb ho ha (.setcontrast ((constructed_iff s).mpr hu)) (by simp) (by simp)
    (allTransactions_commandSteps s.framing a [[0x81, c]]) (List.cons_ne_nil _ _) h

/-- Settles O33: the transactions of RENDER, acknowledged; it writes no register. -/
theorem renderSendsFramebuffer : Obligations.RenderSendsFramebuffer := by
  intro s d m a rest hb hu ho ha hd hm ranges data h
  have htxns : allTransactions s.framing a (jobSequence (accepted s) .render) = ranges ++ [data] :=
    allTransactions_render (s := accepted s) hd hm s.framing a
  refine ⟨by cases hf : s.framing <;> simp [ranges, hf, commandTxns, payloads], ?_⟩
  have hne : jobSequence (accepted s) .render ≠ [] := by
    rw [jobSequence_render (s := accepted s) hd hm]
    exact List.cons_ne_nil _ _
  have hlength : (ranges ++ [data]).length = ranges.length + 1 := List.length_append
  rw [exec_begins_acked hb ho ha (.render ((constructed_iff s).mpr hu)) (by simp) (by simp [hd, hm]) htxns hne
    (by rw [hlength]; exact h), jobSequence_render (s := accepted s) hd hm]
  simp only [allAcked, List.map_append, List.append_assoc]
  rfl

/-- Settles O34: the one transaction of DISPOSE, acknowledged or failed; and the two answers that send nothing. -/
theorem disposeEndsInstance : Obligations.DisposeEndsInstance := by
  refine ⟨fun s a rest hb hu ho ha => ?_, fun s hb hl => exec_dispose_disposed hb hl,
    fun s hb hl => exec_dispose_uninitialized hb hl⟩
  have hbegins : Begins s .reqDispose .dispose (accepted s) := .dispose ((constructed_iff s).mpr hu)
  have htxns := transactions_oneByte s.framing a 0xAE
  refine ⟨fun h => exec_begins_acked hb ho ha hbegins (by simp) (by simp) htxns (List.cons_ne_nil _ _) h, fun h => ?_⟩
  have := exec_begins_failed hb ho ha hbegins (by simp) (by simp) htxns (k := 0) (by simp) h
  simpa [allAcked, afterFailure] using this

/-- Settles O35: an IoError ends the sequence at its failed transaction, before which none of the three has written a register. -/
theorem ioErrorKeepsBlockState : Obligations.IoErrorKeepsBlockState := by
  refine ⟨?only, ?ends⟩
  case only =>
    intro i s t hthree h ht
    have hi : i.stream = .host := by rcases hthree with ⟨b, rfl⟩ | ⟨c, rfl⟩ | rfl <;> rfl
    rcases requestStep_cases (exec_request hi h).2 with ⟨r, hr, heq, -⟩ | ⟨j, base, hbegins, hrun⟩
    · rw [heq] at ht
      exact absurd (response_eq_of_responses rfl ht) hr
    · have hj : j ≠ .construct ∧ j ≠ .dispose := by cases hbegins <;> simp at hthree ⊢
      obtain ⟨-, rfl⟩ := begins_base hbegins hj.1
      obtain ⟨u, n, sent, hp, hend⟩ := begins_cases hbegins hrun
      have hu : u.responses = s.responses := hp.responses
      rcases hend with ⟨rfl, -⟩ | ⟨hn, x, rest, -, rfl⟩ | ⟨rfl, -⟩
      · simp [hu] at ht
      · obtain ⟨hlife, hcontrast⟩ := registers_before_last hj.1 hn (modelOf s) (powerOf s) 0 s.life s.contrast
        have hul : u.life = s.life := hp.life.trans hlife
        have huc : u.contrast = s.contrast := hp.contrast.trans hcontrast
        rw [afterFailure_of_ne hj.1 hj.2, giveResponse_eq_answered]
        simp only [answered, hul, huc, hp.initFailed, hp.model, hp.power, hp.busAddr, hp.fb, hp.txOpen, hp.hostIn, hu,
          hp.surface, hp.framing, hp.draws]
        rfl
      · simp [hu] at ht
  case ends =>
    intro i s a d m k rest hthree hb hu ho ha hd hm txns h hk
    have hfour : (∃ b, i = .reqSetactive b) ∨ (∃ c, i = .reqSetcontrast c) ∨ i = .reqRender ∨ i = .reqDispose := by
      rcases hthree with h | h | h <;> simp [h]
    obtain ⟨j, hj, hdispose, hbegins, htxns⟩ := begins_of_usable hu hfour
    have hne : j ≠ .dispose := hdispose (by rcases hthree with ⟨b, rfl⟩ | ⟨c, rfl⟩ | rfl <;> simp)
    rw [exec_begins_failed hb ho ha hbegins hj (by simp [hd, hm]) (htxns s.framing a d m hd hm) hk h,
      afterFailure_of_ne hj hne]

/-- Settles O42: the sequence waits at the unanswered transaction, with what the steps before it write. -/
theorem unansweredRequestWaits : Obligations.UnansweredRequestWaits := by
  refine ⟨?four, ?construct⟩
  case four =>
    intro i s a d m p k rest hfour hb hu ho ha hd hp hm txns h hs hk
    obtain ⟨j, hj, -, hbegins, htxns⟩ := begins_of_usable hu hfour
    obtain ⟨pc, left, flight, hexec⟩ :=
      exec_begins_waiting hb ho ha hbegins hj (by simp [hd, hm]) (htxns s.framing a d m hd hm) hk h hs
    exact ⟨_, hexec, rfl, rfl, rfl, rfl, rfl, rfl, rfl, rfl, rfl, rfl, rfl, rfl, rfl, rfl, rfl, rfl, rfl⟩
  case construct =>
    intro s a d p k rest hb hlife hinit txns h hs hk
    obtain ⟨n, left, flight, hn, hlo, hhi, hrun⟩ := runScript_begun_waiting (base := latch d p a (accepted s)) rfl rfl rfl
      (latched_latch d p a _) (allTransactions_construct s.framing d p a) hk h hs
    have hn : n < 16 := hn
    obtain ⟨h10, h14⟩ := construct_position hn ((constructSent_eq s.framing d p a n).symm.trans_le hlo)
      (hhi.trans_eq (constructSent_eq s.framing d p a (n + 1)))
    have hlength : txns.length = constructSent s.framing 16 := by
      rw [← constructSent_eq s.framing d p a 16, List.take_of_length_le (by simp), allTransactions_construct]
    have hl : lifeAfterSteps (some .construct) n 0 s.life = if k + 1 = txns.length then .inactive else .uninitialized := by
      rw [hlife, lifeAfterSteps_construct n hn.le, hlength]
      by_cases h15 : n < 15
      · rw [if_pos h15, if_neg (h14.mp h15)]
      · rw [if_neg h15, if_pos (by omega), if_pos (not_not.mp (h14.not.mp h15))]
    have hc : contrastAfterSteps d p (some .construct) n 0 s.contrast =
        if constructSent s.framing 11 ≤ k then some (defcon d p) else s.contrast := by
      rw [contrastAfterSteps_construct d p s.contrast n hn.le, defaultContrast_eq_defcon]
      by_cases h11 : n < 11
      · rw [if_pos h11, if_neg (h10.mp h11)]
      · rw [if_neg h11, if_pos (not_not.mp (h10.not.mp h11))]
    exact ⟨_, clearMemory, (exec_begins hb (begins_construct hlife hinit d p a) (by simp)).trans hrun, rfl, rfl, rfl, rfl, rfl,
      rfl, rfl, rfl, rfl, rfl, readBit_clearMemory, hinit, hc.trans (by cases s.framing <;> rfl), hl, rfl, rfl, rfl, rfl⟩

end Sys2Proof.Proofs
end

section
/-! One step of a sequence (42_wire_commands.md R130 to R153; 41_sequencer.md R100 to R107): what a command, a data transaction
and a waiting request do under each way the transport can answer. -/

namespace Sys2Proof.Proofs

open Sys2Proof Sys2Proof.Machine Sys2Proof.Slice0

/-! ### Presenting the transactions of a step -/

/-- The state after a step whose transactions are acknowledged: the request goes on, or ends if it was the last step. -/
def ackedState (s : State) (sent : List Txn) (rest : List Answer) : State :=
  if s.script.isEmpty then sequenceDone (stepped s sent rest) else stepped s sent rest

theorem transmit_acked_eq {s : State} {ts : List Txn} {rest : List Answer} (ho : s.txOpen = true) (hl : Latched s)
    (h : s.transportIn = acks ts.length ++ rest) : transmit ts s = .next (ackedState s ts rest) := by
  rw [transmit_acked ho h, stepAcked_eq (by exact hl)]
  rfl

/-- The state in which a sequence ends: the transactions `sent` acknowledged, x failed. -/
def failedState (s : State) (sent : List Txn) (x : Txn) (rest : List Answer) : State :=
  { s with transportIn := rest, busLog := s.busLog ++ allAcked sent ++ [⟨x, false⟩] }

theorem transmit_failed_at {s : State} {ts : List Txn} {k : Nat} {rest : List Answer} (ho : s.txOpen = true)
    (hk : k < ts.length) (h : s.transportIn = acks k ++ .fail :: rest) :
    transmit ts s = .next (sequenceFailed (failedState s (ts.take k) ts[k] rest)) := by
  have hsplit : ts.take k ++ ts[k] :: ts.drop (k + 1) = ts := by simp
  have hlen : (ts.take k).length = k := by simp; omega
  have := transmit_failed (pre := ts.take k) (t := ts[k]) (post := ts.drop (k + 1)) ho (by rw [hlen]; exact h)
  rw [hsplit, ← List.append_assoc] at this
  exact this

theorem transmit_waiting_at {s : State} {ts : List Txn} {k : Nat} {rest : List Answer} (ho : s.txOpen = true)
    (hk : k < ts.length) (h : s.transportIn = acks k ++ rest) (hs : NoAnswer rest) :
    transmit ts s = .next { s with
      busy := true, inFlight := ts.drop k, transportIn := rest, busLog := s.busLog ++ allAcked (ts.take k) } := by
  have hdrop : ts.drop k = ts[k] :: ts.drop (k + 1) := List.drop_eq_getElem_cons hk
  have hsplit : ts.take k ++ ts[k] :: ts.drop (k + 1) = ts := by simp
  have hlen : (ts.take k).length = k := by simp; omega
  have := transmit_waiting (pre := ts.take k) (t := ts[k]) (post := ts.drop (k + 1)) ho (by rw [hlen]; exact h) hs
  rwa [hsplit, ← hdrop] at this

/-! ### What an acknowledged step writes -/

/-- The end of a sequence writes no register, but for DISPOSE: it answers OK if a request is in progress. -/
theorem sequenceDone_of_ne_dispose {s : State} (h : s.job ≠ some .dispose) :
    sequenceDone s = toIdle { s with responses := s.responses ++ (if s.job = none then [] else [.ok []]) } := by
  cases hj : s.job with
  | none =>
    rw [sequenceDone, hj, if_pos rfl, List.append_nil]
    rfl
  | some j =>
    have hne : j ≠ .dispose := fun e => h (by rw [hj, e])
    rw [sequenceDone_eq hj, afterLast_of_ne hne]
    rfl

section Acked

variable (s : State) (sent : List Txn) (rest : List Answer)

theorem sequenceDone_frame (u : State) :
    (sequenceDone u).transportIn = u.transportIn ∧ (sequenceDone u).busLog = u.busLog ∧ (sequenceDone u).inFlight = [] ∧
      (sequenceDone u).contrast = u.contrast ∧ OnlySequenceWrites u (sequenceDone u) := by
  unfold sequenceDone
  split <;> exact ⟨rfl, rfl, rfl, rfl, rfl, rfl, rfl, rfl, rfl, rfl, rfl, rfl, rfl⟩

/-- Whatever the request, an acknowledged step takes the answers, enters the bus log, and writes `contrast` as its rule says. -/
theorem ackedState_frame :
    (ackedState s sent rest).transportIn = rest ∧ (ackedState s sent rest).busLog = s.busLog ++ allAcked sent ∧
      (ackedState s sent rest).inFlight = [] ∧
      (ackedState s sent rest).contrast = contrastAfter (modelOf s) (powerOf s) s.job s.seqPC s.contrast ∧
      OnlySequenceWrites s (ackedState s sent rest) := by
  unfold ackedState
  split
  · exact sequenceDone_frame (stepped s sent rest)
  · exact ⟨rfl, rfl, rfl, rfl, rfl, rfl, rfl, rfl, rfl, rfl, rfl, rfl, rfl⟩

/-- But for DISPOSE it writes `life` as its rule says, and keeps the handle. -/
theorem ackedState_life (h : s.job ≠ some .dispose) :
    (ackedState s sent rest).life = lifeAfter s.job s.seqPC s.life ∧ (ackedState s sent rest).txOpen = s.txOpen := by
  unfold ackedState
  split
  · rw [sequenceDone_of_ne_dispose (s := stepped s sent rest) h]
    exact ⟨rfl, rfl⟩
  · exact ⟨rfl, rfl⟩

/-- The last step of DISPOSE ends the life of the block and releases the handle (R107). -/
theorem ackedState_dispose (h : s.job = some .dispose) (hlast : s.script = []) :
    (ackedState s sent rest).life = .disposed ∧ (ackedState s sent rest).txOpen = false := by
  rw [ackedState, if_pos (by simp [hlast]), sequenceDone_eq (s := stepped s sent rest) h]
  exact ⟨rfl, rfl⟩

/-- After the last step the request ends, with OK if one is in progress (R100). -/
theorem ackedState_last (hlast : s.script = []) :
    (ackedState s sent rest).busy = false ∧ (ackedState s sent rest).seqPC = 0 ∧ (ackedState s sent rest).job = none ∧
      (ackedState s sent rest).responses = s.responses ++ (if s.job = none then [] else [.ok []]) := by
  rw [ackedState, if_pos (by simp [hlast])]
  by_cases h : s.job = some .dispose
  · rw [sequenceDone_eq (s := stepped s sent rest) h]
    exact ⟨rfl, rfl, rfl, by simp [h, stepped]⟩
  · rw [sequenceDone_of_ne_dispose (s := stepped s sent rest) h]
    exact ⟨rfl, rfl, rfl, rfl⟩

/-- After another the request goes on. -/
theorem ackedState_next (hnext : s.script ≠ []) : ackedState s sent rest = stepped s sent rest := by
  rw [ackedState, if_neg (by simpa using hnext)]

end Acked

/-- Which register an acknowledged step writes, by the request in progress (R101, R104 to R107). -/
theorem ackedState_writes {s t : State} {sent : List Txn} {rest : List Answer} {d : DisplayModel} {p : PowerMode}
    (hd : s.model = some d) (hp : s.power = some p) (ht : t = ackedState s sent rest) :
    (∀ c, s.job = some (.setContrast c) → t.contrast = some c ∧ t.life = s.life ∧ t.txOpen = s.txOpen) ∧
    (∀ b, s.job = some (.setActive b) →
      t.life = (if b then .active else .inactive) ∧ t.contrast = s.contrast ∧ t.txOpen = s.txOpen) ∧
    (s.job = none ∨ s.job = some .render → t.life = s.life ∧ t.contrast = s.contrast ∧ t.txOpen = s.txOpen) ∧
    (s.job = some .dispose → s.script = [] → t.life = .disposed ∧ t.contrast = s.contrast ∧ t.txOpen = false) ∧
    (s.job = some .construct →
      t.contrast = (if s.seqPC = 10 then some (defcon d p) else s.contrast) ∧
      t.life = (if s.seqPC = 14 then .inactive else if s.seqPC = 15 then .active else s.life) ∧ t.txOpen = s.txOpen) := by
  subst ht
  obtain ⟨-, -, -, hcontrast, -⟩ := ackedState_frame s sent rest
  have hlife := ackedState_life s sent rest
  refine ⟨fun c hj => ?_, fun b hj => ?_, fun hj => ?_, fun hj hlast => ?_, fun hj => ?_⟩
  · obtain ⟨hl, ho⟩ := hlife (by simp [hj])
    rw [hj] at hcontrast hl
    exact ⟨hcontrast, hl, ho⟩
  · obtain ⟨hl, ho⟩ := hlife (by simp [hj])
    rw [hj] at hcontrast hl
    exact ⟨hl, hcontrast, ho⟩
  · obtain ⟨hl, ho⟩ := hlife (by rcases hj with hj | hj <;> simp [hj])
    rcases hj with hj | hj
    all_goals
      rw [hj] at hcontrast hl
      exact ⟨hl, hcontrast, ho⟩
  · obtain ⟨hl, ho⟩ := ackedState_dispose s sent rest hj hlast
    rw [hj] at hcontrast
    exact ⟨hl, hcontrast, ho⟩
  · obtain ⟨hl, ho⟩ := hlife (by simp [hj])
    rw [hj] at hcontrast hl
    refine ⟨?_, hl, ho⟩
    rw [hcontrast, contrastAfter, modelOf, powerOf, hd, hp, Option.getD_some, Option.getD_some, defaultContrast_eq_defcon]

/-! ### Commands and data transactions -/

/-- The meaning of a wire command is the emission of its bytes. -/
theorem exec_command {i : Instr} (hi : i.stream = .command) (s : State) : exec i s = emit (commandStep (encode i)) s :=
  exec_of_decodeCommand (decode_encode_command hi) s

/-- The data transaction is one transaction under both framings (R64). -/
theorem transactions_dataStep (f : Framing) (a : BusAddr) (data : List Byte) :
    transactions f a (dataStep data) = [⟨a, 0x40, data⟩] := by
  simp [transactions, dataStep]

theorem exec_command_acked {i : Instr} {s : State} {a : BusAddr} {rest : List Answer} (hi : i.stream = .command)
    (ho : s.txOpen = true) (ha : s.busAddr = some a) (hl : Latched s)
    (h : s.transportIn = acks (commandTxns a (payloads s.framing [encode i])).length ++ rest) :
    exec i s = .next (ackedState s (commandTxns a (payloads s.framing [encode i])) rest) := by
  rw [exec_command hi, emit_open ho ha, transactions_commandStep, transmit_acked_eq ho hl h]

/-- Where no register is latched nothing is read, unless a CONSTRUCT is in progress. -/
theorem latched_of_some {s : State} {d : DisplayModel} {p : PowerMode} (hd : s.model = some d) (hp : s.power = some p) :
    Latched s :=
  fun _ => ⟨by simp [hd], by simp [hp]⟩

/-- The transactions of a command or data transaction (R64). -/
def stepTxns (f : Framing) (a : BusAddr) : Instr → List Txn
  | .displayData data => [⟨a, 0x40, data⟩]
  | i => commandTxns a (payloads f [encode i])

/-- A command or data transaction is a step of the sequencer, whose transactions the obligations list. -/
theorem exec_eq_emit {i : Instr} (hi : i.stream ≠ .host) (f : Framing) (a : BusAddr) :
    ∃ st, (∀ s, exec i s = emit st s) ∧ transactions f a st = stepTxns f a i := by
  cases hs : i.stream with
  | host => exact absurd hs hi
  | command =>
    refine ⟨_, exec_command hs, (transactions_commandStep f a (encode i)).trans ?_⟩
    cases i with
    | displayData => cases hs
    | _ => rfl
  | data =>
    cases i with
    | displayData data => exact ⟨dataStep data, fun _ => rfl, transactions_dataStep f a data⟩
    | _ => cases hs

/-! ### The obligations about one step -/

/-- Settles O37: the command's transactions are its framed bytes, and an acknowledged step ends or counts. -/
theorem wireCommandsSendTheirBytes : Obligations.WireCommandsSendTheirBytes := by
  intro i s a d p rest hi ho ha hd hp hj txns h
  obtain ⟨hanswers, hlog, -, -, hinit, hmodel, hpower, haddr, hfb, hhost, hsurface, hframing, hdraws⟩ :=
    ackedState_frame s txns rest
  refine ⟨_, exec_command_acked hi ho ha (latched_of_some hd hp) h, hanswers, hlog, hinit, hmodel, hpower, haddr, hfb,
    (ackedState_life s txns rest hj).2, hhost, hsurface, hframing, hdraws, fun hlast => ?_, fun hnext => ?_⟩
  · obtain ⟨hb, hpc, -, hresp⟩ := ackedState_last s txns rest hlast
    exact ⟨hb, hpc, hresp⟩
  · rw [ackedState_next s txns rest hnext]
    exact ⟨rfl, rfl, rfl, rfl, rfl⟩

/-- Settles O38: a step of RENDER writes no register. -/
theorem dataTransactionIsOneWrite : Obligations.DataTransactionIsOneWrite := by
  intro data s a rest hj ho ha h
  have hexec : exec (.displayData data) s = .next (ackedState s [⟨a, 0x40, data⟩] rest) := by
    show emit (dataStep data) s = _
    rw [emit_open ho ha, transactions_dataStep, transmit_acked_eq ho (fun hc => by rw [hj] at hc; cases hc) h]
  obtain ⟨hanswers, hlog, -, hcontrast, hinit, hmodel, hpower, haddr, hfb, hhost, hsurface, hframing, hdraws⟩ :=
    ackedState_frame s [⟨a, 0x40, data⟩] rest
  obtain ⟨hlife, hopen⟩ := ackedState_life s [⟨a, 0x40, data⟩] rest (by simp [hj])
  rw [hj] at hcontrast hlife
  refine ⟨_, hexec, hanswers, hlog, hlife, hcontrast, hinit, hmodel, hpower, haddr, hfb, hopen, hhost, hsurface, hframing,
    hdraws, fun hlast => ?_, fun hnext => ?_⟩
  · obtain ⟨hb, hpc, -, hresp⟩ := ackedState_last s [⟨a, 0x40, data⟩] rest hlast
    rw [hj] at hresp
    exact ⟨hb, hpc, hresp⟩
  · rw [ackedState_next s _ rest hnext]
    exact ⟨rfl, rfl, rfl, rfl⟩

/-- Settles O39: `ackedState_writes`, for a command. -/
theorem acknowledgedCommandWrites : Obligations.AcknowledgedCommandWrites := by
  intro i s a d p rest hi ho ha hd hp h
  have hlen : (commandTxns a (payloads s.framing [encode i])).length = (payloads s.framing [encode i]).length := by
    simp [commandTxns]
  refine ⟨_, exec_command_acked hi ho ha (latched_of_some hd hp) (hlen ▸ h), ?_⟩
  obtain ⟨hcontrast, hactive, hnone, hdispose, hconstruct⟩ :=
    ackedState_writes (sent := commandTxns a (payloads s.framing [encode i])) (rest := rest) hd hp rfl
  refine ⟨fun c hj => ?_, fun b hj => ?_, fun hj hlast => ?_, fun hj => ?_, fun hj => ?_⟩
  · obtain ⟨hc, hl, -⟩ := hcontrast c hj
    exact ⟨hc, hl⟩
  · obtain ⟨hl, hc, -⟩ := hactive b hj
    exact ⟨hl, hc⟩
  · obtain ⟨hl, hc, hopen⟩ := hdispose hj hlast
    exact ⟨hl, hopen, hc⟩
  · obtain ⟨hc, hl, -⟩ := hconstruct hj
    exact ⟨hc, hl⟩
  · obtain ⟨hl, hc, -⟩ := hnone hj
    exact ⟨hl, hc⟩

/-- Settles O40: the step ends at the failed transaction, and with it the request in progress, if there is one. -/
theorem failedStepEndsSequence : Obligations.FailedStepEndsSequence := by
  intro i s a k rest hi ho ha txns h hk
  obtain ⟨st, hemit, htxns⟩ := exec_eq_emit hi s.framing a
  have hexec : exec i s = .next (sequenceFailed (failedState s (txns.take k) txns[k] rest)) := by
    have hsame : stepTxns s.framing a i = txns := by cases i <;> rfl
    rw [hemit, emit_open ho ha, htxns, hsame, transmit_failed_at ho hk h]
  cases hj : s.job with
  | none =>
    have hend : sequenceFailed (failedState s (txns.take k) txns[k] rest) = toIdle (failedState s (txns.take k) txns[k] rest) := by
      simp [sequenceFailed, failedState, hj]
    exact ⟨_, hexec.trans (congrArg _ hend), rfl, rfl, rfl, rfl, fun hne => absurd rfl hne, fun _ => rfl,
      fun _ _ => ⟨rfl, rfl, rfl, rfl, rfl, rfl, rfl, rfl⟩⟩
  | some j =>
    rw [sequenceFailed_eq (s := failedState s (txns.take k) txns[k] rest) hj] at hexec
    refine ⟨_, hexec, rfl, rfl, by simp [failedState], by simp [failedState], fun _ => by simp [failedState], fun hnone => (by cases hnone), fun hc hd => ?_⟩
    rw [afterFailure_of_ne (fun e => hc (by rw [e])) (fun e => hd (by rw [e]))]
    exact ⟨rfl, rfl, rfl, rfl, rfl, rfl, rfl, rfl⟩

/-! ### A waiting request -/

/-- A waiting request of a sound block goes on by presenting what is unanswered. -/
theorem step_waiting {s : State} (hs : Inv s) (hb : s.busy = true) (hf : s.inFlight ≠ []) (hq : Undisturbed s) :
    ∃ j, s.job = some j ∧ s.txOpen = true ∧ Latched s ∧ step s = transmit s.inFlight s ∧
      (j = .dispose → s.script = []) := by
  obtain ⟨j, st, a, ts, h, hmove, hpos⟩ := stepBlock_presents hs hb
  rcases hpos with ⟨hnone, -⟩ | ⟨-, rfl, hsame⟩
  · exact absurd hnone hf
  · have hl := h.latched
    rw [hsame] at hl hmove
    refine ⟨j, h.job, h.txOpen, hl, (step_busy hq hb).trans hmove, ?_⟩
    rintro rfl
    rw [← hsame]
    simp [presenting, jobSequence]

/-- Settles O58: the waiting transactions are acknowledged, or one fails, or one gets no answer. -/
theorem waitingRequestGoesOn : Obligations.WaitingRequestGoesOn := by
  intro s d p hs hb hf hq hd hp
  obtain ⟨j, hj, ho, hl, hstep, hdispose⟩ := step_waiting hs hb hf hq
  refine ⟨fun rest h => ?acked, fun k rest h hk => ?failed, fun k rest h hsilent hk => ?waiting⟩
  case acked =>
    obtain ⟨hanswers, hlog, hnone, -, hframe⟩ := ackedState_frame s s.inFlight rest
    obtain ⟨hcontrast, hactive, hrender, hdone, hconstruct⟩ :=
      ackedState_writes (sent := s.inFlight) (rest := rest) hd hp rfl
    refine ⟨_, hstep.trans (transmit_acked_eq ho hl h), hanswers, hnone, hlog, hframe, hcontrast, hactive,
      fun h => hrender (.inr h), fun h => hdone h (hdispose (Option.some.inj (hj.symm.trans h))), hconstruct,
      fun hlast => ?_, fun hnext => ?_⟩
    · obtain ⟨hb', hpc, hj', hresp⟩ := ackedState_last s s.inFlight rest hlast
      rw [hj] at hresp
      exact ⟨hb', hpc, hj', hresp⟩
    · rw [ackedState_next s _ rest hnext]
      exact ⟨hb, rfl, rfl, rfl, rfl⟩
  case failed =>
    have hfail := hstep.trans (transmit_failed_at ho hk h)
    rw [sequenceFailed_eq (s := failedState s (s.inFlight.take k) s.inFlight[k] rest) hj] at hfail
    refine ⟨_, hfail, by simp [failedState], by simp [failedState], by simp [failedState], rfl, rfl, rfl, rfl, rfl,
      by simp [failedState], by simp [failedState], by simp [failedState], ?_⟩
    rw [hj]
    cases j with
    | construct => exact ⟨fun _ => ⟨rfl, rfl, rfl⟩, fun e => (by cases e), fun e => absurd rfl e⟩
    | dispose =>
      exact ⟨fun e => (by cases e), fun _ => ⟨rfl, rfl, rfl, rfl, rfl, rfl, rfl, rfl, rfl, rfl, rfl, rfl⟩,
        fun _ e => absurd rfl e⟩
    | setActive | setContrast | render =>
      exact ⟨fun e => (by cases e), fun e => (by cases e),
        fun _ _ => ⟨rfl, rfl, rfl, rfl, rfl, rfl, rfl, rfl, rfl, rfl, rfl, rfl⟩⟩
  case waiting =>
    rw [hstep, transmit_waiting_at ho hk h hsilent, hb]

end Sys2Proof.Proofs
end

section
/-! The progress of a waiting request (20_memory.md R50, R54): once the transport acknowledges, it completes. -/

namespace Sys2Proof.Proofs

open Sys2Proof Sys2Proof.Machine Sys2Proof.Slice0

/-! ### What is left to send -/

/-- No request sends more than the 25 transactions of a CONSTRUCT under PerByte. -/
theorem allTransactions_jobSequence_le {s : State} (hc : Configured s) (f : Framing) (a : BusAddr) (j : Job) :
    (allTransactions f a (jobSequence s j)).length ≤ 25 := by
  obtain ⟨d, p, -, m, hd, hp, -, hm, -⟩ := hc
  cases j with
  | construct =>
    rw [show jobSequence s .construct = initSequence d p by simp only [jobSequence, hd, hp], allTransactions_construct,
      constructTxns_length]
    cases f <;> simp
  | render =>
    rw [allTransactions_render hd hm]
    cases f <;> simp [requestTxns, commandTxns, payloads]
  | setActive | setContrast | dispose => cases f <;> simp [jobSequence, transactions, commandStep]

/-- A request that presents `ts` has the steps after the present one left to send besides. -/
theorem Presents.left_le {s : State} {j : Job} {st : SeqStep} {a : BusAddr} {ts : List Txn} (h : Presents s j st a ts) :
    ts.length + (allTransactions s.framing a (presenting s j).script).length ≤ 25 := by
  have hdrop : (jobSequence s j).drop s.seqPC.toNat = st :: (presenting s j).script := by
    rw [List.drop_eq_getElem_cons h.lt, List.getElem_eq_iff h.lt |>.mpr h.step]
    rfl
  have hall : (allTransactions s.framing a (jobSequence s j)).length =
      (allTransactions s.framing a ((jobSequence s j).take s.seqPC.toNat)).length +
        ((transactions s.framing a st).length + (allTransactions s.framing a (presenting s j).script).length) := by
    conv => lhs; rw [← List.take_append_drop s.seqPC.toNat (jobSequence s j), hdrop]
    rw [allTransactions, List.flatMap_append, List.flatMap_cons, List.length_append, List.length_append]
    rfl
  have hts := h.unanswered.length_le
  have hbound := allTransactions_jobSequence_le h.configured s.framing a j
  omega

/-! ### A request that completes -/

/-- t is s with the request in progress completed: it has answered OK, and written what its rule says (R101, R104 to R107). -/
structure Completed (s t : State) : Prop where
  idle : t.busy = false
  responses : t.responses = s.responses ++ [.ok []]
  frame : OnlySequenceWrites s t
  setContrast : ∀ c, s.job = some (.setContrast c) → t.contrast = some c ∧ t.life = s.life ∧ t.txOpen = s.txOpen
  setActive : ∀ b, s.job = some (.setActive b) →
    t.life = (if b then .active else .inactive) ∧ t.contrast = s.contrast ∧ t.txOpen = s.txOpen
  render : s.job = some .render → t.life = s.life ∧ t.contrast = s.contrast ∧ t.txOpen = s.txOpen
  dispose : s.job = some .dispose → t.life = .disposed ∧ t.contrast = s.contrast ∧ t.txOpen = false
  construct : s.job = some .construct → t.life = .active ∧ t.txOpen = true ∧
    ∀ d p, s.model = some d → s.power = some p → t.contrast = if s.seqPC.toNat ≤ 10 then some (defcon d p) else s.contrast

theorem onlySequenceWrites_trans {s t u : State} (h : OnlySequenceWrites s t) (k : OnlySequenceWrites t u) :
    OnlySequenceWrites s u := by
  obtain ⟨h1, h2, h3, h4, h5, h6, h7, h8, h9⟩ := h
  obtain ⟨k1, k2, k3, k4, k5, k6, k7, k8, k9⟩ := k
  exact ⟨k1.trans h1, k2.trans h2, k3.trans h3, k4.trans h4, k5.trans h5, k6.trans h6, k7.trans h7, k8.trans h8, k9.trans h9⟩

section Completes

variable {s : State} {j : Job} {st : SeqStep} {a : BusAddr} {ts : List Txn} (h : Presents s j st a ts)

include h

/-- The last step, acknowledged, completes the request. -/
theorem completed_of_last (hlast : (presenting s j).script = []) (rest : List Answer) :
    Completed s (ackedState (presenting s j) ts rest) := by
  obtain ⟨d, p, -, -, hd, hp, -⟩ := h.configured
  obtain ⟨hb, -, -, hresp⟩ := ackedState_last (presenting s j) ts rest hlast
  obtain ⟨-, -, -, -, hframe⟩ := ackedState_frame (presenting s j) ts rest
  obtain ⟨hcontrast, hactive, hrender, hdispose, hconstruct⟩ :=
    ackedState_writes (s := presenting s j) (sent := ts) (rest := rest) hd hp rfl
  have hjob : (presenting s j).job = some j := h.job
  rw [hjob] at hresp
  refine ⟨hb, hresp, hframe, hcontrast, hactive, fun hj => hrender (.inr hj), fun hj => hdispose hj hlast, fun hj => ?_⟩
  obtain rfl : j = .construct := Option.some.inj (h.job.symm.trans hj)
  obtain ⟨hc, hl, ho⟩ := hconstruct hj
  have h15 : s.seqPC = 15 := by
    have hlen : (jobSequence s .construct).length = 16 := jobSequence_length h.configured .construct
    have hge : (jobSequence s .construct).length ≤ s.seqPC.toNat + 1 := by simpa [presenting] using hlast
    have hlt := h.lt
    apply BitVec.eq_of_toNat_eq
    simp
    omega
  have hpc : (presenting s .construct).seqPC = 15 := h15
  rw [hpc] at hl hc
  exact ⟨hl, ho.trans h.txOpen, fun _ _ _ _ => by rw [hc, h15]; rfl⟩

/-- If the request completes after a step that is not the last, it completes. -/
theorem completed_of_next (hnext : (presenting s j).script ≠ []) {rest : List Answer} {t : State}
    (ht : Completed (stepped (presenting s j) ts rest) t) : Completed s t := by
  obtain ⟨d, p, -, -, hd, hp, -⟩ := h.configured
  have hu := ackedState_next (presenting s j) ts rest hnext
  obtain ⟨-, -, -, -, hframe⟩ := ackedState_frame (presenting s j) ts rest
  obtain ⟨hcontrast, hactive, hrender, -, hconstruct⟩ :=
    ackedState_writes (s := presenting s j) (sent := ts) (rest := rest) hd hp rfl
  rw [hu] at hframe hcontrast hactive hrender hconstruct
  refine ⟨ht.idle, ht.responses, onlySequenceWrites_trans hframe ht.frame, fun c hj => ?_, fun b hj => ?_, fun hj => ?_,
    fun hj => ?_, fun hj => ?_⟩
  · obtain ⟨-, hl, ho⟩ := hcontrast c hj
    obtain ⟨hc', hl', ho'⟩ := ht.setContrast c hj
    exact ⟨hc', hl'.trans hl, ho'.trans ho⟩
  · obtain ⟨-, hc, ho⟩ := hactive b hj
    obtain ⟨hl', hc', ho'⟩ := ht.setActive b hj
    exact ⟨hl', hc'.trans hc, ho'.trans ho⟩
  · obtain ⟨hl, hc, ho⟩ := hrender (.inr hj)
    obtain ⟨hl', hc', ho'⟩ := ht.render hj
    exact ⟨hl'.trans hl, hc'.trans hc, ho'.trans ho⟩
  · obtain rfl : j = .dispose := Option.some.inj (h.job.symm.trans hj)
    exact absurd (by simp [presenting, jobSequence]) hnext
  · obtain ⟨hc, -, -⟩ := hconstruct hj
    obtain ⟨hl', ho', hc'⟩ := ht.construct hj
    refine ⟨hl', ho', fun d' p' hd' hp' => ?_⟩
    cases hd.symm.trans hd'
    cases hp.symm.trans hp'
    have hpc : (stepped (presenting s j) ts rest).seqPC.toNat = s.seqPC.toNat + 1 := h.seqPC_succ
    have hpc' : (presenting s j).seqPC = s.seqPC := rfl
    rw [hc' d p hd hp, hc, hpc, hpc']
    by_cases h10 : s.seqPC = 10
    · simp [h10]
    · have : s.seqPC.toNat ≠ 10 := fun e => h10 (BitVec.eq_of_toNat_eq e)
      rw [if_neg h10]
      by_cases hle : s.seqPC.toNat + 1 ≤ 10
      · rw [if_pos hle, if_pos (by omega)]
      · rw [if_neg hle, if_neg (by omega)]
        rfl

end Completes

/-- A step whose transactions are acknowledged takes as many of the answers to come. -/
theorem step_acked {s : State} {j : Job} {st : SeqStep} {a : BusAddr} {ts : List Txn} {n : Nat} {rest : List Answer}
    (h : Presents s j st a ts) (hmove : stepBlock s = transmit ts (presenting s j)) (hq : Undisturbed s)
    (hanswers : s.transportIn = acks n ++ rest) (hn : ts.length ≤ n) :
    step s = .next (ackedState (presenting s j) ts (acks (n - ts.length) ++ rest)) := by
  have hsplit : (presenting s j).transportIn = acks ts.length ++ (acks (n - ts.length) ++ rest) := by
    show s.transportIn = _
    rw [hanswers, ← List.append_assoc, acks, acks, acks, ← List.replicate_add, Nat.add_sub_cancel' hn]
  exact (step_busy hq h.busy).trans (hmove.trans (transmit_acked_eq (s := presenting s j) h.txOpen h.latched hsplit))

/-- With enough acknowledgements to come, a request with m steps after the present one completes in m + 1 steps, by induction on
m. -/
theorem run_completes (m : Nat) {s : State} {j : Job} {n : Nat} {rest : List Answer} {a : BusAddr} {st : SeqStep} {ts : List Txn}
    (h : Presents s j st a ts) (hmove : stepBlock s = transmit ts (presenting s j)) (hq : Undisturbed s)
    (hm : (presenting s j).script.length = m) (hanswers : s.transportIn = acks n ++ rest)
    (hn : ts.length + (allTransactions s.framing a (presenting s j).script).length ≤ n) :
    ∃ t, Host.Core.run core (m + 1) s = .next t ∧ Completed s t := by
  induction m generalizing s j n st ts with
  | zero =>
    have hstep := step_acked h hmove hq hanswers (by omega)
    exact ⟨_, run_next (M := core) 0 hstep, completed_of_last h (List.length_eq_zero_iff.mp hm) _⟩
  | succ m ih =>
    have hnext : (presenting s j).script ≠ [] := by
      intro he
      rw [he] at hm
      cases hm
    have hstep := step_acked h hmove hq hanswers (by omega)
    rw [ackedState_next _ _ _ hnext] at hstep
    obtain ⟨j', st', a', ts', h', hmove', hpos⟩ :=
      stepBlock_presents (inv_stepped h hnext (acks (n - ts.length) ++ rest)) h.busy
    rcases hpos with ⟨-, hts', hscript⟩ | ⟨hne, -⟩
    · have hscript : (presenting s j).script = st' :: (presenting _ j').script := hscript
      have hts' : ts' = transactions s.framing a' st' := hts'
      obtain rfl : a' = a := Option.some.inj (h'.busAddr.symm.trans h.busAddr)
      rw [hscript] at hm hn
      rw [allTransactions_cons, List.length_append, ← hts'] at hn
      obtain ⟨t, hrun, ht⟩ := ih h' hmove' hq (Nat.succ.inj hm) rfl (Nat.le_sub_of_add_le' hn)
      exact ⟨t, (run_next (M := core) (m + 1) hstep).trans hrun, completed_of_next h hnext ht⟩
    · exact absurd rfl hne

/-! ### The obligation -/

/-- Settles O43: at most 16 steps are left, with at most 25 transactions, and each step takes its acknowledgements. -/
theorem waitingRequestCompletes : Obligations.WaitingRequestCompletes := by
  intro s n rest hs hb hq hanswers hn
  obtain ⟨j, st, a, ts, h, hmove, -⟩ := stepBlock_presents hs hb
  obtain ⟨t, hrun, ht⟩ := run_completes _ h hmove hq rfl hanswers (h.left_le.trans hn)
  have hlen : (presenting s j).script.length ≤ 16 := by
    have := jobSequence_length h.configured j
    rw [presenting, List.length_drop, this]
    cases j <;> simp <;> omega
  exact ⟨_, t, by omega, hrun, ht.idle, ht.responses, ht.frame, ht.setContrast, ht.setActive, ht.render, ht.dispose,
    ht.construct⟩

end Sys2Proof.Proofs
end

section
/-! The rules of the whole machine (10_state.md R22 to R24, R30; 20_memory.md R48, R49): which steps change `life`, the
configuration, `initFailed` and the bus log. -/

namespace Sys2Proof.Proofs

open Sys2Proof Sys2Proof.Machine Sys2Proof.Slice0

/-! ### What a step does -/

/-- A reset that withholds a response is served by the step (R180). -/
theorem resetServed_of_withheld {s u : State} {rest : List HostEvent} (hu : stepBlock s = .next u)
    (h : u.hostIn = .resetAtResponse :: rest) : ResetServed s (withholdResponse s { u with hostIn := rest }) := by
  have hrest : (withholdResponse s { u with hostIn := rest }).hostIn = rest := rfl
  rw [ResetServed, hrest]
  cases hb : s.busy with
  | true => exact .inr (.inl ((stepBlock_busy_hostIn hb hu).symm.trans h))
  | false =>
    rcases stepBlock_idle hb hu with ⟨-, rfl⟩ | ⟨q, rest', i, hin, -, -, hport, -⟩
    · exact .inr (.inl h)
    · exact .inr (.inr ⟨rfl, q, by rw [hin, ← hport, h]⟩)

/-- A step serves a reset, or a change of the surface port, or is the block's move. -/
theorem step_served {s t : State} (h : step s = .next t) :
    (ResetServed s t ∧ AfterReset t ∧ (t.busLog = s.busLog ∨ ∃ u, stepBlock s = .next u ∧ t.busLog = u.busLog)) ∨
    (∃ f rest, t = { s with hostIn := rest, surface := f }) ∨
    stepBlock s = .next t := by
  rcases step_cases h with ⟨rest, hin, rfl⟩ | ⟨f, rest, -, rfl⟩ | ⟨u, hu, ⟨rfl, -⟩ | ⟨rest, hport, -, rfl⟩⟩
  · exact .inl ⟨.inl hin, afterReset_blockReset _, .inl rfl⟩
  · exact .inr (.inl ⟨f, rest, rfl⟩)
  · exact .inr (.inr hu)
  · exact .inl ⟨resetServed_of_withheld hu hport, afterReset_withholdResponse _ _, .inr ⟨u, hu, rfl⟩⟩

/-- A sound busy block's move: the transactions it presents are acknowledged, or one fails, or one gets no answer. -/
theorem stepBlock_busy_cases {s t : State} (hs : Inv s) (hb : s.busy = true) (h : stepBlock s = .next t) :
    ∃ j st a ts, Presents s j st a ts ∧
      ((s.inFlight = [] ∧ ts = transactions s.framing a st) ∨ ts = s.inFlight) ∧
      ((∃ rest, t = ackedState (presenting s j) ts rest) ∨
        (∃ pre x post rest, ts = pre ++ x :: post ∧
          t = giveResponse (.error .ioError) (afterFailure j (failedState (presenting s j) pre x rest))) ∨
        (∃ pre x post rest, ts = pre ++ x :: post ∧ t = { presenting s j with
          busy := true, inFlight := x :: post, transportIn := rest, busLog := s.busLog ++ allAcked pre })) := by
  obtain ⟨j, st, a, ts, hp, hmove, hpos⟩ := stepBlock_presents hs hb
  have hts : (s.inFlight = [] ∧ ts = transactions s.framing a st) ∨ ts = s.inFlight := by
    rcases hpos with ⟨hf, hts, -⟩ | ⟨-, hts, -⟩
    · exact .inl ⟨hf, hts⟩
    · exact .inr hts
  refine ⟨j, st, a, ts, hp, hts, ?_⟩
  rcases transmit_cases (hmove.symm.trans h) with ⟨hclosed, -⟩ | ⟨-, ⟨rest, -, rfl⟩ | ⟨pre, x, post, rest, heq, -, rfl⟩ |
    ⟨pre, x, post, rest, heq, -, -, rfl⟩⟩
  · exact absurd (hp.txOpen.symm.trans hclosed) (by simp)
  · exact .inl ⟨rest, rfl⟩
  · refine .inr (.inl ⟨pre, x, post, rest, heq, ?_⟩)
    rw [← sequenceFailed_eq (s := failedState (presenting s j) pre x rest) hp.job, failedState, List.append_assoc]
    rfl
  · exact .inr (.inr ⟨pre, x, post, rest, heq, rfl⟩)

/-! ### `life` -/

/-- The transitions of R22 that a request served by an idle block makes. -/
def LifeTransition (s : State) (i : Instr) (t : State) : Prop :=
  (s.life = .uninitialized ∧ s.initFailed = false ∧ (∃ model power addr, i = .reqConstruct model power true addr) ∧
      ((t.life = .active ∧ t.busy = false) ∨ (t.life = .inactive ∧ t.busy = true))) ∨
    (Usable s ∧ ∃ b, i = .reqSetactive b ∧ t.life = if b then .active else .inactive) ∨
    (Usable s ∧ i = .reqDispose ∧ t.life = .disposed)

/-- A CONSTRUCT that changes `life` is done, or waits at its last transaction. -/
theorem construct_life {s t : State} {m : BitVec 2} {p : PowerMode} {a : BusAddr} {d : DisplayModel}
    (hf : fresh s = true) (hm : modelOfCode m = some d)
    (h : runScript (begun .construct (latch d p a (accepted s))).script (begun .construct (latch d p a (accepted s))) = .next t)
    (ht : t.life ≠ s.life) : (t.life = .active ∧ t.busy = false) ∨ (t.life = .inactive ∧ t.busy = true) := by
  obtain ⟨hl, -⟩ := (fresh_iff s).mp hf
  obtain ⟨u, n, sent, hp, hend⟩ := begins_cases (.construct hf hm) h
  have hlife : u.life = lifeAfterSteps (some .construct) n 0 .uninitialized := hl ▸ hp.life
  rcases hend with ⟨rfl, rfl⟩ | ⟨-, x, rest, -, rfl⟩ | ⟨rfl, hn⟩
  · have hactive : u.life = .active := hlife.trans (lifeAfterSteps_construct 16 le_rfl)
    exact .inl ⟨hactive, rfl⟩
  · exact absurd hl.symm ht
  · have hn : n < 16 := hn.elim id fun h => h ▸ by decide
    rw [lifeAfterSteps_construct n hn.le] at hlife
    rw [hl] at ht
    by_cases h15 : n < 15
    · exact absurd (hlife.trans (if_pos h15)) ht
    · rw [if_neg h15, if_pos (by omega)] at hlife
      exact .inr ⟨hlife, hp.busy⟩

/-- The life of a constructed block changes only where a SETACTIVE or a DISPOSE is done, or a DISPOSE fails. -/
theorem constructed_life {s base t : State} {i : Instr} {j : Job} (hi : Begins s i j base) (hj : j ≠ .construct)
    (hbase : base = accepted s) (h : runScript (begun j base).script (begun j base) = .next t) (ht : t.life ≠ s.life) :
    (∃ b, i = .reqSetactive b ∧ t.life = if b then .active else .inactive) ∨ (i = .reqDispose ∧ t.life = .disposed) := by
  obtain ⟨u, n, sent, hp, hend⟩ := begins_cases hi h
  have hkept : base.life = s.life := by rw [hbase]; rfl
  have hbefore (hn : n < (jobSequence base j).length ∨ n = 0) : u.life = s.life := by
    rcases hn with hn | rfl
    · exact (hp.life.trans (registers_before_last hj hn .m128x64 .external _ _ none).1).trans hkept
    · exact hp.life.trans hkept
  rcases hend with ⟨rfl, hn⟩ | ⟨hn, x, rest, -, rfl⟩ | ⟨rfl, hn⟩
  · have hlife : u.life = lifeAfterSteps (some j) n 0 s.life := hp.life.trans (by rw [hbase]; rfl)
    cases hi with
    | construct => exact absurd rfl hj
    | setactive => subst hn; exact .inl ⟨_, rfl, hlife⟩
    | setcontrast => subst hn; exact absurd hlife ht
    | render => exact absurd (hlife.trans (render_registers .m128x64 .external s.life none n 0).1) ht
    | dispose => exact .inr ⟨rfl, rfl⟩
  · cases hi with
    | construct => exact absurd rfl hj
    | setactive | setcontrast | render => exact absurd (hbefore (.inl hn)) ht
    | dispose => exact .inr ⟨rfl, rfl⟩
  · exact absurd (hbefore hn) ht

/-- A request that changes `life` makes one of R22's transitions. -/
theorem exec_life {i : Instr} {s t : State} (hi : i.stream = .host) (h : exec i s = .next t) (ht : t.life ≠ s.life) :
    LifeTransition s i t := by
  rcases requestStep_cases (exec_request hi h).2 with ⟨r, -, heq, -⟩ | ⟨j, base, hbegins, hrun⟩
  · exact absurd (by rw [heq]; rfl) ht
  · by_cases hj : j = .construct
    · subst hj
      cases hbegins with
      | construct hf hm =>
        obtain ⟨hl, hinit⟩ := (fresh_iff s).mp hf
        exact .inl ⟨hl, hinit, ⟨_, _, _, rfl⟩, construct_life hf hm hrun ht⟩
    · obtain ⟨hc, rfl⟩ := begins_base hbegins hj
      have hu : Usable s := (constructed_iff s).mp hc
      rcases constructed_life hbegins hj rfl hrun ht with hactive | hdispose
      · exact .inr (.inl ⟨hu, hactive⟩)
      · exact .inr (.inr ⟨hu, hdispose⟩)

/-- The move of a busy block that changes `life`: a CONSTRUCT's steps 14 and 15, and its failure in between; a SETACTIVE; a
DISPOSE. -/
theorem stepBlock_busy_life {s t : State} (hs : Inv s) (hb : s.busy = true) (h : stepBlock s = .next t)
    (ht : t.life ≠ s.life) :
    (s.job = some .construct ∧
      ((s.life = .uninitialized ∧ t.life = .inactive ∧ t.busy = true) ∨ (s.life = .inactive ∧ t.life = .active ∧ t.busy = false) ∨
        (s.life = .inactive ∧ t.life = .uninitialized ∧ t.initFailed = true ∧ t.busy = false))) ∨
    (Usable s ∧ ∃ b, s.job = some (.setActive b) ∧ t.life = if b then .active else .inactive) ∨
    (Usable s ∧ s.job = some .dispose ∧ t.life = .disposed) := by
  obtain ⟨j, st, a, ts, hp, -, hend⟩ := stepBlock_busy_cases hs hb h
  have hjob : (presenting s j).job = some j := hp.job
  have husable (hj : j ≠ .construct) : Usable s := (constructed_iff s).mp (hp.constructed hj).1
  rcases hend with ⟨rest, rfl⟩ | ⟨pre, x, post, rest, -, rfl⟩ | ⟨pre, x, post, rest, -, rfl⟩
  · have hlife (hd : j ≠ .dispose) : (ackedState (presenting s j) ts rest).life = lifeAfter (some j) s.seqPC s.life := by
      rw [(ackedState_life (presenting s j) ts rest (by rw [hjob]; simpa using hd)).1, hjob]
      rfl
    cases j with
    | construct =>
      obtain ⟨hl, -, -⟩ := hp.construct rfl
      have hlen : (jobSequence s .construct).length = 16 := jobSequence_length hp.configured .construct
      have hlife := hlife (by simp)
      by_cases h14 : s.seqPC = 14
      · have hnext : (presenting s .construct).script ≠ [] := by simp [presenting, hlen, h14]
        rw [ackedState_next _ _ _ hnext] at hlife ⊢
        exact .inl ⟨hjob, .inl ⟨by simpa [h14] using hl, by simpa [lifeAfter, h14] using hlife, hb⟩⟩
      · by_cases h15 : s.seqPC = 15
        · have hlast : (presenting s .construct).script = [] := by simp [presenting, hlen, h15]
          obtain ⟨hidle, -⟩ := ackedState_last (presenting s .construct) ts rest hlast
          exact .inl ⟨hjob, .inr (.inl ⟨by simpa [h15] using hl, by simpa [lifeAfter, h15] using hlife, hidle⟩)⟩
        · rw [lifeAfter, if_neg h14, if_neg h15] at hlife
          exact absurd hlife ht
    | setActive b => exact .inr (.inl ⟨husable (by simp), b, hjob, hlife (by simp)⟩)
    | setContrast c => exact absurd (hlife (by simp)) ht
    | render => exact absurd (hlife (by simp)) ht
    | dispose =>
      have hlast : (presenting s .dispose).script = [] := by simp [presenting, jobSequence]
      exact .inr (.inr ⟨husable (by simp), hjob, (ackedState_dispose (presenting s .dispose) ts rest hjob hlast).1⟩)
  · cases j with
    | construct =>
      obtain ⟨hl, -, -⟩ := hp.construct rfl
      have hinactive : s.life = .inactive := by
        by_cases h15 : s.seqPC.toNat < 15
        · exact absurd (hl.trans (if_pos h15)).symm ht
        · exact hl.trans (if_neg h15)
      exact .inl ⟨hjob, .inr (.inr ⟨hinactive, rfl, rfl, rfl⟩)⟩
    | setActive | setContrast | render => exact absurd rfl ht
    | dispose => exact .inr (.inr ⟨husable (by simp), hjob, rfl⟩)
  · exact absurd rfl ht

/-! ### The configuration -/

/-- A request that changes the configuration is a CONSTRUCT that passes validation. -/
theorem exec_config {i : Instr} {s t : State} (hi : i.stream = .host) (h : exec i s = .next t)
    (ht : ¬ (t.model = s.model ∧ t.power = s.power ∧ t.busAddr = s.busAddr)) :
    ∃ model power addr, i = .reqConstruct model power true addr ∧ model ≠ 3 ∧ s.life = .uninitialized ∧
      s.initFailed = false := by
  rcases requestStep_cases (exec_request hi h).2 with ⟨r, -, heq, -⟩ | ⟨j, base, hbegins, -⟩
  · exact absurd (by rw [heq]; exact ⟨rfl, rfl, rfl⟩) ht
  · have hfour (hi : (∃ b, i = .reqSetactive b) ∨ (∃ c, i = .reqSetcontrast c) ∨ i = .reqRender ∨ i = .reqDispose) : False := by
      obtain ⟨-, hmodel, hpower, haddr, -⟩ := sequencerRequestsKeepFramebuffer i s t hi h
      exact ht ⟨hmodel, hpower, haddr⟩
    cases hbegins with
    | @construct m p a d hf hm =>
      obtain ⟨hl, hinit⟩ := (fresh_iff s).mp hf
      refine ⟨m, p, a, rfl, fun h3 => ?_, hl, hinit⟩
      rw [(modelOfCode_eq_none_iff m).mpr h3] at hm
      cases hm
    | setactive => exact (hfour (.inl ⟨_, rfl⟩)).elim
    | setcontrast => exact (hfour (.inr (.inl ⟨_, rfl⟩))).elim
    | render => exact (hfour (.inr (.inr (.inl rfl)))).elim
    | dispose => exact (hfour (.inr (.inr (.inr rfl)))).elim

/-- The move of a busy block that changes the configuration ends a CONSTRUCT with IoError (R101). -/
theorem stepBlock_busy_config {s t : State} (hs : Inv s) (hb : s.busy = true) (h : stepBlock s = .next t)
    (ht : ¬ (t.model = s.model ∧ t.power = s.power ∧ t.busAddr = s.busAddr)) :
    s.job = some .construct ∧ t.initFailed = true ∧ t.responses = s.responses ++ [.error .ioError] := by
  obtain ⟨j, st, a, ts, hp, -, hend⟩ := stepBlock_busy_cases hs hb h
  rcases hend with ⟨rest, rfl⟩ | ⟨pre, x, post, rest, -, rfl⟩ | ⟨pre, x, post, rest, -, rfl⟩
  · obtain ⟨-, -, -, -, -, hmodel, hpower, haddr, -⟩ := ackedState_frame (presenting s j) ts rest
    exact absurd ⟨hmodel, hpower, haddr⟩ ht
  · cases j with
    | construct => exact ⟨hp.job, rfl, rfl⟩
    | setActive | setContrast | render | dispose => exact absurd ⟨rfl, rfl, rfl⟩ ht
  · exact absurd ⟨rfl, rfl, rfl⟩ ht

/-! ### The bus log -/

/-- A block with a released handle adds to the bus log only by a CONSTRUCT that takes it. -/
theorem stepBlock_closed {s u : State} (ho : s.txOpen = false) (h : stepBlock s = .next u) (hlog : u.busLog ≠ s.busLog) :
    s.busy = false ∧ s.life = .uninitialized ∧ s.initFailed = false ∧
    ∃ q rest model power addr, s.hostIn = .request q :: rest ∧
      decode .host q = .instr (.reqConstruct model power true addr) ∧ model ≠ 3 := by
  cases hb : s.busy with
  | true =>
    rw [stepBlock, if_pos hb] at h
    split at h
    · unfold stepSequencer at h
      split at h
      · cases h
        exact absurd (sequenceDone_ports s).2.1 hlog
      · split at h
        · next hi =>
          rw [exec_of_decodeStep hi] at h
          cases (emit_closed (by exact ho) _).symm.trans h
          exact absurd rfl hlog
        · cases h
    · have hsame : resume s = .next s := by simp [resume, transmit, ho]
      cases hsame.symm.trans h
      exact absurd rfl hlog
  | false =>
    rcases stepBlock_idle hb h with ⟨-, rfl⟩ | ⟨q, rest, i, hin, hdec, hi, -, hexec⟩
    · exact absurd rfl hlog
    · rcases requestStep_cases (exec_request hi hexec).2 with ⟨r, -, heq, -⟩ | ⟨j, base, hbegins, hrun⟩
      · exact absurd (by rw [heq]; rfl) hlog
      · by_cases hj : j = .construct
        · subst hj
          cases hbegins with
          | @construct m p a d hf hm =>
            obtain ⟨hl, hinit⟩ := (fresh_iff _).mp hf
            refine ⟨rfl, hl, hinit, q, rest, m, p, a, hin, hdec, fun h3 => ?_⟩
            rw [(modelOfCode_eq_none_iff m).mpr h3] at hm
            cases hm
        · obtain ⟨-, rfl⟩ := begins_base hbegins hj
          have hsame := runScript_closed (s := begun j (accepted { s with hostIn := rest })) ho hrun
          exact absurd (by rw [hsame]; rfl) hlog

/-- A step of a sequence has one of the two control bytes the block emits (R48). -/
theorem ctrl_of_mem {s : State} {j : Job} {st : SeqStep} (hc : Configured s) (h : st ∈ jobSequence s j) :
    st.ctrl = 0x00 ∨ st.ctrl = 0x40 := by
  obtain ⟨i, hi, -⟩ := decodeStep_of_mem hc h
  unfold decodeStep at hi
  split at hi
  · next h0 => exact .inl h0
  · split at hi
    · next h4 => exact .inr h4
    · cases hi

/-- What a busy block's move adds to the bus log goes to BUSADDR. -/
theorem stepBlock_busy_busLog {s t : State} (hs : Inv s) (hb : s.busy = true) (h : stepBlock s = .next t) :
    ∃ new, t.busLog = s.busLog ++ new ∧
      ∀ e ∈ new, (e.txn.ctrl = 0x00 ∨ e.txn.ctrl = 0x40) ∧ s.busAddr = some e.txn.addr := by
  obtain ⟨j, st, a, ts, hp, hmove, -⟩ := stepBlock_presents hs hb
  obtain ⟨-, new, hnew, hmem⟩ := transmit_ports (hmove.symm.trans h)
  refine ⟨new, hnew, fun e he => ?_⟩
  obtain ⟨haddr, hctrl⟩ := transactions_addr (hp.unanswered.subset (hmem e he))
  rw [haddr, hctrl]
  exact ⟨ctrl_of_mem hp.configured hp.mem, hp.busAddr⟩

/-- What a request that begins its sequence adds to the bus log goes to BUSADDR as it then is. -/
theorem begins_busLog {s base t : State} {i : Instr} {j : Job} (hs : Inv s) (hi : Begins s i j base)
    (h : runScript (begun j base).script (begun j base) = .next t) :
    ∃ new, t.busLog = s.busLog ++ new ∧
      ∀ e ∈ new, (e.txn.ctrl = 0x00 ∨ e.txn.ctrl = 0x40) ∧ base.busAddr = some e.txn.addr := by
  have hbegun := inv_begun hs hi
  obtain ⟨j', hj', hjs, -⟩ := hbegun.working (begun_busy hi)
  have hc : Configured (begun j base) := (jobState_holds hbegun hjs).2.2
  have hof {x : Txn} (hx : OfSteps (begun j base) (begun j base).script x) :
      (x.ctrl = 0x00 ∨ x.ctrl = 0x40) ∧ base.busAddr = some x.addr := by
    obtain ⟨a, st, ha, hst, hx⟩ := hx
    obtain ⟨haddr, hctrl⟩ := transactions_addr hx
    have hseq : jobSequence (begun j base) j = jobSequence base j := jobSequence_congr j rfl rfl rfl
    rw [haddr, hctrl]
    exact ⟨ctrl_of_mem hc (hseq.symm ▸ hst : st ∈ jobSequence (begun j base) j), ha⟩
  obtain ⟨-, hlog, -⟩ := begins_frame hi
  obtain ⟨u, n, sent, hp, hsent, hend⟩ := runScript_next (begun_busy hi) h
  have hu : u.busLog = s.busLog ++ ackedEvents sent := by rw [hp.busLog, ← hlog]; rfl
  have hacked : ∀ e ∈ ackedEvents sent, (e.txn.ctrl = 0x00 ∨ e.txn.ctrl = 0x40) ∧ base.busAddr = some e.txn.addr := by
    intro e he
    obtain ⟨x, hx, rfl⟩ := List.mem_map.mp he
    exact hof (hsent x hx)
  rcases hend with ⟨rfl, -⟩ | ⟨-, x, rest, hx, -, rfl⟩ | ⟨rfl, -⟩
  · exact ⟨ackedEvents sent, (sequenceDone_ports u).2.1.trans hu, hacked⟩
  · refine ⟨ackedEvents sent ++ [⟨x, false⟩], ?_, fun e he => ?_⟩
    · rw [(sequenceFailed_ports _).2.1, hu, List.append_assoc]
    · rcases List.mem_append.mp he with he | he
      · exact hacked e he
      · rw [List.mem_singleton.mp he]
        exact hof hx
  · exact ⟨ackedEvents sent, hu, hacked⟩

/-- What a sound block's move adds to the bus log goes to BUSADDR, or to the address of the CONSTRUCT it takes. -/
theorem stepBlock_busLog {s t : State} (hs : Inv s) (h : stepBlock s = .next t) :
    ∃ new, t.busLog = s.busLog ++ new ∧
      ∀ e ∈ new, (e.txn.ctrl = 0x00 ∨ e.txn.ctrl = 0x40) ∧
        (s.busAddr = some e.txn.addr ∨
          (s.busy = false ∧ ∃ q rest model power, s.hostIn = .request q :: rest ∧
            decode .host q = .instr (.reqConstruct model power true e.txn.addr))) := by
  cases hb : s.busy with
  | true =>
    obtain ⟨new, hnew, hmem⟩ := stepBlock_busy_busLog hs hb h
    exact ⟨new, hnew, fun e he => ⟨(hmem e he).1, .inl (hmem e he).2⟩⟩
  | false =>
    rcases stepBlock_idle hb h with ⟨-, rfl⟩ | ⟨q, rest, i, hin, hdec, hi, -, hexec⟩
    · exact ⟨[], by simp, by simp⟩
    · rcases requestStep_cases (exec_request hi hexec).2 with ⟨r, -, heq, -⟩ | ⟨j, base, hbegins, hrun⟩
      · exact ⟨[], by rw [heq]; simp, by simp⟩
      · obtain ⟨new, hnew, hmem⟩ := begins_busLog (inv_of_ports hs rest s.surface) hbegins hrun
        refine ⟨new, hnew, fun e he => ⟨(hmem e he).1, ?_⟩⟩
        have haddr := (hmem e he).2
        by_cases hj : j = .construct
        · subst hj
          cases hbegins with
          | construct =>
            cases haddr
            exact .inr ⟨rfl, q, rest, _, _, hin, hdec⟩
        · obtain ⟨-, rfl⟩ := begins_base hbegins hj
          exact .inl haddr

/-! ### The obligations -/

/-- Settles O50: of the requests only three change `life`, and a busy block's move does so only where one of them goes on. -/
theorem lifeTransitionsListed : Obligations.LifeTransitionsListed := by
  refine ⟨fun i s t hi h ht => ?requests, fun s t hs h ht => ?steps⟩
  case requests =>
    rcases exec_life hi h ht with ⟨hl, -, ⟨model, power, addr, rfl⟩, hend⟩ | hactive | hdispose
    · exact .inl ⟨hl, ⟨_, _, _, _, rfl⟩, hend⟩
    · exact .inr (.inl hactive)
    · exact .inr (.inr hdispose)
  case steps =>
    rcases step_served h with ⟨hreset, ⟨hl, -⟩, -⟩ | ⟨f, rest, rfl⟩ | hmove
    · exact .inl ⟨hreset, hl⟩
    · exact absurd rfl ht
    · cases hb : s.busy with
      | true => exact .inr (.inr ⟨rfl, stepBlock_busy_life hs hb hmove ht⟩)
      | false =>
        rcases stepBlock_idle hb hmove with ⟨-, rfl⟩ | ⟨q, rest, i, hin, hdec, hi, -, hexec⟩
        · exact absurd rfl ht
        · exact .inr (.inl ⟨rfl, q, rest, i, hin, hdec, exec_life (s := { s with hostIn := rest }) hi hexec ht⟩)

/-- Settles O51: of the requests only CONSTRUCT latches, and a busy block's move unlatches only where a CONSTRUCT fails. -/
theorem configurationWrittenByConstructOnly : Obligations.ConfigurationWrittenByConstructOnly := by
  refine ⟨fun i s t hi h ht => exec_config hi h ht, fun s t hs h ht => ?_⟩
  rcases step_served h with ⟨hreset, ⟨-, -, -, -, -, hmodel, hpower, haddr, -⟩, -⟩ | ⟨f, rest, rfl⟩ | hmove
  · exact .inl ⟨hreset, hmodel, hpower, haddr⟩
  · exact absurd ⟨rfl, rfl, rfl⟩ ht
  · cases hb : s.busy with
    | true => exact .inr (.inr ⟨rfl, stepBlock_busy_config hs hb hmove ht⟩)
    | false =>
      rcases stepBlock_idle hb hmove with ⟨-, rfl⟩ | ⟨q, rest, i, hin, hdec, hi, -, hexec⟩
      · exact absurd ⟨rfl, rfl, rfl⟩ ht
      · obtain ⟨model, power, addr, rfl, h3, hl, hinit⟩ := exec_config (s := { s with hostIn := rest }) hi hexec ht
        exact .inr (.inl ⟨rfl, hl, hinit, q, rest, model, power, addr, hin, hdec, h3⟩)

/-- Settles O52: a dead block is not busy, and every request it takes fails its check. -/
theorem initFailedIsSticky : Obligations.InitFailedIsSticky := by
  intro s t hs hfailed h hreset
  obtain ⟨hl, -⟩ := hs.failed_dead hfailed
  rcases step_served h with ⟨hserved, -⟩ | ⟨f, rest, rfl⟩ | hmove
  · exact absurd hserved hreset
  · exact ⟨hfailed, hl, rfl⟩
  · have hb : s.busy = false := by
      by_contra hbusy
      obtain ⟨j, st, a, ts, hp, -⟩ := stepBlock_presents hs (by simpa using hbusy)
      exact absurd (hp.initFailed.symm.trans hfailed) (by simp)
    rcases stepBlock_idle hb hmove with ⟨-, rfl⟩ | ⟨q, rest, i, -, -, hi, -, hexec⟩
    · exact ⟨hfailed, hl, rfl⟩
    · rcases requestStep_cases (exec_request hi hexec).2 with ⟨r, -, heq, -⟩ | ⟨j, base, hbegins, -⟩
      · rw [heq]
        exact ⟨hfailed, hl, rfl⟩
      · by_cases hj : j = .construct
        · subst hj
          cases hbegins with
          | construct hf => exact absurd (((fresh_iff _).mp hf).2.symm.trans hfailed) (by simp)
        · exact absurd hl (life_of_constructed (s := { s with hostIn := rest }) (begins_base hbegins hj).1).1

/-- Settles O53: a reset and a surface change emit nothing, and the move of a block with a released handle nothing but a
CONSTRUCT's transactions. -/
theorem closedHandleEmitsNothing : Obligations.ClosedHandleEmitsNothing := by
  intro s t ho h hlog
  rcases step_served h with ⟨-, -, hsame | ⟨u, hmove, hu⟩⟩ | ⟨f, rest, rfl⟩ | hmove
  · exact absurd hsame hlog
  · exact stepBlock_closed ho hmove (hu ▸ hlog)
  · exact absurd rfl hlog
  · exact stepBlock_closed ho hmove hlog

/-- Settles O54: a reset and a surface change keep the bus log, and a move appends to it. -/
theorem busLogGrowsToBusaddr : Obligations.BusLogGrowsToBusaddr := by
  intro s t hs h
  rcases step_served h with ⟨-, -, hsame | ⟨u, hmove, hu⟩⟩ | ⟨f, rest, rfl⟩ | hmove
  · exact ⟨[], by simp [hsame], by simp⟩
  · exact hu ▸ stepBlock_busLog hs hmove
  · exact ⟨[], by simp, by simp⟩
  · exact stepBlock_busLog hs hmove

end Sys2Proof.Proofs
end

section
/-! The command stream on the bus log (30_encoding.md R64 to R67): every move of the block adds the bytes of whole commands, once
the transactions in flight are acknowledged. -/

namespace Sys2Proof.Proofs

open Sys2Proof Sys2Proof.Machine Sys2Proof.Slice0

/-! ### The reader -/

theorem readBusLog_append (log more : List BusEvent) :
    readBusLog (log ++ more) = (commandStream more).foldl Reader.next (readBusLog log) := by
  rw [readBusLog, commandStream_append, readCommands_append, readBusLog]

/-- A failed transaction leaves the reader where it stands (R166). -/
theorem readBusLog_failed (log more : List BusEvent) (x : Txn) :
    readBusLog (log ++ [⟨x, false⟩] ++ more) = readBusLog (log ++ more) := by
  rw [readBusLog_append, readBusLog_append, commandStream_failed, List.foldl_nil, readBusLog_append]

/-- The commands a reader has read, unless it has refused a byte. -/
def commandsRead : Reader → Option (List Instr)
  | .atOpcode done => some done
  | .inCommand done _ _ _ => some done
  | .refused _ _ => none

theorem commandsRead_eq_some_iff (r : Reader) (done : List Instr) :
    commandsRead r = some done ↔ r = .atOpcode done ∨ ∃ op args left, r = .inCommand done op args left := by
  cases r <;> simp [commandsRead]

theorem commandsRead_finish {done done' : List Instr} {bytes : List Byte}
    (h : commandsRead (Reader.finish done bytes) = some done') : done <+: done' := by
  unfold Reader.finish at h
  split at h
  · cases h
    exact ⟨_, rfl⟩
  · cases h

/-- A reader that has refused nothing after a byte had refused nothing before, and has read no less. -/
theorem commandsRead_next {r : Reader} {b : Byte} {done' : List Instr} (h : commandsRead (r.next b) = some done') :
    ∃ done, commandsRead r = some done ∧ done <+: done' := by
  cases r with
  | atOpcode done =>
    refine ⟨done, rfl, ?_⟩
    rw [Reader.next] at h
    split at h
    · cases h
    · exact commandsRead_finish h
    · cases h
      exact ⟨[], List.append_nil _⟩
  | inCommand done op args left =>
    refine ⟨done, rfl, ?_⟩
    cases left with
    | zero => exact commandsRead_finish h
    | succ n =>
      cases h
      exact ⟨[], List.append_nil _⟩
  | refused => cases h

theorem commandsRead_foldl {r : Reader} {bytes : List Byte} {done' : List Instr}
    (h : commandsRead (bytes.foldl Reader.next r) = some done') :
    ∃ done, commandsRead r = some done ∧ done <+: done' := by
  induction bytes generalizing r with
  | nil => exact ⟨done', h, ⟨[], List.append_nil _⟩⟩
  | cons b bytes ih =>
    obtain ⟨mid, hmid, hle⟩ := ih h
    obtain ⟨done, hdone, hle'⟩ := commandsRead_next hmid
    exact ⟨done, hdone, hle'.trans hle⟩

/-! ### What a move adds -/

theorem allAcked_nil : allAcked [] = [] := rfl

theorem allAcked_append (xs ys : List Txn) : allAcked (xs ++ ys) = allAcked xs ++ allAcked ys := List.map_append

/-- A step of a sequence takes the reader from one opcode position to the next: past its one command, or, for the data
transaction, nowhere (R64). -/
theorem readBusLog_transactions {s : State} {j : Job} {st : SeqStep} {log : List BusEvent} {done : List Instr}
    (hc : Configured s) (hst : st ∈ jobSequence s j) (h : readBusLog log = .atOpcode done) (f : Framing) (a : BusAddr) :
    ∃ more, (∀ i ∈ more, i ∉ neverEmitted) ∧
      readBusLog (log ++ allAcked (transactions f a st)) = .atOpcode (done ++ more) := by
  obtain ⟨i, hi, hemitted⟩ := decodeStep_of_mem hc hst
  have hstream : commandStream (allAcked (transactions f a st)) = if st.ctrl = 0x00 then st.bytes else [] :=
    commandStream_transactions f a st
  rw [readBusLog_append, h, hstream]
  by_cases h0 : st.ctrl = 0x00
  · rw [decodeStep, if_pos h0] at hi
    exact ⟨[i], by simpa using hemitted, by rw [if_pos h0, reader_reads_command hi]⟩
  · exact ⟨[], by simp, by rw [if_neg h0, List.foldl_nil, List.append_nil]⟩

/-- The bus log of t reads as the commands `done` and maybe more, none of the six, once the transactions in flight are
acknowledged; or, where the request has ended in IoError, once those it would still have presented were. -/
def ReadsOn (done : List Instr) (responses : List Response) (t : State) : Prop :=
  ∃ more tail, (∀ i ∈ more, i ∉ neverEmitted) ∧ readBusLog (t.busLog ++ allAcked tail) = .atOpcode (done ++ more) ∧
    (tail = t.inFlight ∨ (t.busy = false ∧ t.responses = responses ++ [.error .ioError]))

/-- What is read of a block whose bus log, transactions in flight and responses are as they were. -/
theorem readsOn_of_logReading {s : State} {done : List Instr} (h : logReading s = .atOpcode done)
    (responses : List Response) : ReadsOn done responses s :=
  ⟨[], s.inFlight, by simp, by rw [List.append_nil]; exact h, .inl rfl⟩

/-- A move of a busy block reads on, and answers nothing while the block stays busy. -/
theorem stepBlock_busy_reads {u v : State} {done : List Instr} {responses : List Response} (hu : Inv u) (hb : u.busy = true)
    (h : stepBlock u = .next v) (hread : ReadsOn done responses u) (hr : u.responses = responses) :
    ReadsOn done responses v ∧ (v.busy = true → v.responses = responses) := by
  obtain ⟨more, tail, hmore, hlog, htail⟩ := hread
  obtain rfl : tail = u.inFlight := htail.resolve_right fun hidle => absurd (hidle.1.symm.trans hb) (by simp)
  obtain ⟨j, st, a, ts, hp, hts, hend⟩ := stepBlock_busy_cases hu hb h
  obtain ⟨more', hmore', hlog'⟩ : ∃ more', (∀ i ∈ more', i ∉ neverEmitted) ∧
      readBusLog (u.busLog ++ allAcked ts) = .atOpcode (done ++ more ++ more') := by
    rcases hts with ⟨hflight, rfl⟩ | rfl
    · rw [hflight, allAcked_nil, List.append_nil] at hlog
      exact readBusLog_transactions hp.configured hp.mem hlog u.framing a
    · exact ⟨[], by simp, by rw [List.append_nil]; exact hlog⟩
  have hall : ∀ i ∈ more ++ more', i ∉ neverEmitted := fun i hi => (List.mem_append.mp hi).elim (hmore i) (hmore' i)
  rw [List.append_assoc] at hlog'
  rcases hend with ⟨rest, rfl⟩ | ⟨pre, x, post, rest, rfl, rfl⟩ | ⟨pre, x, post, rest, rfl, rfl⟩
  · obtain ⟨-, hbus, hflight, -⟩ := ackedState_frame (presenting u j) ts rest
    refine ⟨⟨more ++ more', [], hall, ?_, .inl hflight.symm⟩, fun hbusy => ?_⟩
    · rw [hbus, allAcked_nil, List.append_nil]
      exact hlog'
    · have hnext : (presenting u j).script ≠ [] := fun hlast =>
        absurd ((ackedState_last (presenting u j) ts rest hlast).1.symm.trans hbusy) (by simp)
      rw [ackedState_next _ _ _ hnext]
      exact hr
  · refine ⟨⟨more ++ more', x :: post, hall, ?_, .inr ⟨by simp, by simp [failedState, presenting, hr]⟩⟩, fun hbusy => absurd hbusy (by simp)⟩
    rw [giveResponse_busLog, afterFailure_busLog, failedState, readBusLog_failed, List.append_assoc, ← allAcked_append]
    exact hlog'
  · refine ⟨⟨more ++ more', x :: post, hall, ?_, .inl rfl⟩, fun _ => hr⟩
    rwa [List.append_assoc, ← allAcked_append]

/-- A move of a sound block reads on. -/
theorem stepBlock_reads {s t : State} {done : List Instr} (hs : Inv s) (hlog : logReading s = .atOpcode done)
    (h : stepBlock s = .next t) : ReadsOn done s.responses t := by
  cases hb : s.busy with
  | true => exact (stepBlock_busy_reads hs hb h (readsOn_of_logReading hlog _) rfl).1
  | false =>
    obtain ⟨-, -, -, hflight⟩ := hs.idle hb
    have hsame {u : State} (hbus : u.busLog = s.busLog) (hu : u.inFlight = []) : logReading u = .atOpcode done := by
      rw [← hlog, logReading, logReading, hbus, hu, hflight]
    rcases stepBlock_idle hb h with ⟨-, rfl⟩ | ⟨q, rest, i, -, -, hi, -, hexec⟩
    · exact readsOn_of_logReading hlog _
    · rcases requestStep_cases (exec_request hi hexec).2 with ⟨r, -, heq, -⟩ | ⟨j, base, hbegins, hrun⟩
      · exact readsOn_of_logReading (hsame (by rw [heq]; rfl) (by rw [heq]; rfl)) _
      · obtain ⟨hresponses, hbus, -⟩ := begins_frame hbegins
        obtain ⟨t', ht', -, hreads, -⟩ := begins_induction
          (P := fun u => ReadsOn done s.responses u ∧ (u.busy = true → u.responses = s.responses))
          (fun u v hu hub huv hP => stepBlock_busy_reads hu hub huv hP.1 (hP.2 hub))
          (inv_of_ports hs rest s.surface) hbegins ⟨readsOn_of_logReading (hsame (u := begun j base) hbus rfl) _, fun _ => hresponses⟩
        cases hrun.symm.trans ht'
        exact hreads

/-! ### The obligations -/

/-- Settles O60: a step that serves no reset changes the surface port, or is a move, which reads on. -/
theorem busLogReadsBack : Obligations.BusLogReadsBack := by
  intro s t done hs hlog h hanswer hreset
  have hreads : ReadsOn done s.responses t := by
    rcases step_served h with ⟨hserved, -⟩ | ⟨f, rest, rfl⟩ | hmove
    · exact absurd hserved hreset
    · exact readsOn_of_logReading (s := s) hlog _
    · exact stepBlock_reads hs hlog hmove
  obtain ⟨more, tail, -, hread, htail⟩ := hreads
  obtain rfl : tail = t.inFlight := htail.resolve_right fun hfailed => hanswer hfailed.2
  refine ⟨more, hread, fun hidle => ?_⟩
  obtain ⟨-, -, -, hflight⟩ := (stepKeepsInvariant s t hs h).idle hidle
  rwa [hflight, allAcked_nil, List.append_nil] at hread

/-- Settles O55: what a reader of the bus log has read comes before what it reads once the transactions not delivered are. -/
theorem unusedCommandsNeverEmitted : Obligations.UnusedCommandsNeverEmitted := by
  refine ⟨fun s j st hc hst => decodeStep_of_mem hc hst, fun s t done hs hlog hdone h => ?_⟩
  obtain ⟨all, tail, hall, hread⟩ : ∃ all tail, (∀ i ∈ all, i ∉ neverEmitted) ∧
      readBusLog (t.busLog ++ allAcked tail) = .atOpcode all := by
    have ofMove {u : State} (hreads : ReadsOn done s.responses u) : ∃ all tail, (∀ i ∈ all, i ∉ neverEmitted) ∧
        readBusLog (u.busLog ++ allAcked tail) = .atOpcode all := by
      obtain ⟨more, tail, hmore, hread, -⟩ := hreads
      exact ⟨done ++ more, tail, fun i hi => (List.mem_append.mp hi).elim (hdone i) (hmore i), hread⟩
    rcases step_served h with ⟨-, -, hsame | ⟨u, hmove, hu⟩⟩ | ⟨f, rest, rfl⟩ | hmove
    · exact hsame ▸ ⟨done, s.inFlight, hdone, hlog⟩
    · exact hu ▸ ofMove (stepBlock_reads hs hlog hmove)
    · exact ⟨done, s.inFlight, hdone, hlog⟩
    · exact ofMove (stepBlock_reads hs hlog hmove)
  rw [readBusLog_append] at hread
  obtain ⟨read, hdelivered, hle⟩ := commandsRead_foldl (congrArg commandsRead hread)
  exact ⟨read, fun i hi => hall i (hle.subset hi), (commandsRead_eq_some_iff _ _).mp hdelivered⟩

end Sys2Proof.Proofs
end
